-- ==== Sys2Proof/Word.lean ====
section
/-! DEFINITION. The widths of the machine (00_scope.md R6, R8, 10_state.md R20) and the type of a time span.

Every value is unsigned (R8). A register number is a `Fin 16` (R21: "addressed by a 4-bit register number 0 to 15"). -/

namespace Sys2Proof

/-- An 8-bit value: a general register, a timer, a memory byte, the immediate NN. -/
abbrev Byte := BitVec 8

/-- A 16-bit value: I, pc, a call-stack slot, an instruction word. -/
abbrev Word := BitVec 16

/-- A 12-bit address, the immediate NNN (R74). -/
abbrev Addr12 := BitVec 12

/-- A register number, 0 to 15 (R21). -/
abbrev Reg := Fin 16

/-- VF, register 15, which some instructions also write as a flag (R22). -/
abbrev vf : Reg := 15

/-- What a register `n` bits wide keeps of a value: its low bits. A register as wide as its type keeps all of it. -/
def lowBits {k : Nat} (n : Nat) (w : BitVec k) : BitVec k := if k ≤ n then w else BitVec.ofNat k (w.toNat % 2 ^ n)

/-- A span of time: "a non-negative rational number of seconds" (10_state.md R36, 60_exceptions.md R222).
The sign condition is part of the type, so no negative time can be written down. -/
structure Seconds where
  val : ℚ
  nonneg : 0 ≤ val
  deriving DecidableEq, Repr

/-- No time. -/
def Seconds.zero : Seconds := ⟨0, le_refl 0⟩

/-- Two spans of the same number of seconds are equal. -/
theorem Seconds.ext_val {a b : Seconds} (h : a.val = b.val) : a = b := by
  cases a; cases b; cases h; rfl

end Sys2Proof
end

