-- ==== Sys2Proof/Config.lean ====
section
/-! DEFINITION. The implementation parameters (00_scope.md R6), the parameters that 93_implementation_defined.md asks a
model to take as named arguments (U3, U5, U9 to U15), and the free inputs of a cycle.

The values THIS hardware takes are `Sys2Proof.Machine.hardware`, in Machine/Hardware.lean. -/

namespace Sys2Proof

/-- The parameters a model takes as arguments. Those up to `maxProgLen`, `font`, `shiftSrcVY` and `loadResetOnFail` are
the named parameters of R6; the others are the entries of 93_implementation_defined.md Part 1 whose treatment is
`parameter`. `RAND` is an argument of the cycle. The numbers and widths that State's types hold are bounded by this
hardware's (log entry 17). -/
structure Config where
  /-- `MEM_SIZE`: how many bytes of memory there are, from address 0 up (R6, R50). -/
  memSize : Nat
  /-- `NUM_V`: how many general registers there are, from V0 up (R6). -/
  numV : Fin 17
  /-- `I_WIDTH`: the bits of the index register (R6). -/
  iWidth : Fin 17
  /-- `PC_WIDTH`: the bits of the program counter (R6). -/
  pcWidth : Fin 17
  /-- `TIMER_WIDTH`: the bits of each of the two timers (R6). -/
  timerWidth : Fin 9
  /-- `STACK_DEPTH`: how many call-stack slots there are; `SP_RANGE` is 0 to this (R6). -/
  stackDepth : Fin 17
  /-- `TICK_PERIOD`, in seconds (R6). A tick takes time: a period of 0 has no timer stage. -/
  tickPeriod : ℚ
  /-- `FB_W`: the columns of the framebuffer (R6). -/
  fbW : Fin 65
  /-- `FB_H`: the rows of the framebuffer (R6). -/
  fbH : Fin 33
  /-- `NUM_KEYS`: how many keys there are (R6). -/
  numKeys : Fin 17
  /-- `PROG_BASE`: the reset value of pc and the load address (R6). -/
  progBase : Nat
  /-- `FONT_BASE`: where the font is installed (R6). -/
  fontBase : Nat
  /-- `FONT_GLYPH_BYTES`: the bytes of one glyph (R6). -/
  glyphBytes : Nat
  /-- `MAX_PROG_LEN`: the longest program a load takes (R6). -/
  maxProgLen : Nat
  /-- `FONT`: the 80 bytes of the hexadecimal font (R34, D18). -/
  font : Vector Byte 80
  /-- `SHIFT_SRC_VY`: whether `8XY6` and `8XYE` shift VY instead of VX (R139, R141, D12, U11). -/
  shiftSrcVY : Bool
  /-- `LOAD_RESET_ON_FAIL`: whether a load that fails on size still resets (R255, D17, U3). -/
  loadResetOnFail : Bool
  /-- Whether `8XY4` to `8XYE` read their operands first and write VF last (R132, D10, U5). When false: the literal
  sequence D10 sets aside (VF is cleared, then the operands are read, VF is set, and VX is written last). -/
  flagWrittenLast : Bool
  /-- Whether bits 11:8 of a family-0x0 word are ignored (R76, D16, U9). When false they must be 0. -/
  systemIgnoresX : Bool
  /-- Whether bits 3:0 of a `5XYN` or `9XYN` word are ignored (R81, D28, U10). When false they must be 0. -/
  registerSkipIgnoresN : Bool
  /-- Whether `FX55` and `FX65` leave I as it was (R154, R155, D13, U12). When false: I becomes I + X + 1 (N18). -/
  bulkKeepsIndex : Bool
  /-- Whether `FX29` uses only the low nibble of VX (R152, D14, U13). -/
  glyphMasksDigit : Bool
  /-- Whether `8XY7` sets VF when VY = VX (R140, D11, U14). -/
  subnFlagOnEqual : Bool
  /-- Whether `FX1E` writes VF with "I passed 0xFFF" (R151, D15, U15; N20 names that behaviour). -/
  addIndexWritesVF : Bool
  deriving DecidableEq, Repr

/-- FREE VALUE. The random byte of the n-th cycle when no host command in the state says it: "a free per-cycle input
under no law" (60_exceptions.md R232, D3, U7). Log entry 2. -/
opaque Config.freeRandom : Nat → Byte

/-- FREE VALUE. The elapsed time of the n-th cycle when no host command in the state says it: any non-negative rational
(60_exceptions.md R222, D2, U8). Log entry 2. -/
opaque Config.freeElapsedTime : Nat → ℚ≥0

/-- The free elapsed time as a time span. -/
def Config.freeElapsed (n : Nat) : Seconds := ⟨(Config.freeElapsedTime n : ℚ), NNRat.coe_nonneg _⟩

end Sys2Proof
end

