-- ==== Sys2Proof/Machine/Hardware.lean ====
section
/-! DEFINITION. The values this hardware takes for the parameters of `Config`: the default column of 00_scope.md R6 and
of 93_implementation_defined.md Part 1. They are the spec's own decisions (92_eei_decisions.md); log entry 5. -/

namespace Sys2Proof.Machine

/-- Glyphs 0 to 3 of `FONT` (10_state.md R34). -/
def fontGlyphs0to3 : List Byte :=
  [0xF0, 0x90, 0x90, 0x90, 0xF0,
   0x20, 0x60, 0x20, 0x20, 0x70,
   0xF0, 0x10, 0xF0, 0x80, 0xF0,
   0xF0, 0x10, 0xF0, 0x10, 0xF0]

/-- Glyphs 4 to 7 of `FONT`. -/
def fontGlyphs4to7 : List Byte :=
  [0x90, 0x90, 0xF0, 0x10, 0x10,
   0xF0, 0x80, 0xF0, 0x10, 0xF0,
   0xF0, 0x80, 0xF0, 0x90, 0xF0,
   0xF0, 0x10, 0x20, 0x40, 0x40]

/-- Glyphs 8 to B of `FONT`. -/
def fontGlyphs8toB : List Byte :=
  [0xF0, 0x90, 0xF0, 0x90, 0xF0,
   0xF0, 0x90, 0xF0, 0x10, 0xF0,
   0xF0, 0x90, 0xF0, 0x90, 0x90,
   0xE0, 0x90, 0xE0, 0x90, 0xE0]

/-- Glyphs C to F of `FONT`. -/
def fontGlyphsCtoF : List Byte :=
  [0xF0, 0x80, 0x80, 0x80, 0xF0,
   0xE0, 0x90, 0x90, 0x90, 0xE0,
   0xF0, 0x80, 0xF0, 0x80, 0xF0,
   0xF0, 0x80, 0xF0, 0x80, 0x80]

/-- The 80 bytes of the font in address order from 0x050 (R34; the bytes are general knowledge there, D18). -/
def fontBytes : List Byte := fontGlyphs0to3 ++ fontGlyphs4to7 ++ fontGlyphs8toB ++ fontGlyphsCtoF

/-- The parameters of this hardware. -/
def hardware : Config where
  memSize := 0x1000
  numV := 16
  iWidth := 16
  pcWidth := 16
  timerWidth := 8
  stackDepth := 16
  tickPeriod := 1 / 60
  fbW := 64
  fbH := 32
  numKeys := 16
  progBase := 0x200
  fontBase := 0x050
  glyphBytes := 5
  maxProgLen := 3584
  font := ⟨fontBytes.toArray, rfl⟩
  shiftSrcVY := false
  loadResetOnFail := true
  flagWrittenLast := true
  systemIgnoresX := true
  registerSkipIgnoresN := true
  bulkKeepsIndex := true
  glyphMasksDigit := false
  subnFlagOnEqual := false
  addIndexWritesVF := false

end Sys2Proof.Machine
end

