-- ==== Sys2Proof/Syntax.lean ====
section
/-! DEFINITION. The instruction set: one constructor per row of spec/opcode_table.json (30_encoding.md R84), 34 of them.

X and Y are register numbers, NN an 8-bit immediate, NNN a 12-bit address, N a count of sprite rows (R73, R74). Bits a
rule says are not examined (11:8 of `00E0` and `00EE`, 3:0 of `5XY0` and `9XY0`: R76, R81) are no part of an
instruction. -/

namespace Sys2Proof

inductive Instr where
  /-- `00E0` CLS: clear the framebuffer (R100). -/
  | cls
  /-- `00EE` RET: pop the call stack into pc (R110). -/
  | ret
  /-- `1NNN` JP NNN (R111). -/
  | jp (nnn : Addr12)
  /-- `2NNN` CALL NNN (R112). -/
  | call (nnn : Addr12)
  /-- `3XNN` SE VX, NN: skip if equal (R113). -/
  | seImm (x : Reg) (nn : Byte)
  /-- `4XNN` SNE VX, NN: skip if not equal (R114). -/
  | sneImm (x : Reg) (nn : Byte)
  /-- `5XY0` SE VX, VY (R115). -/
  | seReg (x y : Reg)
  /-- `6XNN` LD VX, NN (R130). -/
  | ldImm (x : Reg) (nn : Byte)
  /-- `7XNN` ADD VX, NN (R131). -/
  | addImm (x : Reg) (nn : Byte)
  /-- `8XY0` LD VX, VY (R133). -/
  | ldReg (x y : Reg)
  /-- `8XY1` OR VX, VY (R134). -/
  | orReg (x y : Reg)
  /-- `8XY2` AND VX, VY (R135). -/
  | andReg (x y : Reg)
  /-- `8XY3` XOR VX, VY (R136). -/
  | xorReg (x y : Reg)
  /-- `8XY4` ADD VX, VY: carry into VF (R137). -/
  | addReg (x y : Reg)
  /-- `8XY5` SUB VX, VY (R138). -/
  | sub (x y : Reg)
  /-- `8XY6` SHR VX (R139). -/
  | shr (x y : Reg)
  /-- `8XY7` SUBN VX, VY (R140). -/
  | subn (x y : Reg)
  /-- `8XYE` SHL VX (R141). -/
  | shl (x y : Reg)
  /-- `9XY0` SNE VX, VY (R116). -/
  | sneReg (x y : Reg)
  /-- `ANNN` LD I, NNN (R150). -/
  | ldI (nnn : Addr12)
  /-- `BNNN` JP V0, NNN (R117). -/
  | jpV0 (nnn : Addr12)
  /-- `CXNN` RND VX, NN (R142). -/
  | rnd (x : Reg) (nn : Byte)
  /-- `DXYN` DRW VX, VY, N: draw N sprite rows (R101). -/
  | drw (x y : Reg) (n : Nat)
  /-- `EX9E` SKP VX (R170). -/
  | skp (x : Reg)
  /-- `EXA1` SKNP VX (R171). -/
  | sknp (x : Reg)
  /-- `FX07` LD VX, DT (R173). -/
  | ldVxDt (x : Reg)
  /-- `FX0A` LD VX, K: wait for a key (R172). -/
  | ldVxK (x : Reg)
  /-- `FX15` LD DT, VX (R174). -/
  | ldDtVx (x : Reg)
  /-- `FX18` LD ST, VX (R175). -/
  | ldStVx (x : Reg)
  /-- `FX1E` ADD I, VX (R151). -/
  | addI (x : Reg)
  /-- `FX29` LD F, VX (R152). -/
  | ldF (x : Reg)
  /-- `FX33` LD B, VX: decimal digits to memory (R153). -/
  | ldB (x : Reg)
  /-- `FX55` LD [I], VX: store V0 to VX (R154). -/
  | stRegs (x : Reg)
  /-- `FX65` LD VX, [I]: load V0 to VX (R155). -/
  | ldRegs (x : Reg)
  deriving DecidableEq, Repr

end Sys2Proof
end

