-- ==== Sys2Proof/Decode.lean ====
section
/-! DEFINITION. The decoder (30_encoding.md R72 to R83), the encoder written from the same tables, and the opcode map of
R84 as a list of mask and match rows. The machine runs the two-level decoder; the map is the spec's second description
of the same decoding. -/

namespace Sys2Proof

/-! ### Fields (R73) -/

/-- `op = w[15:12]`, 0 to 15. -/
def fieldOp (w : Word) : Nat := (w.extractLsb' 12 4).toNat

/-- `X = w[11:8]`. -/
def fieldX (w : Word) : Reg := (w.extractLsb' 8 4).toFin

/-- `Y = w[7:4]`. -/
def fieldY (w : Word) : Reg := (w.extractLsb' 4 4).toFin

/-- `N = w[3:0]`. -/
def fieldN (w : Word) : Nat := (w.extractLsb' 0 4).toNat

/-- `NN = w[7:0]`. -/
def fieldNN (w : Word) : Byte := w.extractLsb' 0 8

/-- `NNN = w[11:0]`. -/
def fieldNNN (w : Word) : Addr12 := w.extractLsb' 0 12

/-! ### Decoding (R75 to R83) -/

/-- Why bytes are no instruction. All but `truncated` are decode errors of R80. -/
inductive DecodeReject where
  /-- Fewer than the two bytes of a word. The machine never decodes such a list: fetch reads two bytes (R71). -/
  | truncated
  /-- Family 0x0 with a low byte that has no handler (R76). -/
  | systemFamily (w : Word)
  /-- Family 0x5 or 0x9 with a low nibble other than 0, under `registerSkipIgnoresN` false only (R81, U10). -/
  | skipFamily (w : Word)
  /-- Family 0x8 with a low nibble that has no handler (R77). -/
  | aluFamily (w : Word)
  /-- Family 0xE with a low byte that has no handler (R78). -/
  | keyFamily (w : Word)
  /-- Family 0xF with a low byte that has no handler (R79). -/
  | miscFamily (w : Word)
  deriving DecidableEq, Repr

/-- Family 0x0 (R76): the low byte decides; bits 11:8 are not examined. -/
def decodeSystem (c : Config) (w : Word) : Except DecodeReject Instr :=
  if c.systemIgnoresX = false ∧ fieldX w ≠ 0 then .error (.systemFamily w)
  else match (fieldNN w).toNat with
  | 0xE0 => .ok .cls
  | 0xEE => .ok .ret
  | _ => .error (.systemFamily w)

/-- Families 0x5 and 0x9 (R81): the low nibble is not examined. -/
def decodeRegisterSkip (c : Config) (w : Word) (i : Instr) : Except DecodeReject Instr :=
  if c.registerSkipIgnoresN = false ∧ fieldN w ≠ 0 then .error (.skipFamily w) else .ok i

/-- Family 0x8 (R77): the low nibble decides. -/
def decodeAlu (w : Word) : Except DecodeReject Instr :=
  match fieldN w with
  | 0x0 => .ok (.ldReg (fieldX w) (fieldY w))
  | 0x1 => .ok (.orReg (fieldX w) (fieldY w))
  | 0x2 => .ok (.andReg (fieldX w) (fieldY w))
  | 0x3 => .ok (.xorReg (fieldX w) (fieldY w))
  | 0x4 => .ok (.addReg (fieldX w) (fieldY w))
  | 0x5 => .ok (.sub (fieldX w) (fieldY w))
  | 0x6 => .ok (.shr (fieldX w) (fieldY w))
  | 0x7 => .ok (.subn (fieldX w) (fieldY w))
  | 0xE => .ok (.shl (fieldX w) (fieldY w))
  | _ => .error (.aluFamily w)

/-- Family 0xE (R78): the low byte decides. -/
def decodeKey (w : Word) : Except DecodeReject Instr :=
  match (fieldNN w).toNat with
  | 0x9E => .ok (.skp (fieldX w))
  | 0xA1 => .ok (.sknp (fieldX w))
  | _ => .error (.keyFamily w)

/-- Family 0xF (R79): the low byte decides. -/
def decodeMisc (w : Word) : Except DecodeReject Instr :=
  match (fieldNN w).toNat with
  | 0x07 => .ok (.ldVxDt (fieldX w))
  | 0x0A => .ok (.ldVxK (fieldX w))
  | 0x15 => .ok (.ldDtVx (fieldX w))
  | 0x18 => .ok (.ldStVx (fieldX w))
  | 0x1E => .ok (.addI (fieldX w))
  | 0x29 => .ok (.ldF (fieldX w))
  | 0x33 => .ok (.ldB (fieldX w))
  | 0x55 => .ok (.stRegs (fieldX w))
  | 0x65 => .ok (.ldRegs (fieldX w))
  | _ => .error (.miscFamily w)

/-- Primary decode (R75): the high nibble picks the family. The last arm is 0xF, the one nibble left. -/
def decodeWith (c : Config) (w : Word) : Except DecodeReject Instr :=
  match fieldOp w with
  | 0x0 => decodeSystem c w
  | 0x1 => .ok (.jp (fieldNNN w))
  | 0x2 => .ok (.call (fieldNNN w))
  | 0x3 => .ok (.seImm (fieldX w) (fieldNN w))
  | 0x4 => .ok (.sneImm (fieldX w) (fieldNN w))
  | 0x5 => decodeRegisterSkip c w (.seReg (fieldX w) (fieldY w))
  | 0x6 => .ok (.ldImm (fieldX w) (fieldNN w))
  | 0x7 => .ok (.addImm (fieldX w) (fieldNN w))
  | 0x8 => decodeAlu w
  | 0x9 => decodeRegisterSkip c w (.sneReg (fieldX w) (fieldY w))
  | 0xA => .ok (.ldI (fieldNNN w))
  | 0xB => .ok (.jpV0 (fieldNNN w))
  | 0xC => .ok (.rnd (fieldX w) (fieldNN w))
  | 0xD => .ok (.drw (fieldX w) (fieldY w) (fieldN w))
  | 0xE => decodeKey w
  | _ => decodeMisc w

/-- This hardware's decoding of one word. Every word is an instruction or a decode error (R82). -/
def decodeWord (w : Word) : Except DecodeReject Instr := decodeWith Machine.hardware w

/-- A word from its two bytes, the byte at the lower address first (20_memory.md R52: big-endian). -/
def wordOfBytes (hi lo : Byte) : Word := BitVec.ofNat 16 (hi.toNat * 0x100 + lo.toNat)

/-- The byte of a word that lies at the lower address: bits 15:8 (R52). -/
def highByte (w : Word) : Byte := w.extractLsb' 8 8

/-- The byte of a word that lies at the higher address: bits 7:0 (R52). -/
def lowByte (w : Word) : Byte := w.extractLsb' 0 8

/-- The first instruction of a list of bytes, and the bytes after it (R72: every instruction is one 16-bit word). -/
def decodeBytes : List Byte → Except DecodeReject (Instr × List Byte)
  | hi :: lo :: rest => (decodeWord (wordOfBytes hi lo)).map (fun i => (i, rest))
  | [_] => .error .truncated
  | [] => .error .truncated

/-- The word of the opcode table's bit numbering: bits 15:0 of `w`, of which those from `nbits` up are 0. -/
def tableWord (nbits w : Nat) : Word := BitVec.ofNat 16 (w % 2 ^ nbits)

/-- The instruction the decoder reads from the word whose bits the table numbers as `w`, stored as the hardware stores
it (high byte first) and decoded from those bytes. -/
def decodeTableWord (nbits w : Nat) : Option Instr :=
  match decodeBytes [highByte (tableWord nbits w), lowByte (tableWord nbits w)] with
  | .ok (i, _) => some i
  | .error _ => none

/-! ### Encoding (R72, R84) -/

/-- Format `NNN`: `op : NNN`. -/
def packNNN (op : Nat) (nnn : Addr12) : Word := BitVec.ofNat 16 (op * 0x1000 + nnn.toNat)

/-- Format `XNN`, and formats `O` and `X` with the sub-opcode byte in NN: `op : X : NN`. -/
def packXNN (op : Nat) (x : Reg) (nn : Byte) : Word := BitVec.ofNat 16 (op * 0x1000 + x.val * 0x100 + nn.toNat)

/-- Formats `XY` and `XYN`: `op : X : Y : N`. -/
def packXYN (op : Nat) (x y : Reg) (n : Nat) : Word :=
  BitVec.ofNat 16 (op * 0x1000 + x.val * 0x100 + y.val * 0x10 + n % 0x10)

/-- The word of an instruction. Bits that decoding ignores are 0 (R85: "the assembler encodes 0 when it is omitted"). -/
def encode : Instr → Word
  | .cls => packXNN 0x0 0 0xE0
  | .ret => packXNN 0x0 0 0xEE
  | .jp nnn => packNNN 0x1 nnn
  | .call nnn => packNNN 0x2 nnn
  | .seImm x nn => packXNN 0x3 x nn
  | .sneImm x nn => packXNN 0x4 x nn
  | .seReg x y => packXYN 0x5 x y 0x0
  | .ldImm x nn => packXNN 0x6 x nn
  | .addImm x nn => packXNN 0x7 x nn
  | .ldReg x y => packXYN 0x8 x y 0x0
  | .orReg x y => packXYN 0x8 x y 0x1
  | .andReg x y => packXYN 0x8 x y 0x2
  | .xorReg x y => packXYN 0x8 x y 0x3
  | .addReg x y => packXYN 0x8 x y 0x4
  | .sub x y => packXYN 0x8 x y 0x5
  | .shr x y => packXYN 0x8 x y 0x6
  | .subn x y => packXYN 0x8 x y 0x7
  | .shl x y => packXYN 0x8 x y 0xE
  | .sneReg x y => packXYN 0x9 x y 0x0
  | .ldI nnn => packNNN 0xA nnn
  | .jpV0 nnn => packNNN 0xB nnn
  | .rnd x nn => packXNN 0xC x nn
  | .drw x y n => packXYN 0xD x y n
  | .skp x => packXNN 0xE x 0x9E
  | .sknp x => packXNN 0xE x 0xA1
  | .ldVxDt x => packXNN 0xF x 0x07
  | .ldVxK x => packXNN 0xF x 0x0A
  | .ldDtVx x => packXNN 0xF x 0x15
  | .ldStVx x => packXNN 0xF x 0x18
  | .addI x => packXNN 0xF x 0x1E
  | .ldF x => packXNN 0xF x 0x29
  | .ldB x => packXNN 0xF x 0x33
  | .stRegs x => packXNN 0xF x 0x55
  | .ldRegs x => packXNN 0xF x 0x65

/-! ### The opcode map (R84) -/

/-- One row of R84: "a word w is that instruction when `(w & mask) == match`". `build` reads the operands out of the
word by R73. -/
structure OpcodeRow where
  pattern : String
  mnemonic : String
  mask : Word
  value : Word
  build : Word → Instr

/-- The row selects the word. -/
def OpcodeRow.selects (r : OpcodeRow) (w : Word) : Prop := w &&& r.mask = r.value

/-- Rows `00E0` to `7XNN` of R84. -/
def opcodeRows0to7 : List OpcodeRow :=
  [⟨"00E0", "CLS", 0xF0FF, 0x00E0, fun _ => .cls⟩,
   ⟨"00EE", "RET", 0xF0FF, 0x00EE, fun _ => .ret⟩,
   ⟨"1NNN", "JP", 0xF000, 0x1000, fun w => .jp (fieldNNN w)⟩,
   ⟨"2NNN", "CALL", 0xF000, 0x2000, fun w => .call (fieldNNN w)⟩,
   ⟨"3XNN", "SE", 0xF000, 0x3000, fun w => .seImm (fieldX w) (fieldNN w)⟩,
   ⟨"4XNN", "SNE", 0xF000, 0x4000, fun w => .sneImm (fieldX w) (fieldNN w)⟩,
   ⟨"5XY0", "SE", 0xF000, 0x5000, fun w => .seReg (fieldX w) (fieldY w)⟩,
   ⟨"6XNN", "LD", 0xF000, 0x6000, fun w => .ldImm (fieldX w) (fieldNN w)⟩,
   ⟨"7XNN", "ADD", 0xF000, 0x7000, fun w => .addImm (fieldX w) (fieldNN w)⟩]

/-- Rows `8XY0` to `8XYE` of R84. -/
def opcodeRows8 : List OpcodeRow :=
  [⟨"8XY0", "LD", 0xF00F, 0x8000, fun w => .ldReg (fieldX w) (fieldY w)⟩,
   ⟨"8XY1", "OR", 0xF00F, 0x8001, fun w => .orReg (fieldX w) (fieldY w)⟩,
   ⟨"8XY2", "AND", 0xF00F, 0x8002, fun w => .andReg (fieldX w) (fieldY w)⟩,
   ⟨"8XY3", "XOR", 0xF00F, 0x8003, fun w => .xorReg (fieldX w) (fieldY w)⟩,
   ⟨"8XY4", "ADD", 0xF00F, 0x8004, fun w => .addReg (fieldX w) (fieldY w)⟩,
   ⟨"8XY5", "SUB", 0xF00F, 0x8005, fun w => .sub (fieldX w) (fieldY w)⟩,
   ⟨"8XY6", "SHR", 0xF00F, 0x8006, fun w => .shr (fieldX w) (fieldY w)⟩,
   ⟨"8XY7", "SUBN", 0xF00F, 0x8007, fun w => .subn (fieldX w) (fieldY w)⟩,
   ⟨"8XYE", "SHL", 0xF00F, 0x800E, fun w => .shl (fieldX w) (fieldY w)⟩]

/-- Rows `9XY0` to `EXA1` of R84. -/
def opcodeRows9toE : List OpcodeRow :=
  [⟨"9XY0", "SNE", 0xF000, 0x9000, fun w => .sneReg (fieldX w) (fieldY w)⟩,
   ⟨"ANNN", "LD", 0xF000, 0xA000, fun w => .ldI (fieldNNN w)⟩,
   ⟨"BNNN", "JP", 0xF000, 0xB000, fun w => .jpV0 (fieldNNN w)⟩,
   ⟨"CXNN", "RND", 0xF000, 0xC000, fun w => .rnd (fieldX w) (fieldNN w)⟩,
   ⟨"DXYN", "DRW", 0xF000, 0xD000, fun w => .drw (fieldX w) (fieldY w) (fieldN w)⟩,
   ⟨"EX9E", "SKP", 0xF0FF, 0xE09E, fun w => .skp (fieldX w)⟩,
   ⟨"EXA1", "SKNP", 0xF0FF, 0xE0A1, fun w => .sknp (fieldX w)⟩]

/-- Rows `FX07` to `FX65` of R84. -/
def opcodeRowsF : List OpcodeRow :=
  [⟨"FX07", "LD", 0xF0FF, 0xF007, fun w => .ldVxDt (fieldX w)⟩,
   ⟨"FX0A", "LD", 0xF0FF, 0xF00A, fun w => .ldVxK (fieldX w)⟩,
   ⟨"FX15", "LD", 0xF0FF, 0xF015, fun w => .ldDtVx (fieldX w)⟩,
   ⟨"FX18", "LD", 0xF0FF, 0xF018, fun w => .ldStVx (fieldX w)⟩,
   ⟨"FX1E", "ADD", 0xF0FF, 0xF01E, fun w => .addI (fieldX w)⟩,
   ⟨"FX29", "LD", 0xF0FF, 0xF029, fun w => .ldF (fieldX w)⟩,
   ⟨"FX33", "LD", 0xF0FF, 0xF033, fun w => .ldB (fieldX w)⟩,
   ⟨"FX55", "LD", 0xF0FF, 0xF055, fun w => .stRegs (fieldX w)⟩,
   ⟨"FX65", "LD", 0xF0FF, 0xF065, fun w => .ldRegs (fieldX w)⟩]

/-- The 34 rows of R84 in the order of the table. -/
def opcodeMap : List OpcodeRow := opcodeRows0to7 ++ opcodeRows8 ++ opcodeRows9toE ++ opcodeRowsF

end Sys2Proof
end

