-- ==== Sys2Proof/Machine/State.lean ====
section
/-! DEFINITION. The state of the machine: the architectural tuple of 10_state.md R20, and the model's own fields that
hold the cycle in progress and the host's side of the command ports (60_exceptions.md R230). Plain data throughout. -/

namespace Sys2Proof.Machine

/-- Memory: the bytes that are not 0, by rising address. An unlisted address of 0x000 to 0xFFF holds 0, what reset puts
there (10_state.md R32, 70_reset_and_hazards.md R250). -/
abbrev Memory := List Host.Cell

/-- The one canonical form: addresses strictly rising, inside the address space, and no listed byte equal to 0. -/
abbrev Memory.wf (m : Memory) : Prop :=
  m.Pairwise (fun c d => c.1 < d.1) ∧ ∀ c ∈ m, c.1 < 0x1000 ∧ c.2 ≠ 0

/-- The causes of a latched fault (60_exceptions.md R211). -/
inductive FaultCause where
  /-- Fetch with pc > 0xFFE (R71). -/
  | fetchOutOfRange
  /-- `2NNN` with sp = 16 (R112). -/
  | stackOverflow
  /-- `DXYN`, `FX33`, `FX55` or `FX65` past 0xFFF (R56). -/
  | memOutOfRange
  /-- `EX9E` or `EXA1` with VX > 15 (R170, R171). -/
  | keyOutOfRange
  deriving DecidableEq, Repr

/-- The fault record `{cause, addr, word}` (10_state.md R37). -/
structure FaultRecord where
  cause : FaultCause
  addr : Word
  word : Word
  deriving DecidableEq, Repr

/-- The diagnostic codes (60_exceptions.md R202). -/
inductive DiagCode where
  /-- A word with no handler (R80). -/
  | decodeError
  /-- `00EE` with sp = 0 (R110). -/
  | stackUnderflow
  deriving DecidableEq, Repr

/-- A diagnostic event `{code, addr, word}`, stamped with the cycle that emitted it (60_exceptions.md R203). -/
structure Diagnostic where
  code : DiagCode
  addr : Word
  word : Word
  cycle : Nat
  deriving DecidableEq, Repr

/-- The host's commands (60_exceptions.md R230). -/
inductive Command where
  /-- `RESET` (70_reset_and_hazards.md R250). -/
  | reset
  /-- `LOAD(bytes)` (70_reset_and_hazards.md R254). -/
  | load (bytes : List Byte)
  /-- `CYCLE(elapsed, r)` (30_encoding.md R70). -/
  | cycle (elapsed : Seconds) (r : Byte)
  /-- `SET_KEY(k, pressed)`, k any integer (60_exceptions.md R231). -/
  | setKey (k : Int) (pressed : Bool)
  /-- `READ_FB` (60_exceptions.md R233). -/
  | readFb
  /-- `STATUS` (60_exceptions.md R230). -/
  | status
  deriving DecidableEq, Repr

/-- The result of a `LOAD` (70_reset_and_hazards.md R254, R255). -/
inductive LoadResult where
  | ok
  | tooLarge
  deriving DecidableEq, Repr

/-- What the machine gives the host: a diagnostic event, or the result of a command (60_exceptions.md R230). -/
inductive Output where
  | diag (d : Diagnostic)
  | loaded (r : LoadResult)
  | framebuffer (pixels : List Bool)
  | status (fault : Option FaultRecord) (soundActive : Bool)
  deriving DecidableEq, Repr

/-- The state. The first twelve fields are the tuple of R20; the last five are the model's own (log entry 1). -/
structure State where
  /-- V0 to VF, `x[0..15]` (R21). -/
  v : Vector Byte 16
  /-- The index register `I` (R27). -/
  index : Word
  /-- The program counter (R24). -/
  pc : Word
  /-- The call-stack slots (R28). -/
  stack : Vector Word 16
  /-- The number of occupied slots, 0 to 16 (R29). -/
  sp : Fin 17
  /-- The delay timer `DT` (R30). -/
  dt : Byte
  /-- The sound timer `ST` (R31). -/
  st : Byte
  /-- The 4096 bytes of memory (R32). -/
  mem : Memory
  /-- The framebuffer: 32 rows of 64 pixels, `true` is on (R33). -/
  fb : Vector (Vector Bool 64) 32
  /-- The key states, `true` is pressed (R35). -/
  key : Vector Bool 16
  /-- The timer accumulator (R36). -/
  acc : Seconds
  /-- The fault latch (R37). -/
  fault : Option FaultRecord
  /-- MODEL'S OWN. The word `w` of the cycle in progress (R70); a fault or diagnostic records it. -/
  word : Word
  /-- MODEL'S OWN. The random input `r` of the cycle in progress (R70, 60_exceptions.md R232). -/
  rand : Byte
  /-- MODEL'S OWN. The commands the host has issued that are not yet performed, the next one first (R234). -/
  pending : List Command
  /-- MODEL'S OWN. The diagnostic port and the results of commands, oldest first (R203, R230). -/
  output : List Output
  /-- MODEL'S OWN. How many cycles have been run: the stamp of a diagnostic and the index of the free inputs. -/
  cycles : Nat
  deriving DecidableEq, Repr

/-- A stop of the model's step. There is NONE: every error this hardware detects has an effect the spec gives (a
diagnostic, or a latched fault that is the next state: 60_exceptions.md R201, R210), so no meaning ends a run. Safe. -/
inductive Fault where
  deriving DecidableEq, Repr

/-- Why an instruction has no meaning. -/
inductive Refusal where
  /-- Raised by an arm of `exec` whose instruction has no meaning yet (safe: the model stops). No arm does so. -/
  | notModelled (mnemonic : String)
  deriving DecidableEq, Repr

/-- The machine right after reset, under the parameters `c` (70_reset_and_hazards.md R250, R251). The five fields of the model's own start empty
(log entry 1). -/
def State.resetWith (c : Config) : State where
  v := Vector.replicate 16 0
  index := 0
  pc := lowBits c.pcWidth.val (BitVec.ofNat 16 c.progBase)
  stack := Vector.replicate 16 0
  sp := 0
  dt := 0
  st := 0
  mem := []
  fb := Vector.replicate 32 (Vector.replicate 64 false)
  key := Vector.replicate 16 false
  acc := Seconds.zero
  fault := none
  word := 0
  rand := 0
  pending := []
  output := []
  cycles := 0

/-- This hardware right after reset. -/
def State.reset : State := State.resetWith hardware

/-- What a meaning answers. -/
abbrev Result := Host.Outcome State Fault Refusal

end Sys2Proof.Machine
end

