-- ==== Sys2Proof/Machine/Ops.lean ====
section
/-! DEFINITION. The named operations: registers, memory, the framebuffer, the call stack, reporting a diagnostic, taking
a fault, and placing an instruction word in memory. Meanings are written over these alone. -/

namespace Sys2Proof.Machine

/-! ### General registers (10_state.md R21, R9) -/

/-- `x[r]`. -/
def State.getV (s : State) (r : Reg) : Byte := s.v.get r

/-- `x[r] <- b`. -/
def State.setV (s : State) (r : Reg) (b : Byte) : State := { s with v := s.v.set r.val b r.isLt }

/-- The register a loop counter names. -/
def regOfNat (k : Nat) : Reg := Fin.ofNat 16 k

/-! ### The width of a register (00_scope.md R6) -/

/-- What the registers of the machine hold of what was written to them: the low bits of I, pc and the timers, by their
widths, and of the general registers the first `NUM_V`; another one does not exist, and reads as 0 (log entry 17). On
this hardware, all of everything. -/
def State.keep (c : Config) (s : State) : State :=
  { s with
    v := if 16 ≤ c.numV.val then s.v else Vector.ofFn (fun r : Reg => if r.val < c.numV.val then s.getV r else 0)
    index := lowBits c.iWidth.val s.index
    pc := lowBits c.pcWidth.val s.pc
    dt := lowBits c.timerWidth.val s.dt
    st := lowBits c.timerWidth.val s.st }

/-! ### Memory (00_scope.md R10, 20_memory.md R50, R55) -/

/-- `MemRead(addr, 1)`: the byte last written at the address; a byte nothing has written is 0 (R32, R250). -/
def memRead : Memory → Nat → Byte
  | [], _ => 0
  | (b, v) :: m, a => if b = a then v else memRead m a

/-- A cell in front of a memory, left out when its byte is what an unlisted address reads as. -/
def memCons (a : Nat) (v : Byte) (m : Memory) : Memory := if v = 0 then m else (a, v) :: m

/-- `MemWrite(addr, 1, v)`, keeping the canonical form. -/
def memWrite : Memory → Nat → Byte → Memory
  | [], a, v => memCons a v []
  | (b, u) :: m, a, v =>
    if a < b then memCons a v ((b, u) :: m)
    else if a = b then memCons a v m
    else (b, u) :: memWrite m a v

/-- Writes of consecutive bytes from an address up, in order. -/
def memWriteList : Memory → Nat → List Byte → Memory
  | m, _, [] => m
  | m, a, v :: vs => memWriteList (memWrite m a v) (a + 1) vs

/-- The word at an address: the byte there is bits 15:8, the next byte bits 7:0 (R52). -/
def memWord (m : Memory) (a : Nat) : Word := wordOfBytes (memRead m a) (memRead m (a + 1))

/-- A word stored at an address, high byte first (R52). -/
def memWriteWord (m : Memory) (a : Nat) (w : Word) : Memory :=
  memWrite (memWrite m a (highByte w)) (a + 1) (lowByte w)

/-! ### Framebuffer (10_state.md R33, 40_display.md R102) -/

/-- A column number, modulo `FB_W`. -/
def column (c : Config) (n : Nat) : Fin 64 := Fin.ofNat 64 (n % c.fbW.val)

/-- A row number, modulo `FB_H`. -/
def row (c : Config) (n : Nat) : Fin 32 := Fin.ofNat 32 (n % c.fbH.val)

/-- `fb[px, py]`. -/
def State.pixel (s : State) (px : Fin 64) (py : Fin 32) : Bool := (s.fb.get py).get px

/-- `fb[px, py] <- on`. -/
def State.setPixel (s : State) (px : Fin 64) (py : Fin 32) (on : Bool) : State :=
  { s with fb := s.fb.set py.val ((s.fb.get py).set px.val on px.isLt) py.isLt }

/-- The framebuffer with every pixel off (R100). -/
def clearFramebuffer : Vector (Vector Bool 64) 32 := Vector.replicate 32 (Vector.replicate 64 false)

/-- `Plot(px, py)`: the collision detector (R102). -/
def plot (s : State) (px : Fin 64) (py : Fin 32) : State :=
  if s.pixel px py then (s.setPixel px py false).setV vf 1 else s.setPixel px py true

/-- One sprite byte: its bits from the most significant one, at columns `px0 + bit` modulo `FB_W`
(R101). -/
def drawByte (c : Config) (px0 : Nat) (py : Fin 32) (b : Byte) (s : State) : State :=
  (List.range 8).foldl (fun s bit => if b.getLsbD (7 - bit) then plot s (column c (px0 + bit)) py else s) s

/-- `n` sprite rows read from I upward, at rows `py0 + k` modulo `FB_H` (R101). -/
def drawRows (c : Config) (px0 py0 n : Nat) (s : State) : State :=
  (List.range n).foldl (fun s k => drawByte c px0 (row c (py0 + k)) (memRead s.mem (s.index.toNat + k)) s) s

/-- The pixels in row-major order, index `x + y*FB_W` (R233). -/
def State.pixelsWith (c : Config) (s : State) : List Bool :=
  ((s.fb.toList.take c.fbH.val).map (fun r => r.toList.take c.fbW.val)).flatten

/-- The pixels of this hardware, index `x + y*64`. -/
def State.pixels (s : State) : List Bool := s.pixelsWith hardware

/-! ### Keys (10_state.md R35) -/

/-- `key[k]`; there is no key above 15. -/
def State.keyDown (s : State) (k : Nat) : Bool := if h : k < 16 then s.key[k] else false

/-- `min { k | key[k] = 1 }`, when some key is pressed (44_keys_timers.md R172). -/
def State.lowestKeyWith (c : Config) (s : State) : Option Nat := (List.range c.numKeys.val).find? s.keyDown

/-- The lowest pressed key of this hardware. -/
def State.lowestKey (s : State) : Option Nat := s.lowestKeyWith hardware

/-! ### Diagnostics (60_exceptions.md R201 to R203) -/

/-- The spec's number of a diagnostic code (R202). -/
def DiagCode.number : DiagCode → Nat
  | .decodeError => 1
  | .stackUnderflow => 2

/-- What the machine gives the host, appended to its output. -/
def State.emit (s : State) (o : Output) : State := { s with output := s.output ++ [o] }

/-- The address A of the word in execution, whose fetch left pc at A + 2 (10_state.md R24). -/
def State.wordAddr (c : Config) (s : State) : Word := lowBits c.pcWidth.val (s.pc - 2)

/-- `report Diag(code)`: the event of the word in execution and its address; nothing else changes (R203). -/
def State.report (c : Config) (s : State) (code : DiagCode) : State :=
  s.emit (.diag ⟨code, s.wordAddr c, s.word, s.cycles⟩)

/-! ### Taking a fault (60_exceptions.md R210). No instruction returns from one (R214): only `RESET` and `LOAD` clear
the latch, in Machine/HostPort.lean. -/

/-- The spec's number of a fault cause (R211). -/
def FaultCause.number : FaultCause → Nat
  | .fetchOutOfRange => 1
  | .stackOverflow => 2
  | .memOutOfRange => 3
  | .keyOutOfRange => 4

/-- The latch is set and pc is the address of the faulting word (R210 (a), (c)). -/
def State.latchFault (s : State) (cause : FaultCause) (addr word : Word) : State :=
  { s with pc := addr, fault := some ⟨cause, addr, word⟩ }

/-- `raise Fault(cause)` in an instruction: fetch's advance of pc is undone, and the word in execution is recorded. -/
def State.raiseFault (c : Config) (s : State) (cause : FaultCause) : State := s.latchFault cause (s.wordAddr c) s.word

/-! ### Control transfer and the call stack (41_control.md R110 to R118) -/

/-- `pc <- target`. -/
def State.jumpTo (s : State) (target : Word) : State := { s with pc := target }

/-- A skip: `pc <- pc + 2` after fetch's advance, when the condition holds (00_scope.md glossary). -/
def State.skipIf (s : State) (c : Bool) : State := if c then s.jumpTo (s.pc + 2) else s

/-- The push and jump of `2NNN`; a full stack is a fault (R112). -/
def State.pushAndJump (c : Config) (s : State) (target : Word) : State :=
  if h : s.sp.val < c.stackDepth.val then
    { s with stack := s.stack.set s.sp.val s.pc (by have := c.stackDepth.isLt; omega), sp := ⟨s.sp.val + 1, by omega⟩, pc := target }
  else s.raiseFault c .stackOverflow

/-- The pop of `00EE`; an empty stack is a diagnostic. The slot keeps its value (R110). -/
def State.popAndJump (c : Config) (s : State) : State :=
  if h : s.sp.val = 0 then s.report c .stackUnderflow
  else
    { s with sp := ⟨s.sp.val - 1, by have := s.sp.isLt; omega⟩,
             pc := s.stack.get ⟨s.sp.val - 1, by have := s.sp.isLt; omega⟩ }

/-! ### Placing an instruction (Machine/Step.lean, withFetchWord) -/

/-- Where the next fetch reads: pc when a fetch there is in range (R71), else the program's base. -/
def State.fetchAddr (s : State) : Word := if s.pc.toNat ≤ 0xFFE then s.pc else BitVec.ofNat 16 hardware.progBase

/-- The state with a word stored where the next cycle fetches, and that cycle as the next command, with the inputs
95_test_vectors.md gives a cycle unless it says otherwise (`elapsed = 0` and `r = 0`). A halted core is released. -/
def State.placeWord (s : State) (w : Word) : State :=
  { s with
    mem := memWriteWord s.mem s.fetchAddr.toNat w
    pc := s.fetchAddr
    fault := none
    pending := .cycle Seconds.zero 0 :: s.pending }

end Sys2Proof.Machine
end

