-- ==== Sys2Proof/Machine/Operands.lean ====
section
/-! DEFINITION. Operand forms: immediates, the effective address of I plus an offset with its range check, register
lists in memory, the sprite's origin, the glyph address and the decimal digits. -/

namespace Sys2Proof.Machine

/-- `zext_16(NNN)` (30_encoding.md R74). -/
def addrOfNNN (nnn : Addr12) : Word := BitVec.ofNat 16 nnn.toNat

/-- `NNN + V0`, not masked to 12 bits (41_control.md R117). -/
def addrPlusV0 (nnn : Addr12) (s : State) : Word := BitVec.ofNat 16 (nnn.toNat + (s.getV 0).toNat)

/-- `zext(I) + k`, an unbounded integer (20_memory.md R56). -/
def State.effAddr (s : State) (k : Nat) : Nat := s.index.toNat + k

/-- `MemCheck(I, last)`: run the instruction's effect only when its largest effective address is in memory (at most 0xFFF);
otherwise the instruction raises `MEM_OUT_OF_RANGE` and makes no access (20_memory.md R56). -/
def State.checked (c : Config) (s : State) (last : Nat) (effect : State) : State :=
  if s.effAddr last < c.memSize then effect else s.raiseFault c .memOutOfRange

/-- V0 to VX written at I upward, in order (43_index_memory.md R154). -/
def storeRegs (s : State) (x : Reg) : Memory :=
  (List.range (x.val + 1)).foldl (fun m k => memWrite m (s.effAddr k) (s.getV (regOfNat k))) s.mem

/-- V0 to VX read from I upward, in order (43_index_memory.md R155). -/
def loadRegs (s : State) (x : Reg) : State :=
  (List.range (x.val + 1)).foldl (fun t k => t.setV (regOfNat k) (memRead s.mem (s.effAddr k))) s

/-- I after a bulk move: unchanged on this hardware (R154, R155), else past the last byte (the parameter of U12). -/
def indexAfterBulk (c : Config) (s : State) (x : Reg) : Word :=
  if c.bulkKeepsIndex then s.index else s.index + BitVec.ofNat 16 (x.val + 1)

/-- The decimal digits of a byte: hundreds, tens, units (43_index_memory.md R153). -/
def decimalDigits (a : Byte) : List Byte :=
  [BitVec.ofNat 8 (a.toNat / 100), BitVec.ofNat 8 (a.toNat / 10 % 10), BitVec.ofNat 8 (a.toNat % 10)]

/-- `0x050 + 5 * VX`; the whole of VX on this hardware, its low nibble under the parameter of U13
(43_index_memory.md R152). -/
def glyphAddr (c : Config) (a : Byte) : Word :=
  BitVec.ofNat 16 (c.fontBase + c.glyphBytes * (if c.glyphMasksDigit then a.toNat % 16 else a.toNat))

/-- The operand of the two shifts: VX on this hardware, VY under `SHIFT_SRC_VY` (42_alu.md R139, R141). -/
def shiftSource (c : Config) (a b : Byte) : Byte := if c.shiftSrcVY then b else a

end Sys2Proof.Machine
end

