-- ==== Sys2Proof/Machine/Flags.lean ====
section
/-! DEFINITION. The flag computations that write VF (10_state.md R22, 42_alu.md R132 to R141), and the one way an ALU
instruction writes its result and its flag. The collision flag is `plot`, in Machine/Ops.lean. -/

namespace Sys2Proof.Machine

/-- A flag as VF holds it: 1 or 0. -/
def flagByte (c : Bool) : Byte := if c then 1 else 0

/-- `8XY4`: the sum, and VF = "the unsigned sum exceeds 255" (R137). -/
def addWithCarry (a b : Byte) : Byte × Bool :=
  (BitVec.ofNat 8 (a.toNat + b.toNat), decide (a.toNat + b.toNat > 255))

/-- `8XY5`: `a - b` modulo 256, and VF = "a > b before subtraction", strictly (R138; 90_conflicts.md C3). -/
def subNotBorrow (a b : Byte) : Byte × Bool :=
  (BitVec.ofNat 8 (a.toNat + 256 - b.toNat), decide (a.toNat > b.toNat))

/-- `8XY7`: `b - a` modulo 256, and VF = "b > a" (R140); `b >= a` under the parameter of U14. -/
def reverseSubNotBorrow (c : Config) (a b : Byte) : Byte × Bool :=
  (BitVec.ofNat 8 (b.toNat + 256 - a.toNat),
   decide (b.toNat > a.toNat) || (c.subnFlagOnEqual && decide (b = a)))

/-- `8XY6`: the logical shift right by one of the source, and VF = its old bit 0 (R139). -/
def shiftRightOut (c : Config) (a b : Byte) : Byte × Bool :=
  (shiftSource c a b >>> 1, (shiftSource c a b).getLsbD 0)

/-- `8XYE`: the shift left by one of the source, and VF = its old bit 7 (R141). -/
def shiftLeftOut (c : Config) (a b : Byte) : Byte × Bool :=
  (shiftSource c a b <<< 1, (shiftSource c a b).getLsbD 7)

/-- The common semantics of `8XY4` to `8XYE` (R132): operands first, VX next, VF last. The other branch is the literal
sequence D10 sets aside: VF is cleared, the operands are read, VF is set, and VX is written last (U5). -/
def aluWithFlag (c : Config) (x y : Reg) (f : Byte → Byte → Byte × Bool) (s : State) : State :=
  if c.flagWrittenLast then
    (s.setV x (f (s.getV x) (s.getV y)).1).setV vf (flagByte (f (s.getV x) (s.getV y)).2)
  else
    let s0 := s.setV vf 0
    (s0.setV vf (flagByte (f (s0.getV x) (s0.getV y)).2)).setV x (f (s0.getV x) (s0.getV y)).1

/-- `FX1E`'s flag: none on this hardware; under the parameter of U15, "I passed 0xFFF" (R151, N20). -/
def addIndexFlag (c : Config) (a : Byte) (s : State) : State :=
  if c.addIndexWritesVF then s.setV vf (flagByte (decide (s.index.toNat + a.toNat > 0xFFF))) else s

end Sys2Proof.Machine
end

