-- ==== Sys2Proof/Machine/Alu.lean ====
section
/-! DEFINITION. Register loads, the ALU group and the random byte (42_alu.md). -/

namespace Sys2Proof.Machine

/-- `6XNN` LD (R130). -/
def execLdImm (x : Reg) (nn : Byte) (s : State) : Result := .next (s.setV x nn)

/-- `7XNN` ADD: modulo 256, no flag (R131). -/
def execAddImm (x : Reg) (nn : Byte) (s : State) : Result :=
  .next (s.setV x (BitVec.ofNat 8 ((s.getV x).toNat + nn.toNat)))

/-- `8XY0` LD (R133). -/
def execLdReg (x y : Reg) (s : State) : Result := .next (s.setV x (s.getV y))

/-- `8XY1` OR (R134). -/
def execOrReg (x y : Reg) (s : State) : Result := .next (s.setV x (s.getV x ||| s.getV y))

/-- `8XY2` AND (R135). -/
def execAndReg (x y : Reg) (s : State) : Result := .next (s.setV x (s.getV x &&& s.getV y))

/-- `8XY3` XOR (R136). -/
def execXorReg (x y : Reg) (s : State) : Result := .next (s.setV x (s.getV x ^^^ s.getV y))

/-- `8XY4` ADD (R137). -/
def execAddRegWith (c : Config) (x y : Reg) (s : State) : Result := .next (aluWithFlag c x y addWithCarry s)

/-- `8XY4` ADD on this hardware. -/
def execAddReg (x y : Reg) (s : State) : Result := execAddRegWith hardware x y s

/-- `8XY5` SUB (R138). -/
def execSubWith (c : Config) (x y : Reg) (s : State) : Result := .next (aluWithFlag c x y subNotBorrow s)

/-- `8XY5` SUB on this hardware. -/
def execSub (x y : Reg) (s : State) : Result := execSubWith hardware x y s

/-- `8XY6` SHR (R139). -/
def execShrWith (c : Config) (x y : Reg) (s : State) : Result := .next (aluWithFlag c x y (shiftRightOut c) s)

/-- `8XY6` SHR on this hardware. -/
def execShr (x y : Reg) (s : State) : Result := execShrWith hardware x y s

/-- `8XY7` SUBN (R140). -/
def execSubnWith (c : Config) (x y : Reg) (s : State) : Result := .next (aluWithFlag c x y (reverseSubNotBorrow c) s)

/-- `8XY7` SUBN on this hardware. -/
def execSubn (x y : Reg) (s : State) : Result := execSubnWith hardware x y s

/-- `8XYE` SHL (R141). -/
def execShlWith (c : Config) (x y : Reg) (s : State) : Result := .next (aluWithFlag c x y (shiftLeftOut c) s)

/-- `8XYE` SHL on this hardware. -/
def execShl (x y : Reg) (s : State) : Result := execShlWith hardware x y s

/-- `CXNN` RND: the cycle's random input, masked (R142). -/
def execRnd (x : Reg) (nn : Byte) (s : State) : Result := .next (s.setV x (s.rand &&& nn))

end Sys2Proof.Machine
end

