-- ==== Sys2Proof/Machine/Control.lean ====
section
/-! DEFINITION. Jumps, calls, returns and the skips on registers (41_control.md). pc holds A + 2 on entry
(10_state.md R24). -/

namespace Sys2Proof.Machine

/-- `00EE` RET (R110). -/
def execRetWith (c : Config) (s : State) : Result := .next (s.popAndJump c)

/-- `00EE` RET on this hardware. -/
def execRet (s : State) : Result := execRetWith hardware s

/-- `1NNN` JP (R111). -/
def execJp (nnn : Addr12) (s : State) : Result := .next (s.jumpTo (addrOfNNN nnn))

/-- `2NNN` CALL (R112). -/
def execCallWith (c : Config) (nnn : Addr12) (s : State) : Result := .next (s.pushAndJump c (addrOfNNN nnn))

/-- `2NNN` CALL on this hardware. -/
def execCall (nnn : Addr12) (s : State) : Result := execCallWith hardware nnn s

/-- `3XNN` SE (R113). -/
def execSeImm (x : Reg) (nn : Byte) (s : State) : Result := .next (s.skipIf (decide (s.getV x = nn)))

/-- `4XNN` SNE (R114). -/
def execSneImm (x : Reg) (nn : Byte) (s : State) : Result := .next (s.skipIf (decide (s.getV x ≠ nn)))

/-- `5XY0` SE (R115). -/
def execSeReg (x y : Reg) (s : State) : Result := .next (s.skipIf (decide (s.getV x = s.getV y)))

/-- `9XY0` SNE (R116). -/
def execSneReg (x y : Reg) (s : State) : Result := .next (s.skipIf (decide (s.getV x ≠ s.getV y)))

/-- `BNNN` JP V0 (R117). -/
def execJpV0 (nnn : Addr12) (s : State) : Result := .next (s.jumpTo (addrPlusV0 nnn s))

end Sys2Proof.Machine
end

