-- ==== Sys2Proof/Machine/Display.lean ====
section
/-! DEFINITION. `00E0` and `DXYN` (40_display.md). -/

namespace Sys2Proof.Machine

/-- `00E0` CLS (R100). -/
def execCls (s : State) : Result := .next { s with fb := clearFramebuffer }

/-- `DXYN` DRW (R101): the origin is read before VF is cleared; the address check comes before any write; no row, no
memory access. -/
def execDrwWith (c : Config) (x y : Reg) (n : Nat) (s : State) : Result :=
  let drawn := drawRows c ((s.getV x).toNat % c.fbW.val) ((s.getV y).toNat % c.fbH.val) n (s.setV vf 0)
  .next (if n = 0 then drawn else s.checked c (n - 1) drawn)

/-- `DXYN` DRW on this hardware. -/
def execDrw (x y : Reg) (n : Nat) (s : State) : Result := execDrwWith hardware x y n s

end Sys2Proof.Machine
end

