-- ==== Sys2Proof/Machine/IndexMemory.lean ====
section
/-! DEFINITION. The index register and the instructions that move bytes between memory and registers
(43_index_memory.md). -/

namespace Sys2Proof.Machine

/-- `ANNN` LD I (R150). -/
def execLdI (nnn : Addr12) (s : State) : Result := .next { s with index := addrOfNNN nnn }

/-- `FX1E` ADD I: modulo 65536, VF not written (R151). -/
def execAddIWith (c : Config) (x : Reg) (s : State) : Result :=
  .next { addIndexFlag c (s.getV x) s with index := BitVec.ofNat 16 (s.index.toNat + (s.getV x).toNat) }

/-- `FX1E` ADD I on this hardware. -/
def execAddI (x : Reg) (s : State) : Result := execAddIWith hardware x s

/-- `FX29` LD F (R152). -/
def execLdFWith (c : Config) (x : Reg) (s : State) : Result := .next { s with index := glyphAddr c (s.getV x) }

/-- `FX29` LD F on this hardware. -/
def execLdF (x : Reg) (s : State) : Result := execLdFWith hardware x s

/-- `FX33` LD B (R153). -/
def execLdBWith (c : Config) (x : Reg) (s : State) : Result :=
  .next (s.checked c 2 { s with mem := memWriteList s.mem (s.effAddr 0) (decimalDigits (s.getV x)) })

/-- `FX33` LD B on this hardware. -/
def execLdB (x : Reg) (s : State) : Result := execLdBWith hardware x s

/-- `FX55` LD [I], VX (R154). -/
def execStRegsWith (c : Config) (x : Reg) (s : State) : Result :=
  .next (s.checked c x.val { s with mem := storeRegs s x, index := indexAfterBulk c s x })

/-- `FX55` LD [I], VX on this hardware. -/
def execStRegs (x : Reg) (s : State) : Result := execStRegsWith hardware x s

/-- `FX65` LD VX, [I] (R155). -/
def execLdRegsWith (c : Config) (x : Reg) (s : State) : Result :=
  .next (s.checked c x.val { loadRegs s x with index := indexAfterBulk c s x })

/-- `FX65` LD VX, [I] on this hardware. -/
def execLdRegs (x : Reg) (s : State) : Result := execLdRegsWith hardware x s

end Sys2Proof.Machine
end

