-- ==== Sys2Proof/Machine/KeysTimers.lean ====
section
/-! DEFINITION. The key skips, the key wait and the timer moves (44_keys_timers.md). -/

namespace Sys2Proof.Machine

/-- A skip on the key VX names; VX >= `NUM_KEYS`, which is VX > 15, is a fault (R170, R171). -/
def keySkip (c : Config) (x : Reg) (pressed : Bool) (s : State) : State :=
  if (s.getV x).toNat ≥ c.numKeys.val then s.raiseFault c .keyOutOfRange
  else s.skipIf (s.keyDown (s.getV x).toNat == pressed)

/-- `EX9E` SKP (R170). -/
def execSkpWith (c : Config) (x : Reg) (s : State) : Result := .next (keySkip c x true s)

/-- `EX9E` SKP on this hardware. -/
def execSkp (x : Reg) (s : State) : Result := execSkpWith hardware x s

/-- `EXA1` SKNP (R171). -/
def execSknpWith (c : Config) (x : Reg) (s : State) : Result := .next (keySkip c x false s)

/-- `EXA1` SKNP on this hardware. -/
def execSknp (x : Reg) (s : State) : Result := execSknpWith hardware x s

/-- `FX0A` LD VX, K: the lowest pressed key, or back to A (R172). -/
def execLdVxKWith (c : Config) (x : Reg) (s : State) : Result :=
  match s.lowestKeyWith c with
  | some k => .next (s.setV x (BitVec.ofNat 8 k))
  | none => .next (s.jumpTo (s.pc - 2))

/-- `FX0A` LD VX, K on this hardware. -/
def execLdVxK (x : Reg) (s : State) : Result := execLdVxKWith hardware x s

/-- `FX07` LD VX, DT (R173). -/
def execLdVxDt (x : Reg) (s : State) : Result := .next (s.setV x s.dt)

/-- `FX15` LD DT, VX (R174). -/
def execLdDtVx (x : Reg) (s : State) : Result := .next { s with dt := s.getV x }

/-- `FX18` LD ST, VX (R175). -/
def execLdStVx (x : Reg) (s : State) : Result := .next { s with st := s.getV x }

end Sys2Proof.Machine
end

