-- ==== Sys2Proof/Machine/Timer.lean ====
section
/-! DEFINITION. The timer stage (60_exceptions.md R220 to R224). -/

namespace Sys2Proof.Machine

/-- The sum of two time spans, exact (R220: "exact rational arithmetic"). -/
def addSeconds (a b : Seconds) : Seconds := ⟨a.val + b.val, add_nonneg a.nonneg b.nonneg⟩

/-- One 8-bit countdown step, floor 0 (R30). -/
def countDown (t : Byte) : Byte := if t = 0 then 0 else t - 1

/-- What the timer stage changes: DT, ST and the accumulator. -/
structure Timers where
  dt : Byte
  st : Byte
  acc : Seconds
  deriving DecidableEq, Repr

/-- The `while` of R220, at most `fuel` times round: a tick counts both timers down and takes `TICK_PERIOD`
from the accumulator. -/
def tickLoop (c : Config) : Nat → Timers → Timers
  | 0, t => t
  | fuel + 1, t =>
    if h : c.tickPeriod ≤ t.acc.val then
      tickLoop c fuel ⟨countDown t.dt, countDown t.st, ⟨t.acc.val - c.tickPeriod, sub_nonneg.mpr h⟩⟩
    else t

/-- How many whole periods a time span holds: `floor(t / TICK_PERIOD)`, in whole numbers. The loop of R220 goes round
this often (R221 (c)). -/
def wholeTicks (c : Config) (t : Seconds) : Nat :=
  t.val.num.toNat * c.tickPeriod.den / (t.val.den * c.tickPeriod.num.toNat)

/-- The timers after a stage that adds `elapsed` to the accumulator (R220). -/
def ticked (c : Config) (elapsed : Seconds) (s : State) : Timers :=
  tickLoop c (wholeTicks c (addSeconds s.acc elapsed)) ⟨s.dt, s.st, addSeconds s.acc elapsed⟩

/-- `TimerStage(elapsed)` (R220). -/
def timerStageWith (c : Config) (elapsed : Seconds) (s : State) : State :=
  { s with dt := (ticked c elapsed s).dt, st := (ticked c elapsed s).st, acc := (ticked c elapsed s).acc }

/-- The timer stage of this hardware: a tick is 1/60 s. -/
def timerStage (elapsed : Seconds) (s : State) : State := timerStageWith hardware elapsed s

/-- The sound output: `ST != 0` (R224). -/
def State.soundActive (s : State) : Bool := decide (s.st ≠ 0)

end Sys2Proof.Machine
end

