-- ==== Sys2Proof/Machine/HostPort.lean ====
section
/-! DEFINITION. The host's commands other than `CYCLE` (60_exceptions.md R230 to R233, 70_reset_and_hazards.md R250 to
R257), and the choice of the next command. -/

namespace Sys2Proof.Machine

/-- `RESET` (R250): the whole architectural state becomes that of R251. What the host has still to be given and has
still asked for is not the core's state and stays (log entry 3). -/
def resetCommandWith (c : Config) (s : State) : State :=
  { State.resetWith c with pending := s.pending, output := s.output, cycles := s.cycles }

/-- `RESET` on this hardware. -/
def resetCommand (s : State) : State := resetCommandWith hardware s

/-- The copies of a successful load: the program from `PROG_BASE`, then the font from `FONT_BASE` (R254). -/
def installProgram (c : Config) (bytes : List Byte) (s : State) : State :=
  { s with mem := memWriteList (memWriteList s.mem c.progBase bytes) c.fontBase c.font.toList }

/-- `LOAD(bytes)` (R254, R255). -/
def loadCommand (c : Config) (bytes : List Byte) (s : State) : State :=
  let s1 := if c.loadResetOnFail then resetCommandWith c s else s
  if bytes.length > c.maxProgLen then s1.emit (.loaded .tooLarge)
  else
    let s2 := if c.loadResetOnFail then s1 else resetCommandWith c s1
    (installProgram c bytes s2).emit (.loaded .ok)

/-- `SET_KEY(k, pressed)`; an index out of range changes nothing (R231). -/
def setKeyCommand (c : Config) (k : Int) (pressed : Bool) (s : State) : State :=
  if h : 0 ≤ k ∧ k < c.numKeys.val then
    { s with key := s.key.set k.toNat pressed (by have := c.numKeys.isLt; omega) }
  else s

/-- `READ_FB` (R233). -/
def readFbCommand (c : Config) (s : State) : State := s.emit (.framebuffer (s.pixelsWith c))

/-- `STATUS` (R230). -/
def statusCommand (s : State) : State := s.emit (.status s.fault s.soundActive)

/-- The command the next step performs: the oldest one the host has issued, or, when the state lists none, a `CYCLE`
whose inputs are free (log entry 2). -/
def State.nextCommand (s : State) : Command :=
  match s.pending with
  | c :: _ => c
  | [] => .cycle (Config.freeElapsed s.cycles) (Config.freeRandom s.cycles)

/-- The state with that command taken from the queue (R234). -/
def State.takeCommand (s : State) : State := { s with pending := s.pending.tail }

end Sys2Proof.Machine
end

