-- ==== Sys2Proof/Machine/Cycle.lean ====
section
/-! DEFINITION. The cycle (30_encoding.md R70, R71) and the performing of one command (60_exceptions.md R230). -/

namespace Sys2Proof.Machine

/-- The cycle's inputs are taken: its random byte, and its number. -/
def State.beginCycle (s : State) (r : Byte) : State := { s with rand := r, cycles := s.cycles + 1 }

/-- `Fetch()` in range: the big-endian word at pc, and pc advanced by 2 (R71). -/
def State.fetch (s : State) : State := { s with word := memWord s.mem s.pc.toNat, pc := s.pc + 2 }

/-- After execute: the timer stage, unless the cycle faulted (R70, R210 (b)). -/
def finishCycle (c : Config) (elapsed : Seconds) : Result → Result
  | .next s => .next (if s.fault.isSome then s else timerStageWith c elapsed s)
  | .fault f => .fault f
  | .refused r => .refused r

/-- Decode and execute the fetched word, `run` being the meaning of an instruction; a decode error reports and changes
nothing else (R80). -/
def executeWord (c : Config) (run : Instr → State → Result) (s : State) : Result :=
  match decodeWith c s.word with
  | .ok i => run i s
  | .error _ => .next (s.report c .decodeError)

/-- `Cycle(elapsed, r)` (R70). A halted core ignores it (60_exceptions.md R215). The two bytes of a word must be in
memory: pc is at most 0xFFE (R71). -/
def runCycleWith (c : Config) (run : Instr → State → Result) (elapsed : Seconds) (r : Byte) (s : State) : Result :=
  if s.fault.isSome then .next s
  else if s.pc.toNat + 1 < c.memSize then finishCycle c elapsed (executeWord c run ((s.beginCycle r).fetch.keep c))
  else .next ((s.beginCycle r).latchFault .fetchOutOfRange s.pc 0)

/-- A cycle of this hardware. -/
def runCycle (elapsed : Seconds) (r : Byte) (s : State) : Result := runCycleWith hardware exec elapsed r s

/-- One command, performed to completion (60_exceptions.md R230, R234). -/
def performWith (c : Config) (run : Instr → State → Result) (command : Command) (s : State) : Result :=
  match command with
  | .reset => .next (resetCommandWith c s)
  | .load bytes => .next (loadCommand c bytes s)
  | .cycle elapsed r => runCycleWith c run elapsed r s
  | .setKey k pressed => .next (setKeyCommand c k pressed s)
  | .readFb => .next (readFbCommand c s)
  | .status => .next (statusCommand s)

/-- One command on this hardware. -/
def perform (command : Command) (s : State) : Result := performWith hardware exec command s

end Sys2Proof.Machine
end

