-- ==== Sys2Proof/Machine/Step.lean ====
section
/-! DEFINITION. One step: the next command of the host, performed to completion (60_exceptions.md R234). -/

namespace Sys2Proof.Machine

def step (s : State) : Host.Outcome State Fault Refusal := perform s.nextCommand s.takeCommand

/-- The state in which the very next step fetches and runs the instruction whose bits the opcode table numbers as `w`
(log entry 4). -/
def State.withFetchWord (s : State) (nbits w : Nat) : State := s.placeWord (tableWord nbits w)

end Sys2Proof.Machine
end

