-- ==== Sys2Proof/Machine/Parametric.lean ====
section
/-! DEFINITION. The machine as a function of its parameters (00_scope.md R6: "A model should make each named parameter
an argument; its default is the value this hardware takes"). `exec` and `step` have no such argument; they are these at
`hardware`, which Laws/Parametric.lean proves. -/

namespace Sys2Proof.Machine

/-- What an instruction computes under the parameters `c`, before the registers' widths are applied. -/
def effectWith (c : Config) (i : Instr) (s : State) : Result :=
  match i with
  | .cls => execCls s
  | .ret => execRetWith c s
  | .jp nnn => execJp nnn s
  | .call nnn => execCallWith c nnn s
  | .seImm x nn => execSeImm x nn s
  | .sneImm x nn => execSneImm x nn s
  | .seReg x y => execSeReg x y s
  | .ldImm x nn => execLdImm x nn s
  | .addImm x nn => execAddImm x nn s
  | .ldReg x y => execLdReg x y s
  | .orReg x y => execOrReg x y s
  | .andReg x y => execAndReg x y s
  | .xorReg x y => execXorReg x y s
  | .addReg x y => execAddRegWith c x y s
  | .sub x y => execSubWith c x y s
  | .shr x y => execShrWith c x y s
  | .subn x y => execSubnWith c x y s
  | .shl x y => execShlWith c x y s
  | .sneReg x y => execSneReg x y s
  | .ldI nnn => execLdI nnn s
  | .jpV0 nnn => execJpV0 nnn s
  | .rnd x nn => execRnd x nn s
  | .drw x y n => execDrwWith c x y n s
  | .skp x => execSkpWith c x s
  | .sknp x => execSknpWith c x s
  | .ldVxDt x => execLdVxDt x s
  | .ldVxK x => execLdVxKWith c x s
  | .ldDtVx x => execLdDtVx x s
  | .ldStVx x => execLdStVx x s
  | .addI x => execAddIWith c x s
  | .ldF x => execLdFWith c x s
  | .ldB x => execLdBWith c x s
  | .stRegs x => execStRegsWith c x s
  | .ldRegs x => execLdRegsWith c x s

/-- The registers keep what fits them. -/
def keepResult (c : Config) : Result → Result
  | .next s => .next (s.keep c)
  | .fault f => .fault f
  | .refused r => .refused r

/-- The meaning of an instruction under the parameters `c`. -/
def execWith (c : Config) (i : Instr) (s : State) : Result := keepResult c (effectWith c i s)

/-- One step of the machine whose parameters are `c`. It starts from `State.resetWith c`. -/
def stepWith (c : Config) (s : State) : Result := performWith c (execWith c) s.nextCommand s.takeCommand

end Sys2Proof.Machine
end

