-- ==== Sys2Proof/Safety.lean ====
section
/-! DEFINITION. The terms claims use: what two states share, what a fault leaves, the reset values, the invariants of
10_state.md R42, and the terminal conditions of 70_reset_and_hazards.md R266. -/

namespace Sys2Proof.Machine

/-- The parts of the state: the twelve of 10_state.md R20, then the five of the model's own. -/
inductive Part where
  | regs | index | pc | stack | sp | dt | st | mem | fb | key | acc | fault
  | word | rand | pending | output | cycles
  deriving DecidableEq, Repr

/-- The two states agree on a part, each read through its accessor. -/
def SamePart (s t : State) : Part → Prop
  | .regs => ∀ r, t.getV r = s.getV r
  | .index => t.index = s.index
  | .pc => t.pc = s.pc
  | .stack => ∀ k : Fin 16, t.stack.get k = s.stack.get k
  | .sp => t.sp = s.sp
  | .dt => t.dt = s.dt
  | .st => t.st = s.st
  | .mem => ∀ a, memRead t.mem a = memRead s.mem a
  | .fb => ∀ px py, t.pixel px py = s.pixel px py
  | .key => ∀ k, t.keyDown k = s.keyDown k
  | .acc => t.acc = s.acc
  | .fault => t.fault = s.fault
  | .word => t.word = s.word
  | .rand => t.rand = s.rand
  | .pending => t.pending = s.pending
  | .output => t.output = s.output
  | .cycles => t.cycles = s.cycles

/-- Every part but the named ones is unchanged from `s` to `t`. -/
def Frame (changed : List Part) (s t : State) : Prop := ∀ p, p ∉ changed → SamePart s t p

/-- Every general register but the named ones is unchanged. -/
def RegsSameExcept (changed : List Reg) (s t : State) : Prop := ∀ r, r ∉ changed → t.getV r = s.getV r

/-- Every byte of memory outside `n` bytes from address `a` is unchanged. -/
def MemSameOutside (a n : Nat) (s t : State) : Prop :=
  ∀ k, k < a ∨ a + n ≤ k → memRead t.mem k = memRead s.mem k

/-- `t` is `s` with the fault of the word in execution latched, and nothing else done (60_exceptions.md R210). -/
def FaultsWith (cause : FaultCause) (s t : State) : Prop :=
  t.fault = some ⟨cause, s.pc - 2, s.word⟩ ∧ t.pc = s.pc - 2 ∧ Frame [.pc, .fault] s t

/-- The words of an instruction: exactly those a mask and match select (30_encoding.md R84), with the operands that
`build` reads out of the word. -/
def EncodedBy (mask value : Word) (build : Word → Instr) : Prop :=
  ∀ w, w &&& mask = value ↔ decodeWord w = .ok (build w)

/-- Every piece of architectural state at its reset value (70_reset_and_hazards.md R251). -/
def ResetValues (t : State) : Prop :=
  (∀ r, t.getV r = 0) ∧ t.index = 0 ∧ t.pc = 0x200 ∧ (∀ k : Fin 16, t.stack.get k = 0) ∧ t.sp = 0 ∧ t.dt = 0 ∧
  t.st = 0 ∧ (∀ a, memRead t.mem a = 0) ∧ (∀ px py, t.pixel px py = false) ∧ (∀ k, t.keyDown k = false) ∧
  t.acc.val = 0 ∧ t.fault = none

/-- The core is halted: the fault latch is set (60_exceptions.md R215). -/
def State.Halted (s : State) : Prop := s.fault ≠ none

/-- The invariant of R42 (b) and (c), with what keeps it: memory in canonical form, and no slot above 0x1000
(41_control.md R110 (b): a slot holds "always a pushed pc, so at most 0x1000"). R42 (a) and (e) are in the types. -/
structure State.Inv (s : State) : Prop where
  memory : s.mem.wf
  accumulator : s.acc.val < 1 / 60
  counter : s.pc.toNat ≤ 0x10FE
  slots : ∀ k : Fin 16, (s.stack.get k).toNat ≤ 0x1000

/-- The word the next fetch reads (30_encoding.md R71). -/
def State.nextWord (s : State) : Word := memWord s.mem s.pc.toNat

/-- One byte of that word: the one at pc, or the one after it. -/
def State.nextByte (s : State) (j : Fin 2) : Byte := if j = 0 then highByte s.nextWord else lowByte s.nextWord

/-- The core is about to run a cycle with these inputs, and can fetch. -/
structure State.Runs (s : State) (elapsed : Seconds) (r : Byte) : Prop where
  command : s.nextCommand = .cycle elapsed r
  running : s.fault = none
  inRange : s.pc.toNat ≤ 0xFFE

/-- Terminal condition (a), idle: the word at pc is `1NNN` with NNN = pc (R266). -/
def State.Idle (s : State) : Prop :=
  ∃ nnn : Addr12, decodeWord s.nextWord = .ok (.jp nnn) ∧ nnn.toNat = s.pc.toNat

/-- Terminal condition (c), waiting: the word at pc is `FX0A` and no key is pressed (R266). -/
def State.Waiting (s : State) : Prop :=
  (∃ x, decodeWord s.nextWord = .ok (.ldVxK x)) ∧ ∀ k, s.keyDown k = false

/-- A step is safe when it answers a next state in which the core is not halted. -/
def SafeStep (s : State) : Prop := ∃ t, step s = .next t ∧ ¬ t.Halted

end Sys2Proof.Machine
end

