-- ==== Sys2Proof/Certificates/Slice0/Obligations.lean ====
section
/-! DEFINITION. The statements for the provers. The per-instruction statements are about `exec`, on a state after fetch:
pc holds A + 2 (10_state.md R24). Those about a cycle are about `step`. -/

namespace Sys2Proof.Claims

open Sys2Proof.Machine

/-- How many of the 4096 words of a family are instructions (30_encoding.md R82). -/
def familyCount (op : Nat) : Nat :=
  ((List.range 0x1000).filter (fun k => (decodeWord (BitVec.ofNat 16 (op * 0x1000 + k))).toBool)).length

/-- The bits of a word that decoding examines or reads out (R76, R81). -/
def examinedBits : Instr → Word
  | .cls | .ret => 0xF0FF
  | .seReg _ _ | .sneReg _ _ => 0xFFF0
  | .jp _ | .call _ | .seImm _ _ | .sneImm _ _ | .ldImm _ _ | .addImm _ _ | .ldReg _ _ | .orReg _ _
  | .andReg _ _ | .xorReg _ _ | .addReg _ _ | .sub _ _ | .shr _ _ | .subn _ _ | .shl _ _ | .ldI _ | .jpV0 _
  | .rnd _ _ | .drw _ _ _ | .skp _ | .sknp _ | .ldVxDt _ | .ldVxK _ | .ldDtVx _ | .ldStVx _ | .addI _ | .ldF _
  | .ldB _ | .stRegs _ | .ldRegs _ => 0xFFFF

/-- V0 to VX. -/
def regsUpTo (x : Reg) : List Reg := (List.finRange 16).filter (fun r => r ≤ x)

/-- The general registers an instruction may write: the last column of 10_state.md R23. -/
def writtenRegs : Instr → List Reg
  | .ldImm x _ | .addImm x _ | .ldReg x _ | .orReg x _ | .andReg x _ | .xorReg x _ | .rnd x _ | .ldVxDt x
  | .ldVxK x => [x]
  | .addReg x _ | .sub x _ | .shr x _ | .subn x _ | .shl x _ => [x, vf]
  | .drw _ _ _ => [vf]
  | .ldRegs x => regsUpTo x
  | .cls | .ret | .jp _ | .call _ | .seImm _ _ | .sneImm _ _ | .seReg _ _ | .sneReg _ _ | .ldI _ | .jpV0 _
  | .skp _ | .sknp _ | .ldDtVx _ | .ldStVx _ | .addI _ | .ldF _ | .ldB _ | .stRegs _ => []

/-- The general registers an instruction reads: the middle column of R23, with `SHIFT_SRC_VY` false. -/
def readRegs : Instr → List Reg
  | .seImm x _ | .sneImm x _ | .addImm x _ | .shr x _ | .shl x _ | .skp x | .sknp x | .ldDtVx x | .ldStVx x
  | .addI x | .ldF x | .ldB x => [x]
  | .seReg x y | .sneReg x y | .orReg x y | .andReg x y | .xorReg x y | .addReg x y | .sub x y | .subn x y
  | .drw x y _ => [x, y]
  | .ldReg _ y => [y]
  | .jpV0 _ => [0]
  | .stRegs x => regsUpTo x
  | .cls | .ret | .jp _ | .call _ | .ldImm _ _ | .ldI _ | .rnd _ _ | .ldVxDt _ | .ldVxK _ | .ldRegs _ => []

/-- The one fault condition of each instruction (60_exceptions.md R211, R212). -/
def faultCondition (s : State) : Instr → Option FaultCause
  | .call _ => if s.sp.val = 16 then some .stackOverflow else none
  | .drw _ _ n => if 0 < n ∧ s.index.toNat + (n - 1) > 0xFFF then some .memOutOfRange else none
  | .ldB _ => if s.index.toNat + 2 > 0xFFF then some .memOutOfRange else none
  | .stRegs x | .ldRegs x => if s.index.toNat + x.val > 0xFFF then some .memOutOfRange else none
  | .skp x | .sknp x => if (s.getV x).toNat > 15 then some .keyOutOfRange else none
  | .cls | .ret | .jp _ | .seImm _ _ | .sneImm _ _ | .seReg _ _ | .ldImm _ _ | .addImm _ _ | .ldReg _ _
  | .orReg _ _ | .andReg _ _ | .xorReg _ _ | .addReg _ _ | .sub _ _ | .shr _ _ | .subn _ _ | .shl _ _
  | .sneReg _ _ | .ldI _ | .jpV0 _ | .rnd _ _ | .ldVxDt _ | .ldVxK _ | .ldDtVx _ | .ldStVx _ | .addI _
  | .ldF _ => none

/-- The fault condition of the whole cycle: fetch first, then the decoded instruction's (R212). -/
def cycleFaultCondition (s : State) : Option FaultCause :=
  if s.pc.toNat > 0xFFE then some .fetchOutOfRange
  else match decodeWord s.nextWord with
  | .ok i => faultCondition s i
  | .error _ => none

/-- Whether the condition of a skip holds (10_state.md R25, sixth row). -/
def skipCondition (s : State) : Instr → Bool
  | .seImm x nn => decide (s.getV x = nn)
  | .sneImm x nn => decide (s.getV x ≠ nn)
  | .seReg x y => decide (s.getV x = s.getV y)
  | .sneReg x y => decide (s.getV x ≠ s.getV y)
  | .skp x => s.keyDown (s.getV x).toNat
  | .sknp x => !s.keyDown (s.getV x).toNat
  | .cls | .ret | .jp _ | .call _ | .ldImm _ _ | .addImm _ _ | .ldReg _ _ | .orReg _ _ | .andReg _ _
  | .xorReg _ _ | .addReg _ _ | .sub _ _ | .shr _ _ | .subn _ _ | .shl _ _ | .ldI _ | .jpV0 _ | .rnd _ _
  | .drw _ _ _ | .ldVxDt _ | .ldVxK _ | .ldDtVx _ | .ldStVx _ | .addI _ | .ldF _ | .ldB _ | .stRegs _
  | .ldRegs _ => false

/-- pc after a cycle that runs an instruction and does not fault, A being pc before it (the table of R25). -/
def pcAfter (s : State) (i : Instr) : Nat :=
  match i with
  | .ret =>
    if h : 0 < s.sp.val then (s.stack.get ⟨s.sp.val - 1, Nat.sub_lt_left_of_lt_add h (Nat.add_comm 16 1 ▸ s.sp.isLt)⟩).toNat
    else s.pc.toNat + 2
  | .jp nnn | .call nnn => nnn.toNat
  | .jpV0 nnn => nnn.toNat + (s.getV 0).toNat
  | .ldVxK _ => if s.lowestKey = none then s.pc.toNat else s.pc.toNat + 2
  | .seImm _ _ | .sneImm _ _ | .seReg _ _ | .sneReg _ _ | .skp _ | .sknp _ =>
    if skipCondition s i then s.pc.toNat + 4 else s.pc.toNat + 2
  | .cls | .ldImm _ _ | .addImm _ _ | .ldReg _ _ | .orReg _ _ | .andReg _ _ | .xorReg _ _ | .addReg _ _
  | .sub _ _ | .shr _ _ | .subn _ _ | .shl _ _ | .ldI _ | .rnd _ _ | .drw _ _ _ | .ldVxDt _ | .ldDtVx _
  | .ldStVx _ | .addI _ | .ldF _ | .ldB _ | .stRegs _ | .ldRegs _ => s.pc.toNat + 2

/-- The sprite bit that falls on a pixel, for a sprite of `n` rows at I drawn at (VX mod 64, VY mod 32): the pixel lies
`dx` columns right and `dy` rows below the origin, both modulo the framebuffer's size (40_display.md R101). -/
def spriteBit (s : State) (x y : Reg) (n : Nat) (px : Fin 64) (py : Fin 32) : Bool :=
  let dx := (px.val + 64 - (s.getV x).toNat % 64) % 64
  let dy := (py.val + 32 - (s.getV y).toNat % 32) % 32
  decide (dx < 8) && decide (dy < n) && (memRead s.mem (s.index.toNat + dy)).getLsbD (7 - dx)

/-- What `DXYN` can read: no row, or every row inside memory. -/
def SpriteInMemory (s : State) (n : Nat) : Prop := n = 0 ∨ s.index.toNat + (n - 1) ≤ 0xFFF

/-- The whole 1/60 s in a time span: `floor(t * 60)` (60_exceptions.md R221 (c)). -/
def ticksIn (t : ℚ) : Nat := ⌊t * 60⌋₊

/-- A sequence of timer stages. -/
def timerStages (es : List Seconds) (s : State) : State := es.foldl (fun u e => timerStage e u) s

/-- The seconds of a sequence of elapsed times. -/
def totalSeconds (es : List Seconds) : ℚ := (es.map Seconds.val).sum

end Sys2Proof.Claims

section
open Sys2Proof Sys2Proof.Machine Sys2Proof.Claims

/-! ### Encoding (30_encoding.md) -/

/-- Twenty words written out by hand from the table of R84, one or more of each of the sixteen families, decode to the
instruction they stand for; and 0x8008, which has no handler in family 0x8 (the spec's table of R77), is a decode
error. -/
def Obligations.WordsWrittenOutDecode : Prop :=
  decodeWord 0x00E0 = .ok .cls ∧ decodeWord 0x0FEE = .ok .ret ∧ decodeWord 0x1234 = .ok (.jp 0x234) ∧
  decodeWord 0x2FFF = .ok (.call 0xFFF) ∧ decodeWord 0x3A42 = .ok (.seImm 10 0x42) ∧
  decodeWord 0x4B7F = .ok (.sneImm 11 0x7F) ∧
  decodeWord 0x5127 = .ok (.seReg 1 2) ∧ decodeWord 0x6A2B = .ok (.ldImm 10 0x2B) ∧
  decodeWord 0x7EFF = .ok (.addImm 14 0xFF) ∧
  decodeWord 0x8AB6 = .ok (.shr 10 11) ∧ decodeWord 0x8AB7 = .ok (.subn 10 11) ∧
  decodeWord 0x8ABE = .ok (.shl 10 11) ∧ decodeWord 0x93C0 = .ok (.sneReg 3 12) ∧
  decodeWord 0xA123 = .ok (.ldI 0x123) ∧ decodeWord 0xBFED = .ok (.jpV0 0xFED) ∧
  decodeWord 0xC5A7 = .ok (.rnd 5 0xA7) ∧
  decodeWord 0xD12F = .ok (.drw 1 2 15) ∧ decodeWord 0xE49E = .ok (.skp 4) ∧ decodeWord 0xF30A = .ok (.ldVxK 3) ∧
  decodeWord 0xF265 = .ok (.ldRegs 2) ∧ decodeWord 0x8008 = .error (.aluFamily 0x8008)

/-- Decoding the word of a well-formed instruction gives the instruction back, from the word and from its two bytes in
memory order, with no byte left over. -/
def Obligations.DecodeOfEncodeIsTheInstruction : Prop :=
  ∀ i : Instr, i.wellFormed = true →
    decodeWord (encode i) = .ok i ∧ decodeBytes [highByte (encode i), lowByte (encode i)] = .ok (i, [])

/-- A word that decodes to an instruction is that instruction's word, in every bit that decoding examines. -/
def Obligations.EncodeOfDecodeIsTheExaminedWord : Prop :=
  ∀ w i, decodeWord w = .ok i → i.wellFormed = true ∧ encode i = w &&& examinedBits i

/-- R84: the 34 rows. The two-level decoder and the map of masks and matches decode every word alike. -/
def Obligations.DecodingFollowsTheOpcodeMap : Prop :=
  opcodeMap.length = 34 ∧
  ∀ w i, decodeWord w = .ok i ↔ ∃ r ∈ opcodeMap, w &&& r.mask = r.value ∧ i = r.build w

/-- The spec's inference R82: every word is exactly one instruction or a decode error, no two rows match one word, families 0x0, 0x8, 0xE and
0xF have the counted instruction words, and all 4096 words of each other family are instructions. -/
def Obligations.DecodingIsTotalAndUnambiguous : Prop :=
  (∀ w, (∃ i, decodeWord w = .ok i) ∨ ∃ e, decodeWord w = .error e) ∧
  opcodeMap.Pairwise (fun r q => ∀ w, ¬ (w &&& r.mask = r.value ∧ w &&& q.mask = q.value)) ∧
  familyCount 0x0 = 32 ∧ familyCount 0x8 = 2304 ∧ familyCount 0xE = 32 ∧ familyCount 0xF = 144 ∧
  ∀ w, fieldOp w ∉ [0x0, 0x8, 0xE, 0xF] → ∃ i, decodeWord w = .ok i

/-- R76 to R79 and R81: the decode errors are exactly the words of families 0x0, 0x8, 0xE and 0xF whose sub-opcode has
no handler. -/
def Obligations.DecodeErrorsAreTheUnhandledWords : Prop :=
  ∀ w, (∃ e, decodeWord w = .error e) ↔
    (fieldOp w = 0x0 ∧ fieldNN w ∉ [(0xE0 : Byte), 0xEE]) ∨
    (fieldOp w = 0x8 ∧ fieldN w ∈ [0x8, 0x9, 0xA, 0xB, 0xC, 0xD, 0xF]) ∨
    (fieldOp w = 0xE ∧ fieldNN w ∉ [(0x9E : Byte), 0xA1]) ∨
    (fieldOp w = 0xF ∧ fieldNN w ∉ [(0x07 : Byte), 0x0A, 0x15, 0x18, 0x1E, 0x29, 0x33, 0x55, 0x65])

/-! ### The cycle (30_encoding.md R70, R71, R80; 60_exceptions.md R210 to R215) -/

/-- A step whose next command is a cycle, on a running core with pc in range, runs the instruction that the two bytes at
pc decode to, on the state with the command taken, its inputs in place, the word fetched and pc advanced by 2; then the
timer stage runs, unless the instruction faulted. The queue the command comes from is the model's own form (log entries 1 and 10). -/
def Obligations.StepRunsTheDecodedInstruction : Prop :=
  ∀ (s : State) (e : Seconds) (r : Byte) (i : Instr) (t : State), s.Runs e r →
    decodeBytes [memRead s.mem s.pc.toNat, memRead s.mem (s.pc.toNat + 1)] = .ok (i, []) →
    exec i { s with pending := s.pending.tail, rand := r, cycles := s.cycles + 1, word := s.nextWord, pc := s.pc + 2 }
      = .next t →
    i.wellFormed = true ∧ step s = .next (if t.fault = none then timerStage e t else t)

/-- R71: fetch in range gives the big-endian word at pc and advances pc by 2; a fetch with pc > 0xFFE is the fault
`FETCH_OUT_OF_RANGE` before any read, recorded with word 0, and nothing else happens. -/
def Obligations.FetchReadsBigEndianOrFaults : Prop :=
  (∀ s : State, s.pc.toNat ≤ 0xFFE →
    highByte s.fetch.word = memRead s.mem s.pc.toNat ∧ lowByte s.fetch.word = memRead s.mem (s.pc.toNat + 1) ∧
    s.fetch.pc.toNat = s.pc.toNat + 2 ∧ Frame [.pc, .word] s s.fetch) ∧
  ∀ (s : State) (e : Seconds) (r : Byte), s.nextCommand = .cycle e r → s.fault = none → s.pc.toNat > 0xFFE →
    ∃ t, step s = .next t ∧ t.fault = some ⟨.fetchOutOfRange, s.pc, 0⟩ ∧
      Frame [.fault, .rand, .pending, .cycles] s t

/-- R80: a decode error is reported with its word and address, changes no architectural state but pc, which is A + 2,
and the timer stage runs. -/
def Obligations.DecodeErrorReportsAndGoesOn : Prop :=
  ∀ (s : State) (e : Seconds) (r : Byte) (err : DecodeReject), s.Runs e r → decodeWord s.nextWord = .error err →
    ∃ u stamp, Frame [.pc, .word, .rand, .pending, .output, .cycles] s u ∧ u.pc = s.pc + 2 ∧
      u.output = s.output ++ [.diag ⟨.decodeError, s.pc, s.nextWord, stamp⟩] ∧
      step s = .next (timerStage e u)

/-- R215: a halted core ignores the cycle command, and still takes set-key, read-framebuffer and status commands. A
set-key writes its key and no other. -/
def Obligations.HaltedCoreIgnoresCycles : Prop :=
  ∀ s : State, s.Halted →
    (∀ e r, s.nextCommand = .cycle e r → ∃ t, step s = .next t ∧ Frame [.pending] s t) ∧
    (∀ k : Fin 16, ∀ pressed, s.nextCommand = .setKey k.val pressed →
      ∃ t, step s = .next t ∧ t.keyDown k.val = pressed ∧ (∀ j, j ≠ k.val → t.keyDown j = s.keyDown j) ∧
        Frame [.pending, .key] s t) ∧
    (s.nextCommand = .readFb → ∃ t, step s = .next t ∧ t.output = s.output ++ [.framebuffer s.pixels]) ∧
    (s.nextCommand = .status → ∃ t, step s = .next t ∧ t.output = s.output ++ [.status s.fault s.soundActive])

/-- R210: a cycle that faults changes no architectural state but the latch, which records the cause, the address of the
faulting word and that word (0 when none was fetched); the timer stage does not run, and later cycles do nothing. -/
def Obligations.FaultingCycleIsNullified : Prop :=
  ∀ (s t : State) (e : Seconds) (r : Byte) (f : FaultRecord), s.nextCommand = .cycle e r → s.fault = none →
    step s = .next t → t.fault = some f →
    Frame [.fault, .word, .rand, .pending, .cycles] s t ∧ f.addr = s.pc ∧
    f.word = (if f.cause = .fetchOutOfRange then 0 else s.nextWord) ∧
    ∀ e' r', perform (.cycle e' r') t = .next t

/-- R211: the four causes with their codes; a cycle latches a fault exactly when one's condition holds, with that
cause. -/
def Obligations.FaultsHappenExactlyOnTheirConditions : Prop :=
  FaultCause.fetchOutOfRange.number = 1 ∧ FaultCause.stackOverflow.number = 2 ∧
  FaultCause.memOutOfRange.number = 3 ∧ FaultCause.keyOutOfRange.number = 4 ∧
  ∀ (s t : State) (e : Seconds) (r : Byte), s.nextCommand = .cycle e r → s.fault = none → step s = .next t →
    t.fault.map FaultRecord.cause = cycleFaultCondition s

/-- The spec's inference R212: one cycle raises at most one fault or one diagnostic, never both. -/
def Obligations.AtMostOneFaultOrDiagnostic : Prop :=
  ∀ (s t : State) (e : Seconds) (r : Byte), s.nextCommand = .cycle e r → s.fault = none → step s = .next t →
    t.output = s.output ∨
    (∃ code stamp, t.output = s.output ++ [.diag ⟨code, s.pc, s.nextWord, stamp⟩]) ∧ t.fault = none

/-- Every step of the machine answers a next state: no command and no word stops it. That the spec's errors are next
states and not stops of the model is the model's reading (log entry 8). -/
def Obligations.EveryStepAnswersNext : Prop := ∀ s : State, ∃ t, step s = .next t

/-- The spec's inference R25: pc after a cycle that fetches. -/
def Obligations.PcAfterACycle : Prop :=
  ∀ (s t : State) (e : Seconds) (r : Byte), s.Runs e r → step s = .next t →
    t.pc.toNat =
      match decodeWord s.nextWord with
      | .ok i => if (faultCondition s i).isSome then s.pc.toNat else pcAfter s i
      | .error _ => s.pc.toNat + 2

/-! ### What instructions touch (10_state.md R23, R27, R28, R33, R35; 20_memory.md R54) -/

/-- The spec's inference R23, writes: an instruction changes no general register but those the table gives it. -/
def Obligations.RegistersWrittenAreThoseOfTheTable : Prop :=
  ∀ (i : Instr) (s t : State), exec i s = .next t → RegsSameExcept (writtenRegs i) s t

/-- The spec's inference R23, reads: an instruction's effect depends on no general register but those the table says it reads. Two runs that
agree on those registers agree on every other part of the state afterwards; and a register the instruction may write
ends with the same value in both, or is left as it was in both. -/
def Obligations.RegistersReadAreThoseOfTheTable : Prop :=
  ∀ (i : Instr) (s t t' : State) (regs : Vector Byte 16), (∀ r ∈ readRegs i, regs.get r = s.getV r) →
    exec i s = .next t → exec i { s with v := regs } = .next t' →
    Frame [.regs] t t' ∧
    ((∀ r ∈ writtenRegs i, t'.getV r = t.getV r) ∨
     (RegsSameExcept [] s t ∧ RegsSameExcept [] { s with v := regs } t'))

/-- Only `FX33` and `FX55` change memory, only `00E0` and `DXYN` the framebuffer, only `2NNN` a slot of the call stack,
only `2NNN` and `00EE` the stack pointer, only `ANNN`, `FX1E` and `FX29` I, only `FX15` DT and only `FX18` ST; no
instruction changes a key state, the accumulator, or the host's queue; only `00EE` reports. -/
def Obligations.EachStoreHasItsOwnWriters : Prop :=
  ∀ (i : Instr) (s t : State), exec i s = .next t →
    (SamePart s t .mem ∨ ∃ x, i = .ldB x ∨ i = .stRegs x) ∧
    (SamePart s t .fb ∨ i = .cls ∨ ∃ x y n, i = .drw x y n) ∧
    (SamePart s t .stack ∨ ∃ nnn, i = .call nnn) ∧
    (SamePart s t .sp ∨ i = .ret ∨ ∃ nnn, i = .call nnn) ∧
    (SamePart s t .index ∨ (∃ nnn, i = .ldI nnn) ∨ ∃ x, i = .addI x ∨ i = .ldF x) ∧
    (SamePart s t .dt ∨ ∃ x, i = .ldDtVx x) ∧ (SamePart s t .st ∨ ∃ x, i = .ldStVx x) ∧
    (SamePart s t .output ∨ i = .ret) ∧
    SamePart s t .key ∧ SamePart s t .acc ∧ SamePart s t .word ∧ SamePart s t .rand ∧ SamePart s t .pending ∧
    SamePart s t .cycles

/-! ### Invariants (10_state.md R42) -/

/-- The reset state meets the invariant. -/
def Obligations.ResetMeetsTheInvariant : Prop := State.reset.Inv

/-- Every step, of any command from any state that meets the invariant, keeps it. -/
def Obligations.StepKeepsTheInvariant : Prop := ∀ s t : State, s.Inv → step s = .next t → t.Inv

/-- The spec's inference R42: what holds in every state reached from reset by commands: sp at most 16, the accumulator in
[0, 1/60), pc at most 0x10FE, and a halted core whose cycles change nothing. After the listed commands the run goes on
with cycles of free inputs (log entry 2). -/
def Obligations.ReachableStatesMeetR42 : Prop :=
  ∀ (commands : List Command) (k : Nat) (t : State),
    core.run k { State.reset with pending := commands } = .next t →
    t.sp.val ≤ 16 ∧ 0 ≤ t.acc.val ∧ t.acc.val < 1 / 60 ∧ t.pc.toNat ≤ 0x10FE ∧
    (t.fault ≠ none → ∀ e r, perform (.cycle e r) t = .next t)

/-! ### Display (40_display.md) -/

/-- R100: `00E0` turns every pixel off and changes nothing else. -/
def Obligations.ClsClearsTheFramebuffer : Prop :=
  EncodedBy 0xF0FF 0x00E0 (fun _ => .cls) ∧
  ∀ s : State, ∃ t, exec .cls s = .next t ∧ (∀ px py, t.pixel px py = false) ∧ Frame [.fb] s t

/-- R101, with the XOR form of the spec's inference R103: `DXYN` XORs every sprite bit into its pixel, with toroidal wrap,
and sets VF to 1 exactly when some pixel went off, else to 0. It changes nothing else. Past the end of memory it faults
and changes nothing; that clause also speaks of terms with more than 15 rows, which no word has and to which the model
gives a meaning of its own (log entry 14). -/
def Obligations.DrwXorsTheSpriteAndSetsCollision : Prop :=
  EncodedBy 0xF000 0xD000 (fun w => .drw (fieldX w) (fieldY w) (fieldN w)) ∧
  (∀ (x y : Reg) (n : Nat) (s : State), n ≤ 15 → SpriteInMemory s n →
    ∃ t, exec (.drw x y n) s = .next t ∧
      (∀ px py, t.pixel px py = (s.pixel px py ^^ spriteBit s x y n px py)) ∧
      ((t.getV vf = 1 ∧ ∃ px py, s.pixel px py = true ∧ t.pixel px py = false) ∨
       (t.getV vf = 0 ∧ ∀ px py, s.pixel px py = true → t.pixel px py = true)) ∧
      RegsSameExcept [vf] s t ∧ Frame [.regs, .fb] s t) ∧
  ∀ (x y : Reg) (n : Nat) (s : State), ¬ SpriteInMemory s n →
    ∃ t, exec (.drw x y n) s = .next t ∧ FaultsWith .memOutOfRange s t

/-- The same sprite drawn twice at one place leaves every pixel as it was, when neither coordinate is VF; and the second
draw reports a collision exactly when the sprite has a set bit. -/
def Obligations.DrawingTwiceErases : Prop :=
  ∀ (x y : Reg) (n : Nat) (s t u : State), x ≠ vf → y ≠ vf → n ≤ 15 → SpriteInMemory s n →
    exec (.drw x y n) s = .next t → exec (.drw x y n) t = .next u →
    (∀ px py, u.pixel px py = s.pixel px py) ∧
    ((∀ px py, s.pixel px py = false) →
      (u.getV vf = 1 ↔ ∃ px py, spriteBit s x y n px py = true))

/-! ### Control transfer (41_control.md) -/

/-- R110: `00EE` takes the top slot into pc, and leaves the slot; an empty stack is reported and changes nothing. -/
def Obligations.RetPopsTheCallStack : Prop :=
  EncodedBy 0xF0FF 0x00EE (fun _ => .ret) ∧
  (∀ (s : State) (k : Fin 16), s.sp.val = k.val + 1 →
    ∃ t, exec .ret s = .next t ∧ t.sp.val = k.val ∧ t.pc = s.stack.get k ∧ Frame [.pc, .sp] s t) ∧
  ∀ s : State, s.sp = 0 →
    ∃ t stamp, exec .ret s = .next t ∧
      t.output = s.output ++ [.diag ⟨.stackUnderflow, s.pc - 2, s.word, stamp⟩] ∧ Frame [.output] s t

/-- R111 and R117: `1NNN` sets pc to NNN, `BNNN` to NNN + V0, not masked; nothing else changes. -/
def Obligations.JumpsSetPc : Prop :=
  EncodedBy 0xF000 0x1000 (fun w => .jp (fieldNNN w)) ∧ EncodedBy 0xF000 0xB000 (fun w => .jpV0 (fieldNNN w)) ∧
  ∀ (nnn : Addr12) (s : State),
    (∃ t, exec (.jp nnn) s = .next t ∧ t.pc.toNat = nnn.toNat ∧ Frame [.pc] s t) ∧
    ∃ t, exec (.jpV0 nnn) s = .next t ∧ t.pc.toNat = nnn.toNat + (s.getV 0).toNat ∧ Frame [.pc] s t

/-- R112: `2NNN` pushes pc (A + 2) into slot sp, increments sp and jumps; a full stack is a fault. -/
def Obligations.CallPushesTheReturnAddress : Prop :=
  EncodedBy 0xF000 0x2000 (fun w => .call (fieldNNN w)) ∧
  (∀ (nnn : Addr12) (s : State) (k : Fin 16), s.sp.val = k.val →
    ∃ t, exec (.call nnn) s = .next t ∧ t.stack.get k = s.pc ∧ (∀ j, j ≠ k → t.stack.get j = s.stack.get j) ∧
      t.sp.val = k.val + 1 ∧ t.pc.toNat = nnn.toNat ∧ Frame [.pc, .stack, .sp] s t) ∧
  ∀ (nnn : Addr12) (s : State), s.sp.val = 16 →
    ∃ t, exec (.call nnn) s = .next t ∧ FaultsWith .stackOverflow s t

/-- R112 (b), 90_conflicts.md C6: a call and the return that follows it restore pc to what it held as the call executed,
and sp; they change only the slot the call used. -/
def Obligations.CallThenReturnRestores : Prop :=
  ∀ (nnn : Addr12) (s t u : State), s.sp.val < 16 → exec (.call nnn) s = .next t → exec .ret t = .next u →
    u.pc = s.pc ∧ u.sp = s.sp ∧ (∀ k : Fin 16, k.val ≠ s.sp.val → u.stack.get k = s.stack.get k) ∧
    Frame [.stack] s u

/-- R113 to R116: a skip adds 2 to pc exactly when its condition holds, and changes nothing else. -/
def Obligations.SkipsOnRegisters : Prop :=
  EncodedBy 0xF000 0x3000 (fun w => .seImm (fieldX w) (fieldNN w)) ∧
  EncodedBy 0xF000 0x4000 (fun w => .sneImm (fieldX w) (fieldNN w)) ∧
  EncodedBy 0xF000 0x5000 (fun w => .seReg (fieldX w) (fieldY w)) ∧
  EncodedBy 0xF000 0x9000 (fun w => .sneReg (fieldX w) (fieldY w)) ∧
  ∀ (x y : Reg) (nn : Byte) (s : State),
    (∃ t, exec (.seImm x nn) s = .next t ∧ t.pc = (if s.getV x = nn then s.pc + 2 else s.pc) ∧ Frame [.pc] s t) ∧
    (∃ t, exec (.sneImm x nn) s = .next t ∧ t.pc = (if s.getV x = nn then s.pc else s.pc + 2) ∧ Frame [.pc] s t) ∧
    (∃ t, exec (.seReg x y) s = .next t ∧ t.pc = (if s.getV x = s.getV y then s.pc + 2 else s.pc) ∧
      Frame [.pc] s t) ∧
    ∃ t, exec (.sneReg x y) s = .next t ∧ t.pc = (if s.getV x = s.getV y then s.pc else s.pc + 2) ∧ Frame [.pc] s t

/-! ### Register loads and the ALU (42_alu.md) -/

/-- R130 and R131: `6XNN` loads NN; `7XNN` adds NN modulo 256 and writes no flag. -/
def Obligations.ImmediateLoadAndAdd : Prop :=
  EncodedBy 0xF000 0x6000 (fun w => .ldImm (fieldX w) (fieldNN w)) ∧
  EncodedBy 0xF000 0x7000 (fun w => .addImm (fieldX w) (fieldNN w)) ∧
  ∀ (x : Reg) (nn : Byte) (s : State),
    (∃ t, exec (.ldImm x nn) s = .next t ∧ t.getV x = nn ∧ RegsSameExcept [x] s t ∧ Frame [.regs] s t) ∧
    ∃ t, exec (.addImm x nn) s = .next t ∧ (t.getV x).toNat = ((s.getV x).toNat + nn.toNat) % 256 ∧
      RegsSameExcept [x] s t ∧ Frame [.regs] s t

/-- R133 to R136: copy, OR, AND and XOR, bit by bit; VF is written only as their destination. -/
def Obligations.LogicalOperations : Prop :=
  EncodedBy 0xF00F 0x8000 (fun w => .ldReg (fieldX w) (fieldY w)) ∧
  EncodedBy 0xF00F 0x8001 (fun w => .orReg (fieldX w) (fieldY w)) ∧
  EncodedBy 0xF00F 0x8002 (fun w => .andReg (fieldX w) (fieldY w)) ∧
  EncodedBy 0xF00F 0x8003 (fun w => .xorReg (fieldX w) (fieldY w)) ∧
  ∀ (x y : Reg) (s : State),
    (∃ t, exec (.ldReg x y) s = .next t ∧ t.getV x = s.getV y ∧ RegsSameExcept [x] s t ∧ Frame [.regs] s t) ∧
    (∃ t, exec (.orReg x y) s = .next t ∧
      (∀ b < 8, (t.getV x).getLsbD b = ((s.getV x).getLsbD b || (s.getV y).getLsbD b)) ∧
      RegsSameExcept [x] s t ∧ Frame [.regs] s t) ∧
    (∃ t, exec (.andReg x y) s = .next t ∧
      (∀ b < 8, (t.getV x).getLsbD b = ((s.getV x).getLsbD b && (s.getV y).getLsbD b)) ∧
      RegsSameExcept [x] s t ∧ Frame [.regs] s t) ∧
    ∃ t, exec (.xorReg x y) s = .next t ∧
      (∀ b < 8, (t.getV x).getLsbD b = ((s.getV x).getLsbD b ^^ (s.getV y).getLsbD b)) ∧
      RegsSameExcept [x] s t ∧ Frame [.regs] s t

/-- R137: `8XY4` stores the low 8 bits of the sum, then VF = 1 iff the sum exceeds 255; with X = 0xF, VF ends as the
flag. -/
def Obligations.AddSetsCarry : Prop :=
  EncodedBy 0xF00F 0x8004 (fun w => .addReg (fieldX w) (fieldY w)) ∧
  ∀ (x y : Reg) (s : State), ∃ t, exec (.addReg x y) s = .next t ∧
    (x ≠ vf → (t.getV x).toNat = ((s.getV x).toNat + (s.getV y).toNat) % 256) ∧
    (t.getV vf).toNat = (if (s.getV x).toNat + (s.getV y).toNat > 255 then 1 else 0) ∧
    RegsSameExcept [x, vf] s t ∧ Frame [.regs] s t

/-- R138: `8XY5` stores VX - VY modulo 256, then VF = 1 iff VX > VY, strictly. -/
def Obligations.SubSetsNotBorrow : Prop :=
  EncodedBy 0xF00F 0x8005 (fun w => .sub (fieldX w) (fieldY w)) ∧
  ∀ (x y : Reg) (s : State), ∃ t, exec (.sub x y) s = .next t ∧
    (x ≠ vf → ((t.getV x).toNat + (s.getV y).toNat) % 256 = (s.getV x).toNat) ∧
    (t.getV vf).toNat = (if (s.getV x).toNat > (s.getV y).toNat then 1 else 0) ∧
    RegsSameExcept [x, vf] s t ∧ Frame [.regs] s t

/-- R140: `8XY7` stores VY - VX modulo 256 into VX, then VF = 1 iff VY > VX, strictly. -/
def Obligations.SubnSetsNotBorrow : Prop :=
  EncodedBy 0xF00F 0x8007 (fun w => .subn (fieldX w) (fieldY w)) ∧
  ∀ (x y : Reg) (s : State), ∃ t, exec (.subn x y) s = .next t ∧
    (x ≠ vf → ((t.getV x).toNat + (s.getV x).toNat) % 256 = (s.getV y).toNat) ∧
    (t.getV vf).toNat = (if (s.getV y).toNat > (s.getV x).toNat then 1 else 0) ∧
    RegsSameExcept [x, vf] s t ∧ Frame [.regs] s t

/-- R139: `8XY6` shifts VX right by one, then VF = its old bit 0; Y has no effect. Under `SHIFT_SRC_VY` the source is
VY. -/
def Obligations.ShrShiftsVxRight : Prop :=
  EncodedBy 0xF00F 0x8006 (fun w => .shr (fieldX w) (fieldY w)) ∧
  (∀ (x y : Reg) (s : State), ∃ t, exec (.shr x y) s = .next t ∧
    (x ≠ vf → (t.getV x).toNat = (s.getV x).toNat / 2) ∧
    (t.getV vf).toNat = (s.getV x).toNat % 2 ∧
    RegsSameExcept [x, vf] s t ∧ Frame [.regs] s t) ∧
  ∀ (c : Config) (a b : Byte),
    (shiftRightOut c a b).1.toNat = (if c.shiftSrcVY then b else a).toNat / 2 ∧
    (shiftRightOut c a b).2 = decide ((if c.shiftSrcVY then b else a).toNat % 2 = 1)

/-- R141: `8XYE` shifts VX left by one, then VF = its old bit 7; Y has no effect. Under `SHIFT_SRC_VY` the source is
VY. -/
def Obligations.ShlShiftsVxLeft : Prop :=
  EncodedBy 0xF00F 0x800E (fun w => .shl (fieldX w) (fieldY w)) ∧
  (∀ (x y : Reg) (s : State), ∃ t, exec (.shl x y) s = .next t ∧
    (x ≠ vf → (t.getV x).toNat = (2 * (s.getV x).toNat) % 256) ∧
    (t.getV vf).toNat = (s.getV x).toNat / 128 ∧
    RegsSameExcept [x, vf] s t ∧ Frame [.regs] s t) ∧
  ∀ (c : Config) (a b : Byte),
    (shiftLeftOut c a b).1.toNat = (2 * (if c.shiftSrcVY then b else a).toNat) % 256 ∧
    (shiftLeftOut c a b).2 = decide ((if c.shiftSrcVY then b else a).toNat ≥ 128)

/-- R142: `CXNN` loads the cycle's random input masked by NN, for every value of the input. -/
def Obligations.RndMasksTheRandomInput : Prop :=
  EncodedBy 0xF000 0xC000 (fun w => .rnd (fieldX w) (fieldNN w)) ∧
  ∀ (x : Reg) (nn : Byte) (s : State), ∃ t, exec (.rnd x nn) s = .next t ∧
    (∀ b < 8, (t.getV x).getLsbD b = (s.rand.getLsbD b && nn.getLsbD b)) ∧
    RegsSameExcept [x] s t ∧ Frame [.regs] s t

/-! ### Index register and memory (43_index_memory.md) -/

/-- R150 to R152: `ANNN` loads NNN, `FX1E` adds VX modulo 65536, `FX29` loads 0x050 + 5 * VX; no flag is written. -/
def Obligations.IndexRegisterIsSet : Prop :=
  EncodedBy 0xF000 0xA000 (fun w => .ldI (fieldNNN w)) ∧ EncodedBy 0xF0FF 0xF01E (fun w => .addI (fieldX w)) ∧
  EncodedBy 0xF0FF 0xF029 (fun w => .ldF (fieldX w)) ∧
  ∀ (nnn : Addr12) (x : Reg) (s : State),
    (∃ t, exec (.ldI nnn) s = .next t ∧ t.index.toNat = nnn.toNat ∧ Frame [.index] s t) ∧
    (∃ t, exec (.addI x) s = .next t ∧ t.index.toNat = (s.index.toNat + (s.getV x).toNat) % 65536 ∧
      Frame [.index] s t) ∧
    ∃ t, exec (.ldF x) s = .next t ∧ t.index.toNat = 0x050 + 5 * (s.getV x).toNat ∧ Frame [.index] s t

/-- R153: `FX33` stores the decimal digits of VX at I, I + 1 and I + 2, and no other byte changes; past 0xFFF it faults
and stores nothing. The digits are the three below 10 that spell VX. -/
def Obligations.BcdStoresTheDigits : Prop :=
  EncodedBy 0xF0FF 0xF033 (fun w => .ldB (fieldX w)) ∧
  (∀ (x : Reg) (s : State), s.mem.wf → s.index.toNat + 2 ≤ 0xFFF →
    ∃ t, exec (.ldB x) s = .next t ∧ Frame [.mem] s t ∧ MemSameOutside (s.effAddr 0) 3 s t ∧
      (∀ k < 3, (memRead t.mem (s.effAddr k)).toNat < 10) ∧
      (memRead t.mem (s.effAddr 0)).toNat * 100 + (memRead t.mem (s.effAddr 1)).toNat * 10 +
        (memRead t.mem (s.effAddr 2)).toNat = (s.getV x).toNat) ∧
  ∀ (x : Reg) (s : State), s.index.toNat + 2 > 0xFFF →
    ∃ t, exec (.ldB x) s = .next t ∧ FaultsWith .memOutOfRange s t

/-- R154: `FX55` stores V0 to VX at I upward, and no other byte changes, nor I; past 0xFFF it faults and stores
nothing. -/
def Obligations.StoreRegistersWritesV0ToVx : Prop :=
  EncodedBy 0xF0FF 0xF055 (fun w => .stRegs (fieldX w)) ∧
  (∀ (x : Reg) (s : State), s.mem.wf → s.index.toNat + x.val ≤ 0xFFF →
    ∃ t, exec (.stRegs x) s = .next t ∧ Frame [.mem] s t ∧ MemSameOutside (s.effAddr 0) (x.val + 1) s t ∧
      ∀ r : Reg, r ≤ x → memRead t.mem (s.effAddr r.val) = s.getV r) ∧
  ∀ (x : Reg) (s : State), s.index.toNat + x.val > 0xFFF →
    ∃ t, exec (.stRegs x) s = .next t ∧ FaultsWith .memOutOfRange s t

/-- R155: `FX65` loads V0 to VX from I upward, and changes neither the registers above VX nor I; past 0xFFF it faults and
loads nothing. -/
def Obligations.LoadRegistersReadsV0ToVx : Prop :=
  EncodedBy 0xF0FF 0xF065 (fun w => .ldRegs (fieldX w)) ∧
  (∀ (x : Reg) (s : State), s.index.toNat + x.val ≤ 0xFFF →
    ∃ t, exec (.ldRegs x) s = .next t ∧ (∀ r : Reg, r ≤ x → t.getV r = memRead s.mem (s.effAddr r.val)) ∧
      (∀ r : Reg, x < r → t.getV r = s.getV r) ∧ Frame [.regs] s t) ∧
  ∀ (x : Reg) (s : State), s.index.toNat + x.val > 0xFFF →
    ∃ t, exec (.ldRegs x) s = .next t ∧ FaultsWith .memOutOfRange s t

/-- R55: a read returns the byte last written at its address; a write leaves every other address, and the canonical
form. -/
def Obligations.MemoryReadsTheByteLastWritten : Prop :=
  ∀ (m : Memory) (a : Nat) (v : Byte), m.wf →
    memRead (memWrite m a v) a = v ∧ (∀ b, b ≠ a → memRead (memWrite m a v) b = memRead m b) ∧
    (a < 0x1000 → (memWrite m a v).wf)

/-- The spec's inferences R63 and R262: each byte of the next word is, in the next cycle's fetch, the byte the cycle's
`FX55` or `FX33` stored there, or the one that was there when it stored none. The word may be overwritten in part. -/
def Obligations.StoredCodeIsFetchedNext : Prop :=
  ∀ (s t : State) (e : Seconds) (r : Byte) (x : Reg), s.Runs e r → s.mem.wf → step s = .next t →
    (decodeWord s.nextWord = .ok (.stRegs x) → s.index.toNat + x.val ≤ 0xFFF →
      t.pc.toNat = s.pc.toNat + 2 ∧
      ∀ j : Fin 2,
        (∀ k : Reg, k ≤ x → s.effAddr k.val = t.pc.toNat + j.val → t.nextByte j = s.getV k) ∧
        ((∀ k : Reg, k ≤ x → s.effAddr k.val ≠ t.pc.toNat + j.val) →
          t.nextByte j = memRead s.mem (t.pc.toNat + j.val))) ∧
    (decodeWord s.nextWord = .ok (.ldB x) → s.index.toNat + 2 ≤ 0xFFF →
      t.pc.toNat = s.pc.toNat + 2 ∧
      ∀ j : Fin 2,
        (s.effAddr 0 = t.pc.toNat + j.val → (t.nextByte j).toNat = (s.getV x).toNat / 100) ∧
        (s.effAddr 1 = t.pc.toNat + j.val → (t.nextByte j).toNat = (s.getV x).toNat / 10 % 10) ∧
        (s.effAddr 2 = t.pc.toNat + j.val → (t.nextByte j).toNat = (s.getV x).toNat % 10) ∧
        ((∀ k < 3, s.effAddr k ≠ t.pc.toNat + j.val) →
          t.nextByte j = memRead s.mem (t.pc.toNat + j.val)))

/-! ### Keys and timers (44_keys_timers.md, 60_exceptions.md R220 to R224) -/

/-- R170 and R171: the key skips test the key VX names; VX > 15 is a fault. -/
def Obligations.SkipsOnKeys : Prop :=
  EncodedBy 0xF0FF 0xE09E (fun w => .skp (fieldX w)) ∧ EncodedBy 0xF0FF 0xE0A1 (fun w => .sknp (fieldX w)) ∧
  (∀ (x : Reg) (s : State) (k : Fin 16), (s.getV x).toNat = k.val →
    (∃ t, exec (.skp x) s = .next t ∧ t.pc = (if s.key.get k then s.pc + 2 else s.pc) ∧ Frame [.pc] s t) ∧
    ∃ t, exec (.sknp x) s = .next t ∧ t.pc = (if s.key.get k then s.pc else s.pc + 2) ∧ Frame [.pc] s t) ∧
  ∀ (x : Reg) (s : State), (s.getV x).toNat > 15 →
    (∃ t, exec (.skp x) s = .next t ∧ FaultsWith .keyOutOfRange s t) ∧
    ∃ t, exec (.sknp x) s = .next t ∧ FaultsWith .keyOutOfRange s t

/-- R172: `FX0A` stores the lowest pressed key into VX; with no key pressed it sets pc back by 2 and changes nothing
else. -/
def Obligations.KeyWaitStoresTheLowestKey : Prop :=
  EncodedBy 0xF0FF 0xF00A (fun w => .ldVxK (fieldX w)) ∧
  (∀ (x : Reg) (s : State) (k : Fin 16), s.key.get k = true → (∀ j : Fin 16, j < k → s.key.get j = false) →
    ∃ t, exec (.ldVxK x) s = .next t ∧ (t.getV x).toNat = k.val ∧ RegsSameExcept [x] s t ∧ Frame [.regs] s t) ∧
  ∀ (x : Reg) (s : State), (∀ k : Fin 16, s.key.get k = false) →
    ∃ t, exec (.ldVxK x) s = .next t ∧ t.pc = s.pc - 2 ∧ Frame [.pc] s t

/-- R173 to R175: `FX07` reads DT, `FX15` writes DT, `FX18` writes ST. -/
def Obligations.TimerMoves : Prop :=
  EncodedBy 0xF0FF 0xF007 (fun w => .ldVxDt (fieldX w)) ∧ EncodedBy 0xF0FF 0xF015 (fun w => .ldDtVx (fieldX w)) ∧
  EncodedBy 0xF0FF 0xF018 (fun w => .ldStVx (fieldX w)) ∧
  ∀ (x : Reg) (s : State),
    (∃ t, exec (.ldVxDt x) s = .next t ∧ t.getV x = s.dt ∧ RegsSameExcept [x] s t ∧ Frame [.regs] s t) ∧
    (∃ t, exec (.ldDtVx x) s = .next t ∧ t.dt = s.getV x ∧ Frame [.dt] s t) ∧
    ∃ t, exec (.ldStVx x) s = .next t ∧ t.st = s.getV x ∧ Frame [.st] s t

/-- R220 and the spec's inference R221: the timer stage takes `floor((acc + elapsed) * 60)` ticks; each timer loses that many and stops at 0; the
accumulator keeps the rest, which is under 1/60 s. -/
def Obligations.TimerStageTakesTheWholeTicks : Prop :=
  ∀ (e : Seconds) (s t : State), t = timerStage e s →
    t.dt.toNat = s.dt.toNat - ticksIn (s.acc.val + e.val) ∧
    t.st.toNat = s.st.toNat - ticksIn (s.acc.val + e.val) ∧
    t.acc.val = s.acc.val + e.val - ticksIn (s.acc.val + e.val) / 60 ∧ t.acc.val < 1 / 60 ∧
    Frame [.dt, .st, .acc] s t

/-- The spec's inferences R221 (c), (d) and R223: however the elapsed time is cut into timer stages, the ticks taken are those of the whole time; from an empty
accumulator, stages that add up to exactly 1 s take exactly 60, and a timer of 60 reaches 0. -/
def Obligations.CadenceIsIndependentOfTheCycles : Prop :=
  (∀ (es : List Seconds) (s : State), s.acc.val < 1 / 60 →
    (timerStages es s).dt.toNat = s.dt.toNat - ticksIn (s.acc.val + totalSeconds es) ∧
    (timerStages es s).st.toNat = s.st.toNat - ticksIn (s.acc.val + totalSeconds es) ∧
    (timerStages es s).acc.val = s.acc.val + totalSeconds es - ticksIn (s.acc.val + totalSeconds es) / 60) ∧
  ∀ (es : List Seconds) (s : State), s.acc.val = 0 → totalSeconds es = 1 →
    (timerStages es s).dt.toNat = s.dt.toNat - 60 ∧ (timerStages es s).st.toNat = s.st.toNat - 60

/-- The spec's inference R261: a cycle of `FX07` reads DT before its own ticks, and a value written by `FX15` or `FX18` is
ticked in the same cycle. -/
def Obligations.TimerStageRunsAfterExecute : Prop :=
  ∀ (s t : State) (e : Seconds) (r : Byte) (x : Reg), s.Runs e r → step s = .next t →
    (decodeWord s.nextWord = .ok (.ldVxDt x) →
      t.getV x = s.dt ∧ t.dt.toNat = s.dt.toNat - ticksIn (s.acc.val + e.val)) ∧
    (decodeWord s.nextWord = .ok (.ldDtVx x) →
      t.dt.toNat = (s.getV x).toNat - ticksIn (s.acc.val + e.val)) ∧
    (decodeWord s.nextWord = .ok (.ldStVx x) →
      t.st.toNat = (s.getV x).toNat - ticksIn (s.acc.val + e.val))

/-! ### The host's commands (60_exceptions.md R230 to R234, 70_reset_and_hazards.md) -/

/-- R250, R251, R253: the reset state has the reset values; `RESET` from any state gives them, reports nothing, and a
second `RESET` changes nothing. -/
def Obligations.ResetGivesTheResetValues : Prop :=
  ResetValues State.reset ∧
  ∀ s : State, s.nextCommand = .reset →
    ∃ t, step s = .next t ∧ ResetValues t ∧ t.output = s.output ∧ perform .reset t = .next t

/-- R254 and the spec's inference R256: a load of at most 3584 bytes gives the reset state with the bytes from 0x200, the font at 0x050 and
0 everywhere else, and answers OK. That the memory is canonical is a clause on the model's own form (log entry 7), and so
is the clause that `word` and `rand`, which are no state of the spec, have their reset values (log entry 1). -/
def Obligations.LoadInstallsProgramAndFont : Prop :=
  ∀ (s : State) (bytes : List Byte), s.nextCommand = .load bytes → bytes.length ≤ 3584 →
    ∃ t, step s = .next t ∧
      (∀ k : Fin 80, memRead t.mem (0x050 + k.val) = hardware.font.get k) ∧
      (∀ k, (h : k < bytes.length) → memRead t.mem (0x200 + k) = bytes[k]) ∧
      (∀ a, a < 0x050 ∨ 0x0A0 ≤ a ∧ a < 0x200 ∨ 0x200 + bytes.length ≤ a → memRead t.mem a = 0) ∧
      t.mem.wf ∧ Frame [.mem, .pending, .output, .cycles] State.reset t ∧
      t.output = s.output ++ [.loaded .ok]

/-- R255: a load of more than 3584 bytes answers TOO_LARGE and leaves the reset state, with no font. With
`LOAD_RESET_ON_FAIL` false, whatever the other parameters, a load of more than `MAX_PROG_LEN` bytes changes nothing but
the answer. -/
def Obligations.LoadTooLargeResets : Prop :=
  (∀ (s : State) (bytes : List Byte), s.nextCommand = .load bytes → bytes.length > 3584 →
    ∃ t, step s = .next t ∧ ResetValues t ∧ t.output = s.output ++ [.loaded .tooLarge]) ∧
  ∀ (c : Config) (s : State) (bytes : List Byte), c.loadResetOnFail = false → bytes.length > c.maxProgLen →
    (loadCommand c bytes s).output = s.output ++ [.loaded .tooLarge] ∧ Frame [.output] s (loadCommand c bytes s)

/-- R231: `SET_KEY` writes the key state of an index 0 to 15; any other integer changes nothing. -/
def Obligations.SetKeyWritesOneKey : Prop :=
  ∀ (s : State) (k : Int) (pressed : Bool), s.nextCommand = .setKey k pressed →
    ∃ t, step s = .next t ∧ Frame [.key, .pending] s t ∧
      (∀ j : Fin 16, t.key.get j = if k = j.val then pressed else s.key.get j)

/-- R233: `READ_FB` gives the 2048 pixels in row-major order and changes nothing. -/
def Obligations.ReadFramebufferIsRowMajor : Prop :=
  ∀ s : State, s.nextCommand = .readFb →
    ∃ t pixels, step s = .next t ∧ t.output = s.output ++ [.framebuffer pixels] ∧ Frame [.pending, .output] s t ∧
      pixels.length = 2048 ∧ ∀ px py, pixels[px.val + py.val * 64]? = some (s.pixel px py)

/-- R213, R224: `STATUS` gives the fault latch and `sound_active`, which is ST != 0, and changes nothing. -/
def Obligations.StatusGivesLatchAndSound : Prop :=
  ∀ s : State, s.nextCommand = .status →
    ∃ t active, step s = .next t ∧ t.output = s.output ++ [.status s.fault active] ∧
      (active = true ↔ s.st.toNat ≠ 0) ∧ Frame [.pending, .output] s t

/-- R203: the diagnostic output is not architectural state: a step reaches the same state whatever the output holds. -/
def Obligations.OutputDoesNotInfluenceTheState : Prop :=
  ∀ (s t : State) (o : List Output), step s = .next t →
    ∃ t' added, step { s with output := o } = .next t' ∧ Frame [.output] t t' ∧
      t.output = s.output ++ added ∧ t'.output = o ++ added

/-- The spec's inference R257: after a reset with no load, each of 1792 cycles is a decode error and advances pc by 2; the next cycle faults
with `FETCH_OUT_OF_RANGE` at 0x1000. It holds for every value of the free inputs. That a step with no pending command is
a cycle is the model's choice (log entry 2). -/
def Obligations.ResetWithoutLoadRunsOffTheEnd : Prop :=
  (∀ k ≤ 1792, ∃ t, core.run k State.reset = .next t ∧ t.pc.toNat = 0x200 + 2 * k ∧ t.output.length = k ∧
    t.fault = none ∧ ∀ o ∈ t.output, ∃ d, o = .diag d ∧ d.code = .decodeError ∧ d.word = 0) ∧
  ∃ t, core.run 1793 State.reset = .next t ∧ t.fault = some ⟨.fetchOutOfRange, 0x1000, 0⟩ ∧ t.pc = 0x1000

/-- R266 (a): in the idle loop a cycle leaves every state element except DT, ST and acc unchanged, and the loop goes
on. -/
def Obligations.IdleLoopChangesOnlyTimers : Prop :=
  ∀ (s : State) (e : Seconds) (r : Byte), s.Runs e r → s.Idle →
    ∃ t, step s = .next t ∧ Frame [.dt, .st, .acc, .word, .rand, .pending, .cycles] s t ∧ t.Idle

/-- R263: a cycle of `FX0A` with no key pressed returns to the same pc and changes only the timers. -/
def Obligations.WaitingReturnsToTheSamePc : Prop :=
  ∀ (s : State) (e : Seconds) (r : Byte), s.Runs e r → s.Waiting →
    ∃ t, step s = .next t ∧ Frame [.dt, .st, .acc, .word, .rand, .pending, .cycles] s t ∧ t.Waiting

/-! ### The parameters (00_scope.md R6) -/

/-- R6: the machine that takes the parameters as an argument is, at the values of R6's table and of the model's other
parameters (log entry 5), the machine of this hardware: its decoder, its instructions, its step and its reset state. At
any values, every instruction leaves I, pc and the timers within their widths, and no register from `NUM_V` up; what a
smaller value than this hardware's means is the model's choice (log entry 17). -/
def Obligations.HardwareIsTheParametersAtTheirDefaults : Prop :=
  hardware.memSize = 4096 ∧ hardware.numV.val = 16 ∧ hardware.iWidth.val = 16 ∧ hardware.pcWidth.val = 16 ∧
  hardware.stackDepth.val = 16 ∧ hardware.timerWidth.val = 8 ∧ hardware.tickPeriod = 1 / 60 ∧
  hardware.fbW.val = 64 ∧ hardware.fbH.val = 32 ∧ hardware.numKeys.val = 16 ∧ hardware.progBase = 0x200 ∧
  hardware.fontBase = 0x050 ∧ hardware.glyphBytes = 5 ∧ hardware.maxProgLen = 3584 ∧ hardware.shiftSrcVY = false ∧
  hardware.loadResetOnFail = true ∧
  (∀ w, decodeWith hardware w = decodeWord w) ∧ (∀ i s, execWith hardware i s = exec i s) ∧
  (∀ s, stepWith hardware s = step s) ∧ State.resetWith hardware = State.reset ∧
  ∀ (c : Config) (i : Instr) (s : State), ∃ t, execWith c i s = .next t ∧
    t.index.toNat < 2 ^ c.iWidth.val ∧ t.pc.toNat < 2 ^ c.pcWidth.val ∧
    t.dt.toNat < 2 ^ c.timerWidth.val ∧ t.st.toNat < 2 ^ c.timerWidth.val ∧
    ∀ r : Reg, c.numV.val ≤ r.val → t.getV r = 0

end
end

