-- ==== Sys2Proof/Laws/Decode.lean ====
section
/-! SUPPORT. The decoder: fields as numbers, masks as sums of fields, fields of packed words, and one equation per family
of the decoder (30_encoding.md R73 to R84). -/

namespace Sys2Proof

/-! ### Fields as numbers -/

theorem fieldOp_eq (w : Word) : fieldOp w = w.toNat / 0x1000 := by
  have := w.isLt
  simp only [fieldOp, BitVec.extractLsb'_toNat, Nat.shiftRight_eq_div_pow]
  omega

theorem fieldX_eq (w : Word) : (fieldX w).val = w.toNat / 0x100 % 0x10 := by
  simp [fieldX, Nat.shiftRight_eq_div_pow]

theorem fieldY_eq (w : Word) : (fieldY w).val = w.toNat / 0x10 % 0x10 := by
  simp [fieldY, Nat.shiftRight_eq_div_pow]

theorem fieldN_eq (w : Word) : fieldN w = w.toNat % 0x10 := by
  simp [fieldN, BitVec.extractLsb'_toNat]

theorem fieldNN_eq (w : Word) : (fieldNN w).toNat = w.toNat % 0x100 := by
  simp [fieldNN, BitVec.extractLsb'_toNat]

theorem fieldNNN_eq (w : Word) : (fieldNNN w).toNat = w.toNat % 0x1000 := by
  simp [fieldNNN, BitVec.extractLsb'_toNat]

theorem fieldOp_lt (w : Word) : fieldOp w < 16 := by
  have := w.isLt
  rw [fieldOp_eq]; omega

theorem fieldN_lt (w : Word) : fieldN w < 16 := by rw [fieldN_eq]; omega

theorem highByte_eq (w : Word) : (highByte w).toNat = w.toNat / 0x100 := by
  have := w.isLt
  simp only [highByte, BitVec.extractLsb'_toNat, Nat.shiftRight_eq_div_pow]
  omega

theorem lowByte_eq (w : Word) : (lowByte w).toNat = w.toNat % 0x100 := by
  simp [lowByte, BitVec.extractLsb'_toNat]

/-- A word from its own two bytes is the word (20_memory.md R52). -/
@[simp] theorem wordOfBytes_bytes (w : Word) : wordOfBytes (highByte w) (lowByte w) = w := by
  have := w.isLt
  apply BitVec.eq_of_toNat_eq
  simp only [wordOfBytes, BitVec.toNat_ofNat, highByte_eq, lowByte_eq]
  omega

@[simp] theorem highByte_wordOfBytes (a b : Byte) : highByte (wordOfBytes a b) = a := by
  have := a.isLt; have := b.isLt
  apply BitVec.eq_of_toNat_eq
  simp only [wordOfBytes, BitVec.toNat_ofNat, highByte_eq]
  omega

@[simp] theorem lowByte_wordOfBytes (a b : Byte) : lowByte (wordOfBytes a b) = b := by
  have := a.isLt; have := b.isLt
  apply BitVec.eq_of_toNat_eq
  simp only [wordOfBytes, BitVec.toNat_ofNat, lowByte_eq]
  omega

/-! ### Masks as sums of fields -/

theorem and_F000 (w : Word) : (w &&& (0xF000 : Word)).toNat = fieldOp w * 0x1000 := by
  change (w &&& 0xF000#16).toNat = _
  have h : w &&& 0xF000#16 = w.extractLsb' 12 4 ++ 0#12 := by
    apply BitVec.eq_of_getLsbD_eq
    intro i hi
    simp only [BitVec.getLsbD_and, BitVec.getLsbD_append, BitVec.getLsbD_extractLsb']
    interval_cases i <;> simp
  rw [h, BitVec.toNat_append, ← Nat.shiftLeft_add_eq_or_of_lt (BitVec.isLt _), Nat.shiftLeft_eq]
  simp [fieldOp]

theorem and_F00F (w : Word) : (w &&& (0xF00F : Word)).toNat = fieldOp w * 0x1000 + fieldN w := by
  change (w &&& 0xF00F#16).toNat = _
  have h : w &&& 0xF00F#16 = (w.extractLsb' 12 4 ++ (0#8 ++ w.extractLsb' 0 4 : BitVec 12) : BitVec 16) := by
    apply BitVec.eq_of_getLsbD_eq
    intro i hi
    simp only [BitVec.getLsbD_and, BitVec.getLsbD_append, BitVec.getLsbD_extractLsb']
    interval_cases i <;> simp
  have hn : (0#8 ++ w.extractLsb' 0 4).toNat = fieldN w := by
    rw [BitVec.toNat_append]; simp [fieldN]
  rw [h, BitVec.toNat_append, ← Nat.shiftLeft_add_eq_or_of_lt (BitVec.isLt _), hn, Nat.shiftLeft_eq]
  rfl

theorem and_F0FF (w : Word) : (w &&& (0xF0FF : Word)).toNat = fieldOp w * 0x1000 + (fieldNN w).toNat := by
  change (w &&& 0xF0FF#16).toNat = _
  have h : w &&& 0xF0FF#16 = (w.extractLsb' 12 4 ++ (0#4 ++ w.extractLsb' 0 8 : BitVec 12) : BitVec 16) := by
    apply BitVec.eq_of_getLsbD_eq
    intro i hi
    simp only [BitVec.getLsbD_and, BitVec.getLsbD_append, BitVec.getLsbD_extractLsb']
    interval_cases i <;> simp
  have hn : (0#4 ++ w.extractLsb' 0 8).toNat = (fieldNN w).toNat := by
    rw [BitVec.toNat_append]; simp [fieldNN]
  rw [h, BitVec.toNat_append, ← Nat.shiftLeft_add_eq_or_of_lt (BitVec.isLt _), hn, Nat.shiftLeft_eq]
  rfl

/-- A mask of the operation nibble selects a family. -/
theorem select_F000 (w : Word) (op : Nat) (h : op < 16) :
    w &&& (0xF000 : Word) = BitVec.ofNat 16 (op * 0x1000) ↔ fieldOp w = op := by
  rw [← BitVec.toNat_inj, and_F000, BitVec.toNat_ofNat]; omega

/-- A mask of the operation nibble and the low nibble selects a row of family 0x8. -/
theorem select_F00F (w : Word) (op n : Nat) (h : op < 16) (hn : n < 16) :
    w &&& (0xF00F : Word) = BitVec.ofNat 16 (op * 0x1000 + n) ↔ fieldOp w = op ∧ fieldN w = n := by
  have := fieldN_lt w
  rw [← BitVec.toNat_inj, and_F00F, BitVec.toNat_ofNat]; omega

/-- A mask of the operation nibble and the low byte selects a row of family 0x0, 0xE or 0xF. -/
theorem select_F0FF (w : Word) (op nn : Nat) (h : op < 16) (hn : nn < 256) :
    w &&& (0xF0FF : Word) = BitVec.ofNat 16 (op * 0x1000 + nn) ↔ fieldOp w = op ∧ (fieldNN w).toNat = nn := by
  have := (fieldNN w).isLt
  rw [← BitVec.toNat_inj, and_F0FF, BitVec.toNat_ofNat]; omega

/-! ### Fields of packed words -/

theorem toNat_packNNN (op : Nat) (h : op < 16) (nnn : Addr12) :
    (packNNN op nnn).toNat = op * 0x1000 + nnn.toNat := by
  have := nnn.isLt
  simp only [packNNN, BitVec.toNat_ofNat]; omega

theorem toNat_packXNN (op : Nat) (h : op < 16) (x : Reg) (nn : Byte) :
    (packXNN op x nn).toNat = op * 0x1000 + x.val * 0x100 + nn.toNat := by
  have := nn.isLt; have := x.isLt
  simp only [packXNN, BitVec.toNat_ofNat]; omega

theorem toNat_packXYN (op : Nat) (h : op < 16) (x y : Reg) (n : Nat) :
    (packXYN op x y n).toNat = op * 0x1000 + x.val * 0x100 + y.val * 0x10 + n % 0x10 := by
  have := x.isLt; have := y.isLt
  simp only [packXYN, BitVec.toNat_ofNat]; omega

theorem fieldOp_packNNN (op : Nat) (h : op < 16) (nnn : Addr12) : fieldOp (packNNN op nnn) = op := by
  have := nnn.isLt
  rw [fieldOp_eq, toNat_packNNN op h]; omega

theorem fieldNNN_packNNN (op : Nat) (h : op < 16) (nnn : Addr12) : fieldNNN (packNNN op nnn) = nnn := by
  have := nnn.isLt
  apply BitVec.eq_of_toNat_eq
  rw [fieldNNN_eq, toNat_packNNN op h]; omega

theorem fieldOp_packXNN (op : Nat) (h : op < 16) (x : Reg) (nn : Byte) : fieldOp (packXNN op x nn) = op := by
  have := nn.isLt; have := x.isLt
  rw [fieldOp_eq, toNat_packXNN op h]; omega

theorem fieldX_packXNN (op : Nat) (h : op < 16) (x : Reg) (nn : Byte) : fieldX (packXNN op x nn) = x := by
  have := nn.isLt; have := x.isLt
  apply Fin.ext
  rw [fieldX_eq, toNat_packXNN op h]; omega

theorem fieldNN_packXNN (op : Nat) (h : op < 16) (x : Reg) (nn : Byte) : fieldNN (packXNN op x nn) = nn := by
  have := nn.isLt; have := x.isLt
  apply BitVec.eq_of_toNat_eq
  rw [fieldNN_eq, toNat_packXNN op h]; omega

theorem fieldOp_packXYN (op : Nat) (h : op < 16) (x y : Reg) (n : Nat) : fieldOp (packXYN op x y n) = op := by
  have := y.isLt; have := x.isLt
  rw [fieldOp_eq, toNat_packXYN op h]; omega

theorem fieldX_packXYN (op : Nat) (h : op < 16) (x y : Reg) (n : Nat) : fieldX (packXYN op x y n) = x := by
  have := y.isLt; have := x.isLt
  apply Fin.ext
  rw [fieldX_eq, toNat_packXYN op h]; omega

theorem fieldY_packXYN (op : Nat) (h : op < 16) (x y : Reg) (n : Nat) : fieldY (packXYN op x y n) = y := by
  have := y.isLt; have := x.isLt
  apply Fin.ext
  rw [fieldY_eq, toNat_packXYN op h]; omega

theorem fieldN_packXYN (op : Nat) (h : op < 16) (x y : Reg) (n : Nat) : fieldN (packXYN op x y n) = n % 16 := by
  rw [fieldN_eq, toNat_packXYN op h]; omega

/-! ### The decoder, family by family -/

/-- This hardware ignores bits 11:8 of family 0x0. -/
theorem decodeSystem_hardware (w : Word) : decodeSystem Machine.hardware w =
    match (fieldNN w).toNat with
    | 0xE0 => .ok .cls
    | 0xEE => .ok .ret
    | _ => .error (.systemFamily w) := rfl

/-- This hardware ignores bits 3:0 of families 0x5 and 0x9. -/
theorem decodeRegisterSkip_hardware (w : Word) (i : Instr) : decodeRegisterSkip Machine.hardware w i = .ok i := by
  simp [decodeRegisterSkip, Machine.hardware]

/-- The decoder of this hardware by the operation nibble. -/
theorem decodeWord_eq (w : Word) : decodeWord w =
    match fieldOp w with
    | 0x0 => decodeSystem Machine.hardware w
    | 0x1 => .ok (.jp (fieldNNN w))
    | 0x2 => .ok (.call (fieldNNN w))
    | 0x3 => .ok (.seImm (fieldX w) (fieldNN w))
    | 0x4 => .ok (.sneImm (fieldX w) (fieldNN w))
    | 0x5 => .ok (.seReg (fieldX w) (fieldY w))
    | 0x6 => .ok (.ldImm (fieldX w) (fieldNN w))
    | 0x7 => .ok (.addImm (fieldX w) (fieldNN w))
    | 0x8 => decodeAlu w
    | 0x9 => .ok (.sneReg (fieldX w) (fieldY w))
    | 0xA => .ok (.ldI (fieldNNN w))
    | 0xB => .ok (.jpV0 (fieldNNN w))
    | 0xC => .ok (.rnd (fieldX w) (fieldNN w))
    | 0xD => .ok (.drw (fieldX w) (fieldY w) (fieldN w))
    | 0xE => decodeKey w
    | _ => decodeMisc w := rfl

end Sys2Proof
end

