-- ==== Sys2Proof/Laws/State.lean ====
section
/-! SUPPORT. What each update of the state leaves in each field, true by `rfl`: one lemma a field. Then reading a
register, a pixel or a key after an update, and equality of two states. -/

namespace Sys2Proof.Machine

/-! ### The parameters of this hardware (00_scope.md R6)

Each proof is `(rfl)` and not `rfl`: a rewrite then renews the decision procedure of a condition it changes. -/

@[simp] theorem hardware_memSize : hardware.memSize = 0x1000 := (rfl)
@[simp] theorem hardware_numV : hardware.numV = 16 := (rfl)
@[simp] theorem hardware_iWidth : hardware.iWidth = 16 := (rfl)
@[simp] theorem hardware_pcWidth : hardware.pcWidth = 16 := (rfl)
@[simp] theorem hardware_timerWidth : hardware.timerWidth = 8 := (rfl)
@[simp] theorem hardware_stackDepth : hardware.stackDepth = 16 := (rfl)
@[simp] theorem hardware_tickPeriod : hardware.tickPeriod = 1 / 60 := (rfl)
@[simp] theorem hardware_fbW : hardware.fbW = 64 := (rfl)
@[simp] theorem hardware_fbH : hardware.fbH = 32 := (rfl)
@[simp] theorem hardware_numKeys : hardware.numKeys = 16 := (rfl)
@[simp] theorem hardware_progBase : hardware.progBase = 0x200 := (rfl)
@[simp] theorem hardware_fontBase : hardware.fontBase = 0x050 := (rfl)
@[simp] theorem hardware_glyphBytes : hardware.glyphBytes = 5 := (rfl)
@[simp] theorem hardware_maxProgLen : hardware.maxProgLen = 3584 := (rfl)
@[simp] theorem hardware_shiftSrcVY : hardware.shiftSrcVY = false := (rfl)
@[simp] theorem hardware_loadResetOnFail : hardware.loadResetOnFail = true := (rfl)

/-- On this hardware a register holds whatever is written to it. -/
@[simp] theorem keep_hardware (s : State) : s.keep hardware = s := rfl

@[simp] theorem keep_index (c : Config) (s : State) : (s.keep c).index = lowBits c.iWidth.val s.index := rfl
@[simp] theorem keep_pc (c : Config) (s : State) : (s.keep c).pc = lowBits c.pcWidth.val s.pc := rfl
@[simp] theorem keep_stack (c : Config) (s : State) : (s.keep c).stack = s.stack := rfl
@[simp] theorem keep_sp (c : Config) (s : State) : (s.keep c).sp = s.sp := rfl
@[simp] theorem keep_dt (c : Config) (s : State) : (s.keep c).dt = lowBits c.timerWidth.val s.dt := rfl
@[simp] theorem keep_st (c : Config) (s : State) : (s.keep c).st = lowBits c.timerWidth.val s.st := rfl
@[simp] theorem keep_mem (c : Config) (s : State) : (s.keep c).mem = s.mem := rfl
@[simp] theorem keep_fb (c : Config) (s : State) : (s.keep c).fb = s.fb := rfl
@[simp] theorem keep_key (c : Config) (s : State) : (s.keep c).key = s.key := rfl
@[simp] theorem keep_acc (c : Config) (s : State) : (s.keep c).acc = s.acc := rfl
@[simp] theorem keep_fault (c : Config) (s : State) : (s.keep c).fault = s.fault := rfl
@[simp] theorem keep_word (c : Config) (s : State) : (s.keep c).word = s.word := rfl
@[simp] theorem keep_rand (c : Config) (s : State) : (s.keep c).rand = s.rand := rfl
@[simp] theorem keep_pending (c : Config) (s : State) : (s.keep c).pending = s.pending := rfl
@[simp] theorem keep_output (c : Config) (s : State) : (s.keep c).output = s.output := rfl
@[simp] theorem keep_cycles (c : Config) (s : State) : (s.keep c).cycles = s.cycles := rfl

@[simp] theorem wordAddr_hardware (s : State) : s.wordAddr hardware = s.pc - 2 := rfl

/-! ### The reset state (70_reset_and_hazards.md R251) -/

@[simp] theorem reset_v : State.reset.v = Vector.replicate 16 0 := rfl
@[simp] theorem reset_index : State.reset.index = 0 := rfl
@[simp] theorem reset_pc : State.reset.pc = 0x200 := rfl
@[simp] theorem reset_stack : State.reset.stack = Vector.replicate 16 0 := rfl
@[simp] theorem reset_sp : State.reset.sp = 0 := rfl
@[simp] theorem reset_dt : State.reset.dt = 0 := rfl
@[simp] theorem reset_st : State.reset.st = 0 := rfl
@[simp] theorem reset_mem : State.reset.mem = [] := rfl
@[simp] theorem reset_fb : State.reset.fb = Vector.replicate 32 (Vector.replicate 64 false) := rfl
@[simp] theorem reset_key : State.reset.key = Vector.replicate 16 false := rfl
@[simp] theorem reset_acc : State.reset.acc = Seconds.zero := rfl
@[simp] theorem reset_fault : State.reset.fault = none := rfl
@[simp] theorem reset_word : State.reset.word = 0 := rfl
@[simp] theorem reset_rand : State.reset.rand = 0 := rfl
@[simp] theorem reset_pending : State.reset.pending = [] := rfl
@[simp] theorem reset_output : State.reset.output = [] := rfl
@[simp] theorem reset_cycles : State.reset.cycles = 0 := rfl

/-! ### setV -/

@[simp] theorem setV_v (s : State) (r : Reg) (b : Byte) : (s.setV r b).v = s.v.set r.val b r.isLt := rfl
@[simp] theorem setV_index (s : State) (r : Reg) (b : Byte) : (s.setV r b).index = s.index := rfl
@[simp] theorem setV_pc (s : State) (r : Reg) (b : Byte) : (s.setV r b).pc = s.pc := rfl
@[simp] theorem setV_stack (s : State) (r : Reg) (b : Byte) : (s.setV r b).stack = s.stack := rfl
@[simp] theorem setV_sp (s : State) (r : Reg) (b : Byte) : (s.setV r b).sp = s.sp := rfl
@[simp] theorem setV_dt (s : State) (r : Reg) (b : Byte) : (s.setV r b).dt = s.dt := rfl
@[simp] theorem setV_st (s : State) (r : Reg) (b : Byte) : (s.setV r b).st = s.st := rfl
@[simp] theorem setV_mem (s : State) (r : Reg) (b : Byte) : (s.setV r b).mem = s.mem := rfl
@[simp] theorem setV_fb (s : State) (r : Reg) (b : Byte) : (s.setV r b).fb = s.fb := rfl
@[simp] theorem setV_key (s : State) (r : Reg) (b : Byte) : (s.setV r b).key = s.key := rfl
@[simp] theorem setV_acc (s : State) (r : Reg) (b : Byte) : (s.setV r b).acc = s.acc := rfl
@[simp] theorem setV_fault (s : State) (r : Reg) (b : Byte) : (s.setV r b).fault = s.fault := rfl
@[simp] theorem setV_word (s : State) (r : Reg) (b : Byte) : (s.setV r b).word = s.word := rfl
@[simp] theorem setV_rand (s : State) (r : Reg) (b : Byte) : (s.setV r b).rand = s.rand := rfl
@[simp] theorem setV_pending (s : State) (r : Reg) (b : Byte) : (s.setV r b).pending = s.pending := rfl
@[simp] theorem setV_output (s : State) (r : Reg) (b : Byte) : (s.setV r b).output = s.output := rfl
@[simp] theorem setV_cycles (s : State) (r : Reg) (b : Byte) : (s.setV r b).cycles = s.cycles := rfl

@[simp] theorem setV_pixel (s : State) (r : Reg) (b : Byte) (qx : Fin 64) (qy : Fin 32) : (s.setV r b).pixel qx qy = s.pixel qx qy := rfl

@[simp] theorem setV_keyDown (s : State) (r : Reg) (b : Byte) (q : Nat) : (s.setV r b).keyDown q = s.keyDown q := rfl

/-! ### setPixel -/

@[simp] theorem setPixel_v (s : State) (px : Fin 64) (py : Fin 32) (on : Bool) : (s.setPixel px py on).v = s.v := rfl
@[simp] theorem setPixel_index (s : State) (px : Fin 64) (py : Fin 32) (on : Bool) : (s.setPixel px py on).index = s.index := rfl
@[simp] theorem setPixel_pc (s : State) (px : Fin 64) (py : Fin 32) (on : Bool) : (s.setPixel px py on).pc = s.pc := rfl
@[simp] theorem setPixel_stack (s : State) (px : Fin 64) (py : Fin 32) (on : Bool) : (s.setPixel px py on).stack = s.stack := rfl
@[simp] theorem setPixel_sp (s : State) (px : Fin 64) (py : Fin 32) (on : Bool) : (s.setPixel px py on).sp = s.sp := rfl
@[simp] theorem setPixel_dt (s : State) (px : Fin 64) (py : Fin 32) (on : Bool) : (s.setPixel px py on).dt = s.dt := rfl
@[simp] theorem setPixel_st (s : State) (px : Fin 64) (py : Fin 32) (on : Bool) : (s.setPixel px py on).st = s.st := rfl
@[simp] theorem setPixel_mem (s : State) (px : Fin 64) (py : Fin 32) (on : Bool) : (s.setPixel px py on).mem = s.mem := rfl
@[simp] theorem setPixel_fb (s : State) (px : Fin 64) (py : Fin 32) (on : Bool) : (s.setPixel px py on).fb = s.fb.set py.val ((s.fb.get py).set px.val on px.isLt) py.isLt := rfl
@[simp] theorem setPixel_key (s : State) (px : Fin 64) (py : Fin 32) (on : Bool) : (s.setPixel px py on).key = s.key := rfl
@[simp] theorem setPixel_acc (s : State) (px : Fin 64) (py : Fin 32) (on : Bool) : (s.setPixel px py on).acc = s.acc := rfl
@[simp] theorem setPixel_fault (s : State) (px : Fin 64) (py : Fin 32) (on : Bool) : (s.setPixel px py on).fault = s.fault := rfl
@[simp] theorem setPixel_word (s : State) (px : Fin 64) (py : Fin 32) (on : Bool) : (s.setPixel px py on).word = s.word := rfl
@[simp] theorem setPixel_rand (s : State) (px : Fin 64) (py : Fin 32) (on : Bool) : (s.setPixel px py on).rand = s.rand := rfl
@[simp] theorem setPixel_pending (s : State) (px : Fin 64) (py : Fin 32) (on : Bool) : (s.setPixel px py on).pending = s.pending := rfl
@[simp] theorem setPixel_output (s : State) (px : Fin 64) (py : Fin 32) (on : Bool) : (s.setPixel px py on).output = s.output := rfl
@[simp] theorem setPixel_cycles (s : State) (px : Fin 64) (py : Fin 32) (on : Bool) : (s.setPixel px py on).cycles = s.cycles := rfl

@[simp] theorem setPixel_getV (s : State) (px : Fin 64) (py : Fin 32) (on : Bool) (q : Reg) : (s.setPixel px py on).getV q = s.getV q := rfl

@[simp] theorem setPixel_keyDown (s : State) (px : Fin 64) (py : Fin 32) (on : Bool) (q : Nat) : (s.setPixel px py on).keyDown q = s.keyDown q := rfl

/-! ### jumpTo -/

@[simp] theorem jumpTo_v (s : State) (p : Word) : (s.jumpTo p).v = s.v := rfl
@[simp] theorem jumpTo_index (s : State) (p : Word) : (s.jumpTo p).index = s.index := rfl
@[simp] theorem jumpTo_pc (s : State) (p : Word) : (s.jumpTo p).pc = p := rfl
@[simp] theorem jumpTo_stack (s : State) (p : Word) : (s.jumpTo p).stack = s.stack := rfl
@[simp] theorem jumpTo_sp (s : State) (p : Word) : (s.jumpTo p).sp = s.sp := rfl
@[simp] theorem jumpTo_dt (s : State) (p : Word) : (s.jumpTo p).dt = s.dt := rfl
@[simp] theorem jumpTo_st (s : State) (p : Word) : (s.jumpTo p).st = s.st := rfl
@[simp] theorem jumpTo_mem (s : State) (p : Word) : (s.jumpTo p).mem = s.mem := rfl
@[simp] theorem jumpTo_fb (s : State) (p : Word) : (s.jumpTo p).fb = s.fb := rfl
@[simp] theorem jumpTo_key (s : State) (p : Word) : (s.jumpTo p).key = s.key := rfl
@[simp] theorem jumpTo_acc (s : State) (p : Word) : (s.jumpTo p).acc = s.acc := rfl
@[simp] theorem jumpTo_fault (s : State) (p : Word) : (s.jumpTo p).fault = s.fault := rfl
@[simp] theorem jumpTo_word (s : State) (p : Word) : (s.jumpTo p).word = s.word := rfl
@[simp] theorem jumpTo_rand (s : State) (p : Word) : (s.jumpTo p).rand = s.rand := rfl
@[simp] theorem jumpTo_pending (s : State) (p : Word) : (s.jumpTo p).pending = s.pending := rfl
@[simp] theorem jumpTo_output (s : State) (p : Word) : (s.jumpTo p).output = s.output := rfl
@[simp] theorem jumpTo_cycles (s : State) (p : Word) : (s.jumpTo p).cycles = s.cycles := rfl

@[simp] theorem jumpTo_getV (s : State) (p : Word) (q : Reg) : (s.jumpTo p).getV q = s.getV q := rfl

@[simp] theorem jumpTo_pixel (s : State) (p : Word) (qx : Fin 64) (qy : Fin 32) : (s.jumpTo p).pixel qx qy = s.pixel qx qy := rfl

@[simp] theorem jumpTo_keyDown (s : State) (p : Word) (q : Nat) : (s.jumpTo p).keyDown q = s.keyDown q := rfl

/-! ### emit -/

@[simp] theorem emit_v (s : State) (o : Output) : (s.emit o).v = s.v := rfl
@[simp] theorem emit_index (s : State) (o : Output) : (s.emit o).index = s.index := rfl
@[simp] theorem emit_pc (s : State) (o : Output) : (s.emit o).pc = s.pc := rfl
@[simp] theorem emit_stack (s : State) (o : Output) : (s.emit o).stack = s.stack := rfl
@[simp] theorem emit_sp (s : State) (o : Output) : (s.emit o).sp = s.sp := rfl
@[simp] theorem emit_dt (s : State) (o : Output) : (s.emit o).dt = s.dt := rfl
@[simp] theorem emit_st (s : State) (o : Output) : (s.emit o).st = s.st := rfl
@[simp] theorem emit_mem (s : State) (o : Output) : (s.emit o).mem = s.mem := rfl
@[simp] theorem emit_fb (s : State) (o : Output) : (s.emit o).fb = s.fb := rfl
@[simp] theorem emit_key (s : State) (o : Output) : (s.emit o).key = s.key := rfl
@[simp] theorem emit_acc (s : State) (o : Output) : (s.emit o).acc = s.acc := rfl
@[simp] theorem emit_fault (s : State) (o : Output) : (s.emit o).fault = s.fault := rfl
@[simp] theorem emit_word (s : State) (o : Output) : (s.emit o).word = s.word := rfl
@[simp] theorem emit_rand (s : State) (o : Output) : (s.emit o).rand = s.rand := rfl
@[simp] theorem emit_pending (s : State) (o : Output) : (s.emit o).pending = s.pending := rfl
@[simp] theorem emit_output (s : State) (o : Output) : (s.emit o).output = s.output ++ [o] := rfl
@[simp] theorem emit_cycles (s : State) (o : Output) : (s.emit o).cycles = s.cycles := rfl

@[simp] theorem emit_getV (s : State) (o : Output) (q : Reg) : (s.emit o).getV q = s.getV q := rfl

@[simp] theorem emit_pixel (s : State) (o : Output) (qx : Fin 64) (qy : Fin 32) : (s.emit o).pixel qx qy = s.pixel qx qy := rfl

@[simp] theorem emit_keyDown (s : State) (o : Output) (q : Nat) : (s.emit o).keyDown q = s.keyDown q := rfl

/-! ### latchFault -/

@[simp] theorem latchFault_v (s : State) (c : FaultCause) (a w : Word) : (s.latchFault c a w).v = s.v := rfl
@[simp] theorem latchFault_index (s : State) (c : FaultCause) (a w : Word) : (s.latchFault c a w).index = s.index := rfl
@[simp] theorem latchFault_pc (s : State) (c : FaultCause) (a w : Word) : (s.latchFault c a w).pc = a := rfl
@[simp] theorem latchFault_stack (s : State) (c : FaultCause) (a w : Word) : (s.latchFault c a w).stack = s.stack := rfl
@[simp] theorem latchFault_sp (s : State) (c : FaultCause) (a w : Word) : (s.latchFault c a w).sp = s.sp := rfl
@[simp] theorem latchFault_dt (s : State) (c : FaultCause) (a w : Word) : (s.latchFault c a w).dt = s.dt := rfl
@[simp] theorem latchFault_st (s : State) (c : FaultCause) (a w : Word) : (s.latchFault c a w).st = s.st := rfl
@[simp] theorem latchFault_mem (s : State) (c : FaultCause) (a w : Word) : (s.latchFault c a w).mem = s.mem := rfl
@[simp] theorem latchFault_fb (s : State) (c : FaultCause) (a w : Word) : (s.latchFault c a w).fb = s.fb := rfl
@[simp] theorem latchFault_key (s : State) (c : FaultCause) (a w : Word) : (s.latchFault c a w).key = s.key := rfl
@[simp] theorem latchFault_acc (s : State) (c : FaultCause) (a w : Word) : (s.latchFault c a w).acc = s.acc := rfl
@[simp] theorem latchFault_fault (s : State) (c : FaultCause) (a w : Word) : (s.latchFault c a w).fault = some ⟨c, a, w⟩ := rfl
@[simp] theorem latchFault_word (s : State) (c : FaultCause) (a w : Word) : (s.latchFault c a w).word = s.word := rfl
@[simp] theorem latchFault_rand (s : State) (c : FaultCause) (a w : Word) : (s.latchFault c a w).rand = s.rand := rfl
@[simp] theorem latchFault_pending (s : State) (c : FaultCause) (a w : Word) : (s.latchFault c a w).pending = s.pending := rfl
@[simp] theorem latchFault_output (s : State) (c : FaultCause) (a w : Word) : (s.latchFault c a w).output = s.output := rfl
@[simp] theorem latchFault_cycles (s : State) (c : FaultCause) (a w : Word) : (s.latchFault c a w).cycles = s.cycles := rfl

@[simp] theorem latchFault_getV (s : State) (c : FaultCause) (a w : Word) (q : Reg) : (s.latchFault c a w).getV q = s.getV q := rfl

@[simp] theorem latchFault_pixel (s : State) (c : FaultCause) (a w : Word) (qx : Fin 64) (qy : Fin 32) : (s.latchFault c a w).pixel qx qy = s.pixel qx qy := rfl

@[simp] theorem latchFault_keyDown (s : State) (c : FaultCause) (a w : Word) (q : Nat) : (s.latchFault c a w).keyDown q = s.keyDown q := rfl

/-! ### beginCycle -/

@[simp] theorem beginCycle_v (s : State) (r : Byte) : (s.beginCycle r).v = s.v := rfl
@[simp] theorem beginCycle_index (s : State) (r : Byte) : (s.beginCycle r).index = s.index := rfl
@[simp] theorem beginCycle_pc (s : State) (r : Byte) : (s.beginCycle r).pc = s.pc := rfl
@[simp] theorem beginCycle_stack (s : State) (r : Byte) : (s.beginCycle r).stack = s.stack := rfl
@[simp] theorem beginCycle_sp (s : State) (r : Byte) : (s.beginCycle r).sp = s.sp := rfl
@[simp] theorem beginCycle_dt (s : State) (r : Byte) : (s.beginCycle r).dt = s.dt := rfl
@[simp] theorem beginCycle_st (s : State) (r : Byte) : (s.beginCycle r).st = s.st := rfl
@[simp] theorem beginCycle_mem (s : State) (r : Byte) : (s.beginCycle r).mem = s.mem := rfl
@[simp] theorem beginCycle_fb (s : State) (r : Byte) : (s.beginCycle r).fb = s.fb := rfl
@[simp] theorem beginCycle_key (s : State) (r : Byte) : (s.beginCycle r).key = s.key := rfl
@[simp] theorem beginCycle_acc (s : State) (r : Byte) : (s.beginCycle r).acc = s.acc := rfl
@[simp] theorem beginCycle_fault (s : State) (r : Byte) : (s.beginCycle r).fault = s.fault := rfl
@[simp] theorem beginCycle_word (s : State) (r : Byte) : (s.beginCycle r).word = s.word := rfl
@[simp] theorem beginCycle_rand (s : State) (r : Byte) : (s.beginCycle r).rand = r := rfl
@[simp] theorem beginCycle_pending (s : State) (r : Byte) : (s.beginCycle r).pending = s.pending := rfl
@[simp] theorem beginCycle_output (s : State) (r : Byte) : (s.beginCycle r).output = s.output := rfl
@[simp] theorem beginCycle_cycles (s : State) (r : Byte) : (s.beginCycle r).cycles = s.cycles + 1 := rfl

@[simp] theorem beginCycle_getV (s : State) (r : Byte) (q : Reg) : (s.beginCycle r).getV q = s.getV q := rfl

@[simp] theorem beginCycle_pixel (s : State) (r : Byte) (qx : Fin 64) (qy : Fin 32) : (s.beginCycle r).pixel qx qy = s.pixel qx qy := rfl

@[simp] theorem beginCycle_keyDown (s : State) (r : Byte) (q : Nat) : (s.beginCycle r).keyDown q = s.keyDown q := rfl

/-! ### fetch -/

@[simp] theorem fetch_v (s : State) : (s.fetch).v = s.v := rfl
@[simp] theorem fetch_index (s : State) : (s.fetch).index = s.index := rfl
@[simp] theorem fetch_pc (s : State) : (s.fetch).pc = s.pc + 2 := rfl
@[simp] theorem fetch_stack (s : State) : (s.fetch).stack = s.stack := rfl
@[simp] theorem fetch_sp (s : State) : (s.fetch).sp = s.sp := rfl
@[simp] theorem fetch_dt (s : State) : (s.fetch).dt = s.dt := rfl
@[simp] theorem fetch_st (s : State) : (s.fetch).st = s.st := rfl
@[simp] theorem fetch_mem (s : State) : (s.fetch).mem = s.mem := rfl
@[simp] theorem fetch_fb (s : State) : (s.fetch).fb = s.fb := rfl
@[simp] theorem fetch_key (s : State) : (s.fetch).key = s.key := rfl
@[simp] theorem fetch_acc (s : State) : (s.fetch).acc = s.acc := rfl
@[simp] theorem fetch_fault (s : State) : (s.fetch).fault = s.fault := rfl
@[simp] theorem fetch_word (s : State) : (s.fetch).word = s.nextWord := rfl
@[simp] theorem fetch_rand (s : State) : (s.fetch).rand = s.rand := rfl
@[simp] theorem fetch_pending (s : State) : (s.fetch).pending = s.pending := rfl
@[simp] theorem fetch_output (s : State) : (s.fetch).output = s.output := rfl
@[simp] theorem fetch_cycles (s : State) : (s.fetch).cycles = s.cycles := rfl

@[simp] theorem fetch_getV (s : State) (q : Reg) : (s.fetch).getV q = s.getV q := rfl

@[simp] theorem fetch_pixel (s : State) (qx : Fin 64) (qy : Fin 32) : (s.fetch).pixel qx qy = s.pixel qx qy := rfl

@[simp] theorem fetch_keyDown (s : State) (q : Nat) : (s.fetch).keyDown q = s.keyDown q := rfl

/-! ### takeCommand -/

@[simp] theorem takeCommand_v (s : State) : (s.takeCommand).v = s.v := rfl
@[simp] theorem takeCommand_index (s : State) : (s.takeCommand).index = s.index := rfl
@[simp] theorem takeCommand_pc (s : State) : (s.takeCommand).pc = s.pc := rfl
@[simp] theorem takeCommand_stack (s : State) : (s.takeCommand).stack = s.stack := rfl
@[simp] theorem takeCommand_sp (s : State) : (s.takeCommand).sp = s.sp := rfl
@[simp] theorem takeCommand_dt (s : State) : (s.takeCommand).dt = s.dt := rfl
@[simp] theorem takeCommand_st (s : State) : (s.takeCommand).st = s.st := rfl
@[simp] theorem takeCommand_mem (s : State) : (s.takeCommand).mem = s.mem := rfl
@[simp] theorem takeCommand_fb (s : State) : (s.takeCommand).fb = s.fb := rfl
@[simp] theorem takeCommand_key (s : State) : (s.takeCommand).key = s.key := rfl
@[simp] theorem takeCommand_acc (s : State) : (s.takeCommand).acc = s.acc := rfl
@[simp] theorem takeCommand_fault (s : State) : (s.takeCommand).fault = s.fault := rfl
@[simp] theorem takeCommand_word (s : State) : (s.takeCommand).word = s.word := rfl
@[simp] theorem takeCommand_rand (s : State) : (s.takeCommand).rand = s.rand := rfl
@[simp] theorem takeCommand_pending (s : State) : (s.takeCommand).pending = s.pending.tail := rfl
@[simp] theorem takeCommand_output (s : State) : (s.takeCommand).output = s.output := rfl
@[simp] theorem takeCommand_cycles (s : State) : (s.takeCommand).cycles = s.cycles := rfl

@[simp] theorem takeCommand_getV (s : State) (q : Reg) : (s.takeCommand).getV q = s.getV q := rfl

@[simp] theorem takeCommand_pixel (s : State) (qx : Fin 64) (qy : Fin 32) : (s.takeCommand).pixel qx qy = s.pixel qx qy := rfl

@[simp] theorem takeCommand_keyDown (s : State) (q : Nat) : (s.takeCommand).keyDown q = s.keyDown q := rfl

/-! ### timerStage -/

@[simp] theorem timerStage_v (s : State) (e : Seconds) : (timerStage e s).v = s.v := rfl
@[simp] theorem timerStage_index (s : State) (e : Seconds) : (timerStage e s).index = s.index := rfl
@[simp] theorem timerStage_pc (s : State) (e : Seconds) : (timerStage e s).pc = s.pc := rfl
@[simp] theorem timerStage_stack (s : State) (e : Seconds) : (timerStage e s).stack = s.stack := rfl
@[simp] theorem timerStage_sp (s : State) (e : Seconds) : (timerStage e s).sp = s.sp := rfl
@[simp] theorem timerStage_dt (s : State) (e : Seconds) : (timerStage e s).dt = (ticked hardware e s).dt := rfl
@[simp] theorem timerStage_st (s : State) (e : Seconds) : (timerStage e s).st = (ticked hardware e s).st := rfl
@[simp] theorem timerStage_mem (s : State) (e : Seconds) : (timerStage e s).mem = s.mem := rfl
@[simp] theorem timerStage_fb (s : State) (e : Seconds) : (timerStage e s).fb = s.fb := rfl
@[simp] theorem timerStage_key (s : State) (e : Seconds) : (timerStage e s).key = s.key := rfl
@[simp] theorem timerStage_acc (s : State) (e : Seconds) : (timerStage e s).acc = (ticked hardware e s).acc := rfl
@[simp] theorem timerStage_fault (s : State) (e : Seconds) : (timerStage e s).fault = s.fault := rfl
@[simp] theorem timerStage_word (s : State) (e : Seconds) : (timerStage e s).word = s.word := rfl
@[simp] theorem timerStage_rand (s : State) (e : Seconds) : (timerStage e s).rand = s.rand := rfl
@[simp] theorem timerStage_pending (s : State) (e : Seconds) : (timerStage e s).pending = s.pending := rfl
@[simp] theorem timerStage_output (s : State) (e : Seconds) : (timerStage e s).output = s.output := rfl
@[simp] theorem timerStage_cycles (s : State) (e : Seconds) : (timerStage e s).cycles = s.cycles := rfl

@[simp] theorem timerStage_getV (s : State) (e : Seconds) (q : Reg) : (timerStage e s).getV q = s.getV q := rfl

@[simp] theorem timerStage_pixel (s : State) (e : Seconds) (qx : Fin 64) (qy : Fin 32) : (timerStage e s).pixel qx qy = s.pixel qx qy := rfl

@[simp] theorem timerStage_keyDown (s : State) (e : Seconds) (q : Nat) : (timerStage e s).keyDown q = s.keyDown q := rfl

/-! ### Reading back -/

/-- A register read after a register write. -/
@[simp] theorem getV_setV (s : State) (r q : Reg) (b : Byte) :
    (s.setV r b).getV q = if q = r then b else s.getV q := by
  unfold State.getV State.setV
  simp only [Vector.get_eq_getElem, Vector.getElem_set]
  by_cases h : q = r
  · subst h; simp
  · have h' : r.val ≠ q.val := fun e => h (Fin.ext e.symm)
    simp [h, h']

/-- A pixel read after a pixel write. -/
@[simp] theorem pixel_setPixel (s : State) (px qx : Fin 64) (py qy : Fin 32) (on : Bool) :
    (s.setPixel px py on).pixel qx qy = if qx = px ∧ qy = py then on else s.pixel qx qy := by
  unfold State.pixel State.setPixel
  simp only [Vector.get_eq_getElem, Vector.getElem_set]
  by_cases hy : qy = py
  · subst hy
    by_cases hx : qx = px
    · subst hx; simp
    · have h' : px.val ≠ qx.val := fun e => hx (Fin.ext e.symm)
      simp [hx, h']
  · have h' : py.val ≠ qy.val := fun e => hy (Fin.ext e.symm)
    simp [hy, h']

/-- A key state, read through the accessor. -/
theorem keyDown_eq (s : State) (k : Fin 16) : s.keyDown k.val = s.key.get k := by
  simp [State.keyDown, Vector.get_eq_getElem]

/-- There is no key above 15. -/
theorem keyDown_of_ge (s : State) (k : Nat) (h : 16 ≤ k) : s.keyDown k = false := by
  simp [State.keyDown, Nat.not_lt.mpr h]

/-- Equal key vectors give equal key states. -/
theorem keyDown_congr {s t : State} (h : t.key = s.key) (k : Nat) : t.keyDown k = s.keyDown k := by
  simp [State.keyDown, h]

/-- Equal register vectors give equal registers. -/
theorem getV_congr {s t : State} (h : t.v = s.v) (r : Reg) : t.getV r = s.getV r := by simp [State.getV, h]

/-- Equal framebuffers give equal pixels. -/
theorem pixel_congr {s t : State} (h : t.fb = s.fb) (px : Fin 64) (py : Fin 32) : t.pixel px py = s.pixel px py := by
  simp [State.pixel, h]

/-- A frame from equalities of fields: it is enough that every part not named has equal fields. -/
theorem SamePart.of_eq {s t : State} {p : Part}
    (h : match p with
      | .regs => t.v = s.v | .index => t.index = s.index | .pc => t.pc = s.pc | .stack => t.stack = s.stack
      | .sp => t.sp = s.sp | .dt => t.dt = s.dt | .st => t.st = s.st | .mem => t.mem = s.mem | .fb => t.fb = s.fb
      | .key => t.key = s.key | .acc => t.acc = s.acc | .fault => t.fault = s.fault | .word => t.word = s.word
      | .rand => t.rand = s.rand | .pending => t.pending = s.pending | .output => t.output = s.output
      | .cycles => t.cycles = s.cycles) : SamePart s t p := by
  cases p <;> simp only at h <;>
    first
      | exact h
      | exact fun r => getV_congr h r
      | exact fun k => by rw [h]
      | exact fun px py => pixel_congr h px py
      | exact fun k => keyDown_congr h k

/-- Frames compose. -/
theorem Frame.trans {ps : List Part} {s t u : State} (h1 : Frame ps s t) (h2 : Frame ps t u) : Frame ps s u := by
  intro p hp
  have a := h1 p hp
  have b := h2 p hp
  cases p <;> simp only [SamePart] at a b ⊢ <;> intros <;> simp_all

/-- A frame may name more parts. -/
theorem Frame.mono {ps qs : List Part} {s t : State} (h : Frame ps s t) (hs : ∀ p ∈ ps, p ∈ qs) : Frame qs s t :=
  fun p hp => h p (fun hm => hp (hs p hm))

/-- Nothing changes from a state to itself. -/
theorem Frame.refl (ps : List Part) (s : State) : Frame ps s s := by
  intro p _
  cases p <;> simp [SamePart]

end Sys2Proof.Machine
end

