-- ==== Sys2Proof/Laws/Draw.lean ====
section
/-! SUPPORT. The sprite-draw unit (40_display.md R101 to R103). `Flips s t hit` says all that drawing does: the hit pixels
are inverted, VF becomes 1 when a lit pixel is hit and is otherwise kept, and nothing else changes. Drawing over disjoint
sets of pixels composes. -/

namespace Sys2Proof.Machine

structure Flips (s t : State) (hit : Fin 64 → Fin 32 → Bool) : Prop where
  rest : t = { s with v := t.v, fb := t.fb }
  regs : ∀ r, r ≠ vf → t.getV r = s.getV r
  pix : ∀ px py, t.pixel px py = (s.pixel px py ^^ hit px py)
  flag : t.getV vf = if ∃ px py, hit px py = true ∧ s.pixel px py = true then 1 else s.getV vf

theorem Flips.refl (s : State) : Flips s s (fun _ _ => false) :=
  ⟨rfl, fun _ _ => rfl, by simp, by simp⟩

theorem Flips.trans {s t u : State} {h g : Fin 64 → Fin 32 → Bool} (a : Flips s t h) (b : Flips t u g)
    (disjoint : ∀ px py, h px py = true → g px py = false) : Flips s u (fun px py => h px py || g px py) where
  rest := by rw [b.rest, a.rest]
  regs r hr := by rw [b.regs r hr, a.regs r hr]
  pix px py := by
    rw [b.pix, a.pix]
    have := disjoint px py
    cases hh : h px py <;> cases hg : g px py <;> simp_all
  flag := by
    rw [b.flag, a.flag]
    have same : ∀ px py, g px py = true → t.pixel px py = s.pixel px py := by
      intro px py hg
      rw [a.pix]
      cases hh : h px py
      · simp
      · have := disjoint px py hh; simp_all
    by_cases e1 : ∃ px py, g px py = true ∧ t.pixel px py = true
    · have e2 : ∃ px py, (h px py || g px py) = true ∧ s.pixel px py = true := by
        obtain ⟨px, py, hg, hp⟩ := e1
        exact ⟨px, py, by simp [hg], by rw [← same px py hg]; exact hp⟩
      rw [if_pos e1, if_pos e2]
    · rw [if_neg e1]
      by_cases e3 : ∃ px py, h px py = true ∧ s.pixel px py = true
      · have e2 : ∃ px py, (h px py || g px py) = true ∧ s.pixel px py = true := by
          obtain ⟨px, py, hh, hp⟩ := e3
          exact ⟨px, py, by simp [hh], hp⟩
        rw [if_pos e3, if_pos e2]
      · have e2 : ¬ ∃ px py, (h px py || g px py) = true ∧ s.pixel px py = true := by
          rintro ⟨px, py, ho, hp⟩
          rcases Bool.or_eq_true _ _ |>.mp ho with hh | hg
          · exact e3 ⟨px, py, hh, hp⟩
          · exact e1 ⟨px, py, hg, by rw [same px py hg]; exact hp⟩
        rw [if_neg e3, if_neg e2]

theorem Flips.congr {s t : State} {h g : Fin 64 → Fin 32 → Bool} (a : Flips s t h) (e : ∀ px py, h px py = g px py) :
    Flips s t g := by
  have : h = g := funext fun px => funext fun py => e px py
  exact this ▸ a

/-- `Plot` inverts one pixel (R102, R103). -/
theorem plot_flips (s : State) (px : Fin 64) (py : Fin 32) :
    Flips s (plot s px py) (fun qx qy => decide (qx = px ∧ qy = py)) := by
  unfold plot
  split
  · next on =>
    refine ⟨rfl, fun r hr => by simp [hr], fun qx qy => ?_, ?_⟩
    · by_cases h : qx = px ∧ qy = py
      · obtain ⟨rfl, rfl⟩ := h; simp [on]
      · simp [h]
    · rw [if_pos ⟨px, py, by simp, on⟩]; simp
  · next off =>
    refine ⟨rfl, fun r hr => by simp, fun qx qy => ?_, ?_⟩
    · by_cases h : qx = px ∧ qy = py
      · obtain ⟨rfl, rfl⟩ := h; simp [off]
      · simp [h]
    · rw [if_neg]
      · simp
      · rintro ⟨qx, qy, hq, hp⟩
        obtain ⟨rfl, rfl⟩ := of_decide_eq_true hq
        exact off hp

/-- How far right of column `px0` a column lies, modulo 64. -/
def columnOffset (px0 : Nat) (px : Fin 64) : Nat := (px.val + 64 - px0) % 64

/-- How far below row `py0` a row lies, modulo 32. -/
def rowOffset (py0 : Nat) (py : Fin 32) : Nat := (py.val + 32 - py0) % 32

theorem column_eq_iff (px0 k : Nat) (h0 : px0 < 64) (hk : k < 64) (px : Fin 64) :
    px = column hardware (px0 + k) ↔ columnOffset px0 px = k := by
  have := px.isLt
  have e : (column hardware (px0 + k)).val = (px0 + k) % 64 % 64 := rfl
  rw [Fin.ext_iff, e, columnOffset]
  omega

theorem row_eq_iff (py0 k : Nat) (h0 : py0 < 32) (hk : k < 32) (py : Fin 32) :
    py = row hardware (py0 + k) ↔ rowOffset py0 py = k := by
  have := py.isLt
  have e : (row hardware (py0 + k)).val = (py0 + k) % 32 % 32 := rfl
  rw [Fin.ext_iff, e, rowOffset]
  omega

/-- The pixels one sprite byte hits (R101). -/
def hitOfByte (px0 : Nat) (py : Fin 32) (b : Byte) (qx : Fin 64) (qy : Fin 32) : Bool :=
  decide (qy = py) && decide (columnOffset px0 qx < 8) && b.getLsbD (7 - columnOffset px0 qx)

/-- All that drawing one sprite byte does. -/
theorem drawByte_flips (px0 : Nat) (h0 : px0 < 64) (py : Fin 32) (b : Byte) (s : State) :
    Flips s (drawByte hardware px0 py b s) (hitOfByte px0 py b) := by
  have loop : ∀ k ≤ 8, Flips s
      ((List.range k).foldl (fun s bit => if b.getLsbD (7 - bit) then plot s (column hardware (px0 + bit)) py else s) s)
      (fun qx qy => decide (qy = py) && decide (columnOffset px0 qx < k) && b.getLsbD (7 - columnOffset px0 qx)) := by
    intro k hk
    induction k with
    | zero => exact (Flips.refl s).congr (by simp)
    | succ k ih =>
      have a := ih (by omega)
      rw [List.range_succ, List.foldl_append]
      simp only [List.foldl_cons, List.foldl_nil]
      split
      · next on =>
        refine (a.trans (plot_flips _ (column hardware (px0 + k)) py) ?_).congr ?_
        · intro qx qy h
          simp only [Bool.and_eq_true, decide_eq_true_eq] at h
          simp only [column_eq_iff px0 k h0 (by omega), decide_eq_false_iff_not]
          omega
        · intro qx qy
          simp only [column_eq_iff px0 k h0 (by omega : k < 64)]
          by_cases hy : qy = py
          · rcases Nat.lt_trichotomy (columnOffset px0 qx) k with h | h | h
            · simp [hy, h, Nat.lt_succ_of_lt h, Nat.ne_of_lt h]
            · simp [hy, h, on]
            · simp [hy, Nat.not_lt.mpr (Nat.le_of_lt h), Nat.not_lt.mpr h, Nat.ne_of_gt h]
          · simp [hy]
      · next off =>
        refine a.congr ?_
        intro qx qy
        rcases Nat.lt_trichotomy (columnOffset px0 qx) k with h | h | h
        · simp [h, Nat.lt_succ_of_lt h]
        · simp [h, off]
        · simp [Nat.not_lt.mpr (Nat.le_of_lt h), Nat.not_lt.mpr h]
  exact (loop 8 (le_refl 8)).congr (fun qx qy => rfl)

/-- The pixels a sprite of `n` rows hits (R101). -/
def hitOfRows (m : Memory) (base px0 py0 n : Nat) (qx : Fin 64) (qy : Fin 32) : Bool :=
  decide (columnOffset px0 qx < 8) && decide (rowOffset py0 qy < n) &&
    (memRead m (base + rowOffset py0 qy)).getLsbD (7 - columnOffset px0 qx)

/-- All that drawing `n` rows does, for a sprite no taller than the framebuffer. -/
theorem drawRows_flips (px0 py0 : Nat) (hx : px0 < 64) (hy : py0 < 32) (s : State) :
    ∀ n ≤ 32, Flips s (drawRows hardware px0 py0 n s) (hitOfRows s.mem s.index.toNat px0 py0 n) := by
  intro n hn
  induction n with
  | zero => exact (Flips.refl s).congr (by simp [hitOfRows])
  | succ k ih =>
    have a := ih (by omega)
    have step : drawRows hardware px0 py0 (k + 1) s =
        drawByte hardware px0 (row hardware (py0 + k)) (memRead s.mem (s.index.toNat + k)) (drawRows hardware px0 py0 k s) := by
      have hm : (drawRows hardware px0 py0 k s).mem = s.mem := by rw [a.rest]
      have hi : (drawRows hardware px0 py0 k s).index = s.index := by rw [a.rest]
      conv_lhs => unfold drawRows
      rw [List.range_succ, List.foldl_append]
      simp only [List.foldl_cons, List.foldl_nil]
      change drawByte hardware px0 (row hardware (py0 + k))
        (memRead (drawRows hardware px0 py0 k s).mem ((drawRows hardware px0 py0 k s).index.toNat + k)) (drawRows hardware px0 py0 k s) = _
      rw [hm, hi]
    rw [step]
    refine (a.trans (drawByte_flips px0 hx _ _ _) ?_).congr ?_
    · intro qx qy h
      simp only [hitOfRows, Bool.and_eq_true, decide_eq_true_eq] at h
      have : ¬ qy = row hardware (py0 + k) := by rw [row_eq_iff py0 k hy (by omega)]; omega
      simp [hitOfByte, this]
    · intro qx qy
      simp only [hitOfByte, hitOfRows, row_eq_iff py0 k hy (by omega : k < 32)]
      rcases Nat.lt_trichotomy (rowOffset py0 qy) k with h | h | h
      · simp [h, Nat.lt_succ_of_lt h, Nat.ne_of_lt h]
      · simp [h]
      · simp [Nat.not_lt.mpr (Nat.le_of_lt h), Nat.not_lt.mpr h, Nat.ne_of_gt h]

/-! Two facts about drawing any number of rows, without saying which pixels are hit. -/

/-- A fold whose every step keeps a reflexive, transitive relation keeps it. -/
theorem foldl_keeps {α β : Type} (R : β → β → Prop) (refl : ∀ b, R b b) (trans : ∀ a b c, R a b → R b c → R a c)
    (f : β → α → β) (h : ∀ b a, R b (f b a)) : ∀ (l : List α) (b : β), R b (l.foldl f b)
  | [], b => refl b
  | a :: l, b => trans _ _ _ (h b a) (foldl_keeps R refl trans f h l (f b a))

/-- A fold whose every step keeps a relation between two runs keeps it. -/
theorem foldl_keeps_both {α β : Type} (R : β → β → Prop) (f : β → α → β) (h : ∀ b c a, R b c → R (f b a) (f c a)) :
    ∀ (l : List α) (b c : β), R b c → R (l.foldl f b) (l.foldl f c)
  | [], _, _, r => r
  | a :: l, b, c, r => foldl_keeps_both R f h l (f b a) (f c a) (h b c a r)

/-- Drawing changes VF and the framebuffer alone. -/
theorem drawRows_touches (px0 py0 n : Nat) (s : State) :
    drawRows hardware px0 py0 n s = { s with v := (drawRows hardware px0 py0 n s).v, fb := (drawRows hardware px0 py0 n s).fb } ∧
    ∀ r, r ≠ vf → (drawRows hardware px0 py0 n s).getV r = s.getV r := by
  have trans : ∀ a b c : State,
      (b = { a with v := b.v, fb := b.fb } ∧ ∀ r, r ≠ vf → b.getV r = a.getV r) →
      (c = { b with v := c.v, fb := c.fb } ∧ ∀ r, r ≠ vf → c.getV r = b.getV r) →
      (c = { a with v := c.v, fb := c.fb } ∧ ∀ r, r ≠ vf → c.getV r = a.getV r) := by
    rintro a b c ⟨h1, h2⟩ ⟨h3, h4⟩
    exact ⟨by rw [h3, h1], fun r hr => (h4 r hr).trans (h2 r hr)⟩
  refine foldl_keeps (fun a b : State => b = { a with v := b.v, fb := b.fb } ∧ ∀ r, r ≠ vf → b.getV r = a.getV r)
    (fun a => ⟨rfl, fun _ _ => rfl⟩) trans _ ?_ _ s
  intro a k
  refine foldl_keeps (fun a b : State => b = { a with v := b.v, fb := b.fb } ∧ ∀ r, r ≠ vf → b.getV r = a.getV r)
    (fun a => ⟨rfl, fun _ _ => rfl⟩) trans _ ?_ _ a
  intro b bit
  split
  · exact ⟨(plot_flips b _ _).rest, (plot_flips b _ _).regs⟩
  · exact ⟨rfl, fun _ _ => rfl⟩

/-- The two states differ in general registers other than VF alone. -/
structure SameButRegs (s t : State) : Prop where
  rest : t = { s with v := t.v }
  flag : t.getV vf = s.getV vf

theorem plot_sameButRegs {s t : State} (h : SameButRegs s t) (px : Fin 64) (py : Fin 32) :
    SameButRegs (plot s px py) (plot t px py) := by
  have hp : t.pixel px py = s.pixel px py := by rw [h.rest]; rfl
  unfold plot
  rw [hp]
  split
  · refine ⟨?_, by simp⟩
    conv_lhs => rw [h.rest]
    rw [h.rest]; rfl
  · refine ⟨?_, h.flag⟩
    conv_lhs => rw [h.rest]
    rw [h.rest]; rfl

/-- Drawing reads no general register but VF, and keeps the other registers of both states as they differ. -/
theorem drawRows_sameButRegs (px0 py0 n : Nat) {s t : State} (h : SameButRegs s t) :
    SameButRegs (drawRows hardware px0 py0 n s) (drawRows hardware px0 py0 n t) := by
  refine foldl_keeps_both SameButRegs _ ?_ _ _ _ h
  intro b c k hb
  have hm : memRead c.mem (c.index.toNat + k) = memRead b.mem (b.index.toNat + k) := by rw [hb.rest]
  rw [hm]
  refine foldl_keeps_both SameButRegs _ ?_ _ _ _ hb
  intro b c bit hb
  split
  · exact plot_sameButRegs hb _ _
  · exact hb

end Sys2Proof.Machine
end

