-- ==== Sys2Proof/Laws/Memory.lean ====
section
/-! SUPPORT. Memory: a read after a write, and the canonical form that every write keeps (20_memory.md R55). -/

namespace Sys2Proof.Machine

@[simp] theorem memRead_nil (a : Nat) : memRead [] a = 0 := rfl

theorem memRead_cons (b : Nat) (v : Byte) (m : Memory) (a : Nat) :
    memRead ((b, v) :: m) a = if b = a then v else memRead m a := rfl

/-- An address below every listed one reads 0. -/
theorem memRead_of_lt (m : Memory) (a : Nat) (h : ∀ c ∈ m, a < c.1) : memRead m a = 0 := by
  induction m with
  | nil => rfl
  | cons c m ih =>
    obtain ⟨b, v⟩ := c
    have hb : a < b := h (b, v) (by simp)
    rw [memRead_cons, if_neg (by omega)]
    exact ih (fun c hc => h c (by simp [hc]))

/-- The tail of a canonical memory is canonical, and lies above its head. -/
theorem Memory.wf_cons {b : Nat} {v : Byte} {m : Memory} (h : Memory.wf ((b, v) :: m)) :
    (∀ c ∈ m, b < c.1) ∧ b < 0x1000 ∧ v ≠ 0 ∧ Memory.wf m := by
  obtain ⟨hp, hc⟩ := h
  rw [List.pairwise_cons] at hp
  have hb := hc (b, v) (by simp)
  exact ⟨hp.1, hb.1, hb.2, hp.2, fun c hm => hc c (by simp [hm])⟩

/-- A cell in front reads as its byte, and leaves every other address. -/
theorem memRead_memCons (a : Nat) (v : Byte) (m : Memory) (h : ∀ c ∈ m, a < c.1) (k : Nat) :
    memRead (memCons a v m) k = if k = a then v else memRead m k := by
  unfold memCons
  split
  · next hv =>
    subst hv
    split
    · next hk => subst hk; exact memRead_of_lt m k h
    · rfl
  · rw [memRead_cons]; simp only [eq_comm]

/-- THE LAW OF WRITES: the written address reads the byte, every other address reads as before. -/
theorem memRead_memWrite (m : Memory) (h : m.wf) (a : Nat) (v : Byte) (k : Nat) :
    memRead (memWrite m a v) k = if k = a then v else memRead m k := by
  induction m with
  | nil => exact memRead_memCons a v [] (by simp) k
  | cons c m ih =>
    obtain ⟨b, u⟩ := c
    obtain ⟨hlt, -, -, hm⟩ := Memory.wf_cons h
    unfold memWrite
    split
    · next hab =>
      refine memRead_memCons a v _ ?_ k
      intro c hc
      rcases List.mem_cons.mp hc with rfl | hc
      · exact hab
      · have := hlt c hc; omega
    · split
      · next hab hb =>
        subst hb
        rw [memRead_memCons a v m hlt k, memRead_cons]
        split <;> rename_i hk
        · rfl
        · rw [if_neg (fun e => hk e.symm)]
      · next hab hb =>
        rw [memRead_cons, ih hm, memRead_cons]
        by_cases hk : b = k
        · subst hk; rw [if_pos rfl, if_neg (by omega), if_pos rfl]
        · simp only [if_neg hk]

/-- The addresses a write may list. -/
theorem mem_memWrite {m : Memory} {a : Nat} {v : Byte} {c : Host.Cell} (h : c ∈ memWrite m a v) :
    c ∈ m ∨ c = (a, v) ∧ v ≠ 0 := by
  induction m with
  | nil =>
    unfold memWrite memCons at h
    split at h <;> simp_all
  | cons d m ih =>
    obtain ⟨b, u⟩ := d
    unfold memWrite memCons at h
    split at h
    · split at h
      · exact .inl h
      · rcases List.mem_cons.mp h with rfl | h
        · exact .inr ⟨rfl, by assumption⟩
        · exact .inl h
    · split at h
      · split at h
        · exact .inl (List.mem_cons_of_mem _ h)
        · rcases List.mem_cons.mp h with rfl | h
          · exact .inr ⟨rfl, by assumption⟩
          · exact .inl (List.mem_cons_of_mem _ h)
      · rcases List.mem_cons.mp h with rfl | h
        · exact .inl (by simp)
        · rcases ih h with h | h
          · exact .inl (List.mem_cons_of_mem _ h)
          · exact .inr h

/-- A write keeps the canonical form. -/
theorem memWrite_wf {m : Memory} (h : m.wf) {a : Nat} (ha : a < 0x1000) (v : Byte) : (memWrite m a v).wf := by
  refine ⟨?_, ?_⟩
  · induction m with
    | nil => unfold memWrite memCons; split <;> simp
    | cons d m ih =>
      obtain ⟨b, u⟩ := d
      obtain ⟨hlt, -, -, hm⟩ := Memory.wf_cons h
      unfold memWrite memCons
      split
      · next hab =>
        split
        · exact h.1
        · refine List.pairwise_cons.mpr ⟨?_, h.1⟩
          intro c hc
          rcases List.mem_cons.mp hc with rfl | hc
          · exact hab
          · have := hlt c hc; simp only; omega
      · split
        · next hab hb =>
          subst hb
          split
          · exact hm.1
          · exact List.pairwise_cons.mpr ⟨hlt, hm.1⟩
        · next hab hb =>
          refine List.pairwise_cons.mpr ⟨?_, ih hm⟩
          intro c hc
          rcases mem_memWrite hc with hc | ⟨rfl, -⟩
          · exact hlt c hc
          · simp only; omega
  · intro c hc
    rcases mem_memWrite hc with hc | ⟨rfl, hv⟩
    · exact h.2 c hc
    · exact ⟨ha, hv⟩

/-- Consecutive writes inside memory keep the canonical form. -/
theorem memWriteList_wf (vs : List Byte) : ∀ {m : Memory} (_ : m.wf) {a : Nat} (_ : a + vs.length ≤ 0x1000),
    (memWriteList m a vs).wf := by
  induction vs with
  | nil => intro m h a _; exact h
  | cons v vs ih =>
    intro m h a ha
    simp only [List.length_cons] at ha
    exact ih (memWrite_wf h (by omega) v) (by omega)

/-- What consecutive writes inside memory leave at each address. -/
theorem memRead_memWriteList (vs : List Byte) : ∀ {m : Memory} (_ : m.wf) {a : Nat}
    (_ : a + vs.length ≤ 0x1000) (k : Nat),
    memRead (memWriteList m a vs) k = if a ≤ k then (vs[k - a]?).getD (memRead m k) else memRead m k := by
  induction vs with
  | nil => intro m _ a _ k; simp [memWriteList]
  | cons v vs ih =>
    intro m h a ha k
    simp only [List.length_cons] at ha
    rw [memWriteList, ih (memWrite_wf h (by omega) v) (by omega), memRead_memWrite m h]
    by_cases hk : a + 1 ≤ k
    · have hne : k ≠ a := by omega
      have hle : a ≤ k := by omega
      rw [if_pos hk, if_pos hle, if_neg hne]
      obtain ⟨d, rfl⟩ : ∃ d, k = a + 1 + d := ⟨k - (a + 1), by omega⟩
      rw [show a + 1 + d - (a + 1) = d by omega, show a + 1 + d - a = d + 1 by omega, List.getElem?_cons_succ]
    · rw [if_neg hk]
      by_cases he : k = a
      · subst he; simp
      · rw [if_neg he, if_neg (by omega)]

/-- The empty memory is canonical. -/
theorem memory_nil_wf : Memory.wf ([] : Memory) := ⟨by simp, by simp⟩

/-- Storing a word inside memory keeps the canonical form. -/
theorem memWriteWord_wf {m : Memory} (h : m.wf) {a : Nat} (ha : a + 1 < 0x1000) (w : Word) :
    (memWriteWord m a w).wf := memWrite_wf (memWrite_wf h (by omega) _) ha _

end Sys2Proof.Machine
end

