-- ==== Sys2Proof/Laws/HostPort.lean ====
section
/-! SUPPORT. One lemma for each of the host's commands that has cases: everything it can do. -/

namespace Sys2Proof.Machine

/-- The memory a load of these bytes leaves. -/
@[irreducible] def loadedMemory (bytes : List Byte) : Memory :=
  memWriteList (memWriteList [] hardware.progBase bytes) hardware.fontBase hardware.font.toList

/-- A load that fits leaves the reset state with the program and the font in memory, or else the reset state alone
(70_reset_and_hazards.md R254, R255). -/
theorem loadCommand_cases (bytes : List Byte) (s : State) :
    (bytes.length ≤ 3584 ∧ loadCommand hardware bytes s =
      { State.reset with
        mem := loadedMemory bytes, pending := s.pending, output := s.output ++ [.loaded .ok], cycles := s.cycles }) ∨
    (bytes.length > 3584 ∧ loadCommand hardware bytes s =
      { State.reset with pending := s.pending, output := s.output ++ [.loaded .tooLarge], cycles := s.cycles }) := by
  have e : hardware.loadResetOnFail = true := rfl
  unfold loadCommand
  simp only [e, if_true, hardware_maxProgLen]
  by_cases h : bytes.length > 3584
  · exact .inr ⟨h, by rw [if_pos h]; rfl⟩
  · exact .inl ⟨by omega, by rw [if_neg h]; simp only [installProgram, loadedMemory, State.emit, resetCommandWith, State.reset, State.resetWith]⟩

theorem font_length : hardware.font.toList.length = 80 := by simp

/-- What a loaded memory reads as: the font wins over nothing, since it lies below the program. -/
theorem memRead_loadedMemory (bytes : List Byte) (h : bytes.length ≤ 3584) :
    (loadedMemory bytes).wf ∧ ∀ a, memRead (loadedMemory bytes) a =
      if 0x050 ≤ a ∧ a < 0x0A0 then (hardware.font.toList[a - 0x050]?).getD 0
      else if 0x200 ≤ a then (bytes[a - 0x200]?).getD 0 else 0 := by
  have h1 : hardware.progBase + bytes.length ≤ 0x1000 := by rw [hardware_progBase]; omega
  have h2 : hardware.fontBase + hardware.font.toList.length ≤ 0x1000 := by
    rw [font_length, hardware_fontBase]; omega
  have hw := memWriteList_wf bytes memory_nil_wf h1
  unfold loadedMemory
  refine ⟨memWriteList_wf _ hw h2, ?_⟩
  intro a
  rw [memRead_memWriteList _ hw h2, memRead_memWriteList _ memory_nil_wf h1]
  simp only [hardware_fontBase, hardware_progBase, memRead_nil]
  by_cases hf : 0x050 ≤ a ∧ a < 0x0A0
  · have hi : a - 0x050 < hardware.font.toList.length := by rw [font_length]; omega
    rw [if_pos hf.1, if_pos hf, List.getElem?_eq_getElem hi, Option.getD_some, Option.getD_some]
  · rw [if_neg hf]
    by_cases hb : 0x050 ≤ a
    · have hi : hardware.font.toList.length ≤ a - 0x050 := by rw [font_length]; omega
      rw [if_pos hb, List.getElem?_eq_none hi, Option.getD_none]
    · rw [if_neg hb]

/-- A set-key writes one key or nothing (60_exceptions.md R231). -/
theorem setKeyCommand_cases (k : Int) (pressed : Bool) (s : State) :
    (∃ j : Fin 16, k = j.val ∧ setKeyCommand hardware k pressed s = { s with key := s.key.set j.val pressed j.isLt }) ∨
    ((∀ j : Fin 16, k ≠ j.val) ∧ setKeyCommand hardware k pressed s = s) := by
  unfold setKeyCommand
  have e : ((hardware.numKeys.val : Nat) : Int) = 16 := rfl
  by_cases h : 0 ≤ k ∧ k < hardware.numKeys.val
  · exact .inl ⟨⟨k.toNat, by omega⟩, by simp only; omega, by rw [dif_pos h]⟩
  · exact .inr ⟨fun j => by omega, dif_neg h⟩

end Sys2Proof.Machine
end

