-- ==== Sys2Proof/Laws/Ops.lean ====
section
/-! SUPPORT. One lemma for each shared operation: everything it can do. -/

namespace Sys2Proof.Machine

theorem regOfNat_val (k : Nat) (h : k < 16) : (regOfNat k).val = k := by
  simp [regOfNat, Fin.ofNat, Nat.mod_eq_of_lt h]

theorem regOfNat_reg (r : Reg) : regOfNat r.val = r := Fin.ext (regOfNat_val r.val r.isLt)

/-- A raised fault: the latch, pc back at the faulting word, nothing else (60_exceptions.md R210). -/
theorem raiseFault_spec (s : State) (c : FaultCause) : FaultsWith c s (s.raiseFault hardware c) := by
  refine ⟨rfl, rfl, ?_⟩
  intro p hp
  cases p <;> simp_all [SamePart, State.raiseFault]

theorem checked_inside {s : State} {last : Nat} (h : s.index.toNat + last ≤ 0xFFF) (t : State) :
    s.checked hardware last t = t := if_pos (Nat.lt_succ_of_le h)

theorem checked_outside {s : State} {last : Nat} (h : s.index.toNat + last > 0xFFF) (t : State) :
    s.checked hardware last t = s.raiseFault hardware .memOutOfRange := if_neg (Nat.not_lt.mpr h)

/-- A checked effect happens when its last address is in memory, and is a fault otherwise (20_memory.md R56). -/
theorem checked_cases (s : State) (last : Nat) (t : State) :
    (s.index.toNat + last ≤ 0xFFF ∧ s.checked hardware last t = t) ∨
    (s.index.toNat + last > 0xFFF ∧ s.checked hardware last t = s.raiseFault hardware .memOutOfRange) := by
  rcases Nat.lt_or_ge 0xFFF (s.index.toNat + last) with h | h
  · exact .inr ⟨h, checked_outside h t⟩
  · exact .inl ⟨h, checked_inside h t⟩

/-- A skip moves pc by 2 or does nothing. -/
theorem skipIf_spec (s : State) (c : Bool) :
    (s.skipIf c).pc = (if c then s.pc + 2 else s.pc) ∧ Frame [.pc] s (s.skipIf c) := by
  cases c
  · exact ⟨rfl, Frame.refl _ _⟩
  · refine ⟨rfl, ?_⟩
    intro p hp
    cases p <;> simp_all [SamePart, State.skipIf]

/-- The push and jump, or the stack-overflow fault (41_control.md R112). -/
theorem pushAndJump_cases (s : State) (p : Word) :
    (∃ h : s.sp.val < 16, s.pushAndJump hardware p =
      { s with stack := s.stack.set s.sp.val s.pc h, sp := ⟨s.sp.val + 1, by omega⟩, pc := p }) ∨
    (s.sp.val = 16 ∧ s.pushAndJump hardware p = s.raiseFault hardware .stackOverflow) := by
  by_cases h : s.sp.val < 16
  · exact .inl ⟨h, dif_pos h⟩
  · exact .inr ⟨by have := s.sp.isLt; omega, dif_neg h⟩

/-- The pop and jump, or the stack-underflow report (41_control.md R110). -/
theorem popAndJump_cases (s : State) :
    (∃ k : Fin 16, s.sp.val = k.val + 1 ∧
      s.popAndJump hardware = { s with sp := ⟨k.val, by omega⟩, pc := s.stack.get k }) ∨
    (s.sp.val = 0 ∧ s.popAndJump hardware = s.report hardware .stackUnderflow) := by
  by_cases h : s.sp.val = 0
  · exact .inr ⟨h, dif_pos h⟩
  · exact .inl ⟨⟨s.sp.val - 1, by have := s.sp.isLt; omega⟩, by simp only; omega, dif_neg h⟩

/-- On this hardware an ALU instruction with a flag reads both operands first, writes VX, then VF (42_alu.md R132). -/
theorem aluWithFlag_hardware (x y : Reg) (f : Byte → Byte → Byte × Bool) (s : State) :
    aluWithFlag hardware x y f s =
      (s.setV x (f (s.getV x) (s.getV y)).1).setV vf (flagByte (f (s.getV x) (s.getV y)).2) := rfl

/-- All that the bulk load does (43_index_memory.md R155). -/
theorem loadRegs_spec (s : State) (x : Reg) :
    loadRegs s x = { s with v := (loadRegs s x).v } ∧
    ∀ r : Reg, (loadRegs s x).getV r = if r ≤ x then memRead s.mem (s.effAddr r.val) else s.getV r := by
  have loop : ∀ n ≤ 16,
      (List.range n).foldl (fun t k => t.setV (regOfNat k) (memRead s.mem (s.effAddr k))) s =
        { s with v := ((List.range n).foldl (fun t k => t.setV (regOfNat k) (memRead s.mem (s.effAddr k))) s).v } ∧
      ∀ r : Reg, ((List.range n).foldl (fun t k => t.setV (regOfNat k) (memRead s.mem (s.effAddr k))) s).getV r =
        if r.val < n then memRead s.mem (s.effAddr r.val) else s.getV r := by
    intro n hn
    induction n with
    | zero => exact ⟨rfl, by simp⟩
    | succ n ih =>
      obtain ⟨h1, h2⟩ := ih (by omega)
      rw [List.range_succ, List.foldl_append]
      simp only [List.foldl_cons, List.foldl_nil]
      refine ⟨?_, ?_⟩
      · rw [h1]; rfl
      · intro r
        rw [getV_setV, h2]
        have hv := regOfNat_val n (by omega)
        by_cases e : r = regOfNat n
        · rw [if_pos e, if_pos (by rw [e, hv]; omega), e, hv]
        · have : r.val ≠ n := fun q => e (Fin.ext (by rw [hv]; exact q))
          rw [if_neg e]
          by_cases l : r.val < n
          · rw [if_pos l, if_pos (by omega)]
          · rw [if_neg l, if_neg (by omega)]
  obtain ⟨h1, h2⟩ := loop (x.val + 1) (by have := x.isLt; omega)
  refine ⟨h1, ?_⟩
  intro r
  refine (h2 r).trans ?_
  by_cases l : r ≤ x
  · rw [if_pos l, if_pos (by have : r.val ≤ x.val := l; omega)]
  · rw [if_neg l, if_neg (by have : ¬ r.val ≤ x.val := l; omega)]

/-- All that the bulk store does to memory, when its last address is inside it (43_index_memory.md R154). -/
theorem storeRegs_spec (s : State) (x : Reg) (hm : s.mem.wf) (hr : s.index.toNat + x.val ≤ 0xFFF) :
    (storeRegs s x).wf ∧ ∀ a, memRead (storeRegs s x) a =
      if s.index.toNat ≤ a ∧ a ≤ s.index.toNat + x.val then s.getV (regOfNat (a - s.index.toNat))
      else memRead s.mem a := by
  have loop : ∀ n ≤ x.val + 1,
      Memory.wf ((List.range n).foldl (fun m k => memWrite m (s.effAddr k) (s.getV (regOfNat k))) s.mem) ∧
      ∀ a, memRead ((List.range n).foldl (fun m k => memWrite m (s.effAddr k) (s.getV (regOfNat k))) s.mem) a =
        if s.index.toNat ≤ a ∧ a < s.index.toNat + n then s.getV (regOfNat (a - s.index.toNat))
        else memRead s.mem a := by
    intro n hn
    induction n with
    | zero => exact ⟨hm, fun a => by simp only [List.range_zero, List.foldl_nil]; rw [if_neg (by omega)]⟩
    | succ n ih =>
      obtain ⟨h1, h2⟩ := ih (by omega)
      rw [List.range_succ, List.foldl_append]
      simp only [List.foldl_cons, List.foldl_nil]
      have ha : s.effAddr n = s.index.toNat + n := rfl
      refine ⟨memWrite_wf h1 (by rw [ha]; omega) _, ?_⟩
      intro a
      rw [memRead_memWrite _ h1, h2, ha]
      by_cases e : a = s.index.toNat + n
      · rw [if_pos e, if_pos (by omega), e, Nat.add_sub_cancel_left]
      · rw [if_neg e]
        by_cases l : s.index.toNat ≤ a ∧ a < s.index.toNat + n
        · rw [if_pos l, if_pos (by omega)]
        · rw [if_neg l, if_neg (by omega)]
  obtain ⟨h1, h2⟩ := loop (x.val + 1) (le_refl _)
  refine ⟨h1, ?_⟩
  intro a
  refine (h2 a).trans ?_
  by_cases l : s.index.toNat ≤ a ∧ a ≤ s.index.toNat + x.val
  · rw [if_pos l, if_pos (by omega)]
  · rw [if_neg l, if_neg (by omega)]

/-- A key skip tests the key VX names, or is the key-range fault (44_keys_timers.md R170, R171). -/
theorem keySkip_cases (x : Reg) (pressed : Bool) (s : State) :
    (∃ k : Fin 16, (s.getV x).toNat = k.val ∧
      keySkip hardware x pressed s = s.skipIf (s.keyDown k.val == pressed)) ∨
    ((s.getV x).toNat > 15 ∧ keySkip hardware x pressed s = s.raiseFault hardware .keyOutOfRange) := by
  by_cases h : (s.getV x).toNat > 15
  · exact .inr ⟨h, if_pos h⟩
  · exact .inl ⟨⟨(s.getV x).toNat, by omega⟩, rfl, if_neg h⟩

/-- READ_FB's list on this hardware: all rows, whole (60_exceptions.md R233). -/
theorem pixels_eq (s : State) : s.pixels = (s.fb.toList.map (fun r => r.toList)).flatten := by
  have h : s.fb.toList.take 32 = s.fb.toList := List.take_of_length_le (by simp)
  have w : ∀ r : Vector Bool 64, r.toList.take 64 = r.toList := fun r => List.take_of_length_le (by simp)
  change ((s.fb.toList.take 32).map (fun r => r.toList.take 64)).flatten = _
  rw [h]
  simp only [w]

/-- The lowest pressed key, when there is one (44_keys_timers.md R172). -/
theorem lowestKey_some {s : State} {k : Nat} (h : s.lowestKey = some k) :
    k < 16 ∧ s.keyDown k = true ∧ ∀ j < k, s.keyDown j = false := by
  rw [State.lowestKey, State.lowestKeyWith, List.find?_range_eq_some] at h
  simp only [Bool.not_eq_true'] at h
  exact ⟨List.mem_range.mp h.2.1, h.1, h.2.2⟩

/-- There is no lowest pressed key exactly when none is pressed. -/
theorem lowestKey_none {s : State} : s.lowestKey = none ↔ ∀ k, s.keyDown k = false := by
  rw [State.lowestKey, State.lowestKeyWith, List.find?_eq_none]
  constructor
  · intro h k
    by_cases hk : k < 16
    · simpa using h k (List.mem_range.mpr hk)
    · exact keyDown_of_ge s k (by omega)
  · intro h k _
    simp [h k]

/-! ### The instructions that take a parameter, as this hardware runs them -/

theorem exec_ret (s : State) : exec .ret s = .next (s.popAndJump hardware) := rfl
theorem exec_call (nnn : Addr12) (s : State) :
    exec (.call nnn) s = .next (s.pushAndJump hardware (addrOfNNN nnn)) := rfl
theorem exec_drw (x y : Reg) (n : Nat) (s : State) : exec (.drw x y n) s =
    .next (if n = 0 then drawRows hardware ((s.getV x).toNat % 64) ((s.getV y).toNat % 32) n (s.setV vf 0)
      else s.checked hardware (n - 1)
        (drawRows hardware ((s.getV x).toNat % 64) ((s.getV y).toNat % 32) n (s.setV vf 0))) := rfl
theorem exec_addReg (x y : Reg) (s : State) :
    exec (.addReg x y) s = .next (aluWithFlag hardware x y addWithCarry s) := rfl
theorem exec_sub (x y : Reg) (s : State) : exec (.sub x y) s = .next (aluWithFlag hardware x y subNotBorrow s) := rfl
theorem exec_shr (x y : Reg) (s : State) :
    exec (.shr x y) s = .next (aluWithFlag hardware x y (shiftRightOut hardware) s) := rfl
theorem exec_subn (x y : Reg) (s : State) :
    exec (.subn x y) s = .next (aluWithFlag hardware x y (reverseSubNotBorrow hardware) s) := rfl
theorem exec_shl (x y : Reg) (s : State) :
    exec (.shl x y) s = .next (aluWithFlag hardware x y (shiftLeftOut hardware) s) := rfl
theorem exec_skp (x : Reg) (s : State) : exec (.skp x) s = .next (keySkip hardware x true s) := rfl
theorem exec_sknp (x : Reg) (s : State) : exec (.sknp x) s = .next (keySkip hardware x false s) := rfl
theorem exec_addI (x : Reg) (s : State) : exec (.addI x) s =
    .next { s with index := BitVec.ofNat 16 (s.index.toNat + (s.getV x).toNat) } := rfl
theorem exec_ldF (x : Reg) (s : State) : exec (.ldF x) s =
    .next { s with index := BitVec.ofNat 16 (0x050 + 5 * (s.getV x).toNat) } := rfl
theorem exec_ldB (x : Reg) (s : State) : exec (.ldB x) s = .next (s.checked hardware 2
    { s with mem := memWriteList s.mem (s.effAddr 0) (decimalDigits (s.getV x)) }) := rfl
theorem exec_stRegs (x : Reg) (s : State) :
    exec (.stRegs x) s = .next (s.checked hardware x.val { s with mem := storeRegs s x }) := rfl
theorem exec_ldRegs (x : Reg) (s : State) : exec (.ldRegs x) s = .next (s.checked hardware x.val (loadRegs s x)) := by
  have h : (loadRegs s x).index = s.index := by rw [(loadRegs_spec s x).1]
  change Host.Outcome.next (s.checked hardware x.val { loadRegs s x with index := s.index }) = _
  rw [← h]

/-- The key wait takes the lowest pressed key, or goes back to its own address (44_keys_timers.md R172). -/
theorem exec_ldVxK_cases (x : Reg) (s : State) :
    (∃ k, s.lowestKey = some k ∧ exec (.ldVxK x) s = .next (s.setV x (BitVec.ofNat 8 k))) ∨
    (s.lowestKey = none ∧ exec (.ldVxK x) s = .next (s.jumpTo (s.pc - 2))) := by
  have e : exec (.ldVxK x) s = match s.lowestKey with
    | some k => .next (s.setV x (BitVec.ofNat 8 k))
    | none => .next (s.jumpTo (s.pc - 2)) := rfl
  rw [e]
  cases s.lowestKey with
  | some k => exact .inl ⟨k, rfl, rfl⟩
  | none => exact .inr ⟨rfl, rfl⟩

end Sys2Proof.Machine
end

