-- ==== Sys2Proof/Laws/Parametric.lean ====
section
/-! SUPPORT. The machine of the parameters (00_scope.md R6): at the values this hardware takes it is the machine of this
hardware, and at any values its registers stay within their widths. -/

namespace Sys2Proof.Machine

theorem keepResult_hardware (r : Result) : keepResult hardware r = r := by cases r <;> rfl

theorem effectWith_hardware (i : Instr) (s : State) : effectWith hardware i s = exec i s := by cases i <;> rfl

theorem execWith_hardware (i : Instr) (s : State) : execWith hardware i s = exec i s := by
  rw [execWith, keepResult_hardware, effectWith_hardware]

theorem execWith_hardware_eq : execWith hardware = exec := funext fun i => funext fun s => execWith_hardware i s

theorem performWith_hardware (command : Command) (s : State) :
    performWith hardware (execWith hardware) command s = perform command s := by
  rw [execWith_hardware_eq]; rfl

/-- Every meaning answers a next state, at any values of the parameters. -/
theorem effectWith_answers (c : Config) (i : Instr) (s : State) : ∃ t, effectWith c i s = .next t := by
  cases i with
  | ldVxK x =>
    simp only [effectWith, execLdVxKWith]
    cases s.lowestKeyWith c <;> exact ⟨_, rfl⟩
  | _ => exact ⟨_, rfl⟩

theorem lowBits_lt {k : Nat} (n : Nat) (w : BitVec k) : (lowBits n w).toNat < 2 ^ n := by
  unfold lowBits
  split
  · next h => exact Nat.lt_of_lt_of_le w.isLt (Nat.pow_le_pow_right (by omega) h)
  · rw [BitVec.toNat_ofNat]
    exact Nat.lt_of_le_of_lt (Nat.mod_le _ _) (Nat.mod_lt _ (Nat.two_pow_pos n))

/-- A register that does not exist reads as 0; the others are as they were. -/
theorem keep_getV (c : Config) (s : State) (r : Reg) :
    (s.keep c).getV r = if r.val < c.numV.val then s.getV r else 0 := by
  have := r.isLt
  by_cases h : 16 ≤ c.numV.val
  · rw [if_pos (by omega)]
    simp only [State.keep, if_pos h]
    rfl
  · simp only [State.keep, if_neg h, State.getV, Vector.get_eq_getElem, Vector.getElem_ofFn]

end Sys2Proof.Machine
end

