-- ==== Sys2Proof/Laws/PerInstr.lean ====
section
/-! SUPPORT. Per instruction: the word of a well-formed instruction is selected by a row of the opcode map, and that row
reads the instruction's own operands back out of it (30_encoding.md R84). -/

namespace Sys2Proof.Laws

/-- The word of `i` lies in a row of the map that builds `i`. -/
def EncodedInItsRow.Statement (i : Instr) : Prop :=
  i.wellFormed = true → ∃ r ∈ opcodeMap, r.selects (encode i) ∧ r.build (encode i) = i

/-- A row of format `NNN`. -/
theorem row_NNN (op : Nat) (h : op < 16) (nnn : Addr12) (f : Addr12 → Instr) (p m : String)
    (hr : (⟨p, m, 0xF000, BitVec.ofNat 16 (op * 0x1000), fun w => f (fieldNNN w)⟩ : OpcodeRow) ∈ opcodeMap)
    (he : encode (f nnn) = packNNN op nnn) : EncodedInItsRow.Statement (f nnn) := fun _ =>
  ⟨_, hr, by rw [OpcodeRow.selects, he]; exact (select_F000 _ op h).mpr (fieldOp_packNNN op h nnn),
    by simp only [he, fieldNNN_packNNN op h]⟩

/-- A row of format `XNN`. -/
theorem row_XNN (op : Nat) (h : op < 16) (x : Reg) (nn : Byte) (f : Reg → Byte → Instr) (p m : String)
    (hr : (⟨p, m, 0xF000, BitVec.ofNat 16 (op * 0x1000), fun w => f (fieldX w) (fieldNN w)⟩ : OpcodeRow) ∈ opcodeMap)
    (he : encode (f x nn) = packXNN op x nn) : EncodedInItsRow.Statement (f x nn) := fun _ =>
  ⟨_, hr, by rw [OpcodeRow.selects, he]; exact (select_F000 _ op h).mpr (fieldOp_packXNN op h x nn),
    by simp only [he, fieldX_packXNN op h, fieldNN_packXNN op h]⟩

/-- A row of format `XY` that the operation nibble alone selects. -/
theorem row_XY (op : Nat) (h : op < 16) (x y : Reg) (f : Reg → Reg → Instr) (p m : String)
    (hr : (⟨p, m, 0xF000, BitVec.ofNat 16 (op * 0x1000), fun w => f (fieldX w) (fieldY w)⟩ : OpcodeRow) ∈ opcodeMap)
    (he : encode (f x y) = packXYN op x y 0) : EncodedInItsRow.Statement (f x y) := fun _ =>
  ⟨_, hr, by rw [OpcodeRow.selects, he]; exact (select_F000 _ op h).mpr (fieldOp_packXYN op h x y 0),
    by simp only [he, fieldX_packXYN op h, fieldY_packXYN op h]⟩

/-- A row of family 0x8. -/
theorem row_alu (n : Nat) (hn : n < 16) (x y : Reg) (f : Reg → Reg → Instr) (p m : String)
    (hr : (⟨p, m, 0xF00F, BitVec.ofNat 16 (8 * 0x1000 + n), fun w => f (fieldX w) (fieldY w)⟩ : OpcodeRow)
      ∈ opcodeMap)
    (he : encode (f x y) = packXYN 8 x y n) : EncodedInItsRow.Statement (f x y) := fun _ =>
  ⟨_, hr, by
      rw [OpcodeRow.selects, he]
      exact (select_F00F _ 8 n (by omega) hn).mpr
        ⟨fieldOp_packXYN 8 (by omega) x y n, by rw [fieldN_packXYN 8 (by omega)]; omega⟩,
    by simp only [he, fieldX_packXYN 8 (by omega), fieldY_packXYN 8 (by omega)]⟩

/-- A row of format `X`, whose low byte is the sub-opcode. -/
theorem row_X (op : Nat) (h : op < 16) (nn : Byte) (x : Reg) (f : Reg → Instr) (p m : String)
    (hr : (⟨p, m, 0xF0FF, BitVec.ofNat 16 (op * 0x1000 + nn.toNat), fun w => f (fieldX w)⟩ : OpcodeRow) ∈ opcodeMap)
    (he : encode (f x) = packXNN op x nn) : EncodedInItsRow.Statement (f x) := fun _ =>
  ⟨_, hr, by
      rw [OpcodeRow.selects, he]
      exact (select_F0FF _ op nn.toNat h nn.isLt).mpr
        ⟨fieldOp_packXNN op h x nn, by rw [fieldNN_packXNN op h]⟩,
    by simp only [he, fieldX_packXNN op h]⟩

/-- A row of format `O`. -/
theorem row_O (nn : Byte) (i : Instr) (p m : String)
    (hr : (⟨p, m, 0xF0FF, BitVec.ofNat 16 (0 * 0x1000 + nn.toNat), fun _ => i⟩ : OpcodeRow) ∈ opcodeMap)
    (he : encode i = packXNN 0 0 nn) : EncodedInItsRow.Statement i := fun _ =>
  ⟨_, hr, by
      rw [OpcodeRow.selects, he]
      exact (select_F0FF _ 0 nn.toNat (by omega) nn.isLt).mpr
        ⟨fieldOp_packXNN 0 (by omega) 0 nn, by rw [fieldNN_packXNN 0 (by omega)]⟩, rfl⟩

namespace EncodedInItsRow

theorem cls : Statement .cls := row_O 0xE0 _ "00E0" "CLS" (by simp [opcodeMap, opcodeRows0to7]) rfl

theorem ret : Statement .ret := row_O 0xEE _ "00EE" "RET" (by simp [opcodeMap, opcodeRows0to7]) rfl

theorem jp (nnn : Addr12) : Statement (.jp nnn) :=
  row_NNN 1 (by omega) nnn .jp "1NNN" "JP" (by simp [opcodeMap, opcodeRows0to7]) rfl

theorem call (nnn : Addr12) : Statement (.call nnn) :=
  row_NNN 2 (by omega) nnn .call "2NNN" "CALL" (by simp [opcodeMap, opcodeRows0to7]) rfl

theorem seImm (x : Reg) (nn : Byte) : Statement (.seImm x nn) :=
  row_XNN 3 (by omega) x nn .seImm "3XNN" "SE" (by simp [opcodeMap, opcodeRows0to7]) rfl

theorem sneImm (x : Reg) (nn : Byte) : Statement (.sneImm x nn) :=
  row_XNN 4 (by omega) x nn .sneImm "4XNN" "SNE" (by simp [opcodeMap, opcodeRows0to7]) rfl

theorem seReg (x y : Reg) : Statement (.seReg x y) :=
  row_XY 5 (by omega) x y .seReg "5XY0" "SE" (by simp [opcodeMap, opcodeRows0to7]) rfl

theorem ldImm (x : Reg) (nn : Byte) : Statement (.ldImm x nn) :=
  row_XNN 6 (by omega) x nn .ldImm "6XNN" "LD" (by simp [opcodeMap, opcodeRows0to7]) rfl

theorem addImm (x : Reg) (nn : Byte) : Statement (.addImm x nn) :=
  row_XNN 7 (by omega) x nn .addImm "7XNN" "ADD" (by simp [opcodeMap, opcodeRows0to7]) rfl

theorem ldReg (x y : Reg) : Statement (.ldReg x y) :=
  row_alu 0 (by omega) x y .ldReg "8XY0" "LD" (by simp [opcodeMap, opcodeRows8]) rfl

theorem orReg (x y : Reg) : Statement (.orReg x y) :=
  row_alu 1 (by omega) x y .orReg "8XY1" "OR" (by simp [opcodeMap, opcodeRows8]) rfl

theorem andReg (x y : Reg) : Statement (.andReg x y) :=
  row_alu 2 (by omega) x y .andReg "8XY2" "AND" (by simp [opcodeMap, opcodeRows8]) rfl

theorem xorReg (x y : Reg) : Statement (.xorReg x y) :=
  row_alu 3 (by omega) x y .xorReg "8XY3" "XOR" (by simp [opcodeMap, opcodeRows8]) rfl

theorem addReg (x y : Reg) : Statement (.addReg x y) :=
  row_alu 4 (by omega) x y .addReg "8XY4" "ADD" (by simp [opcodeMap, opcodeRows8]) rfl

theorem sub (x y : Reg) : Statement (.sub x y) :=
  row_alu 5 (by omega) x y .sub "8XY5" "SUB" (by simp [opcodeMap, opcodeRows8]) rfl

theorem shr (x y : Reg) : Statement (.shr x y) :=
  row_alu 6 (by omega) x y .shr "8XY6" "SHR" (by simp [opcodeMap, opcodeRows8]) rfl

theorem subn (x y : Reg) : Statement (.subn x y) :=
  row_alu 7 (by omega) x y .subn "8XY7" "SUBN" (by simp [opcodeMap, opcodeRows8]) rfl

theorem shl (x y : Reg) : Statement (.shl x y) :=
  row_alu 14 (by omega) x y .shl "8XYE" "SHL" (by simp [opcodeMap, opcodeRows8]) rfl

theorem sneReg (x y : Reg) : Statement (.sneReg x y) :=
  row_XY 9 (by omega) x y .sneReg "9XY0" "SNE" (by simp [opcodeMap, opcodeRows9toE]) rfl

theorem ldI (nnn : Addr12) : Statement (.ldI nnn) :=
  row_NNN 10 (by omega) nnn .ldI "ANNN" "LD" (by simp [opcodeMap, opcodeRows9toE]) rfl

theorem jpV0 (nnn : Addr12) : Statement (.jpV0 nnn) :=
  row_NNN 11 (by omega) nnn .jpV0 "BNNN" "JP" (by simp [opcodeMap, opcodeRows9toE]) rfl

theorem rnd (x : Reg) (nn : Byte) : Statement (.rnd x nn) :=
  row_XNN 12 (by omega) x nn .rnd "CXNN" "RND" (by simp [opcodeMap, opcodeRows9toE]) rfl

theorem drw (x y : Reg) (n : Nat) : Statement (.drw x y n) := fun h =>
  ⟨⟨"DXYN", "DRW", 0xF000, 0xD000, fun w => .drw (fieldX w) (fieldY w) (fieldN w)⟩,
    by simp [opcodeMap, opcodeRows9toE],
    (select_F000 _ 13 (by omega)).mpr (fieldOp_packXYN 13 (by omega) x y n), by
      have hn : n ≤ 15 := by simpa [Instr.wellFormed] using h
      simp only [encode, fieldX_packXYN 13 (by omega), fieldY_packXYN 13 (by omega), fieldN_packXYN 13 (by omega)]
      rw [Nat.mod_eq_of_lt (by omega)]⟩

theorem skp (x : Reg) : Statement (.skp x) :=
  row_X 14 (by omega) 0x9E x .skp "EX9E" "SKP" (by simp [opcodeMap, opcodeRows9toE]) rfl

theorem sknp (x : Reg) : Statement (.sknp x) :=
  row_X 14 (by omega) 0xA1 x .sknp "EXA1" "SKNP" (by simp [opcodeMap, opcodeRows9toE]) rfl

theorem ldVxDt (x : Reg) : Statement (.ldVxDt x) :=
  row_X 15 (by omega) 0x07 x .ldVxDt "FX07" "LD" (by simp [opcodeMap, opcodeRowsF]) rfl

theorem ldVxK (x : Reg) : Statement (.ldVxK x) :=
  row_X 15 (by omega) 0x0A x .ldVxK "FX0A" "LD" (by simp [opcodeMap, opcodeRowsF]) rfl

theorem ldDtVx (x : Reg) : Statement (.ldDtVx x) :=
  row_X 15 (by omega) 0x15 x .ldDtVx "FX15" "LD" (by simp [opcodeMap, opcodeRowsF]) rfl

theorem ldStVx (x : Reg) : Statement (.ldStVx x) :=
  row_X 15 (by omega) 0x18 x .ldStVx "FX18" "LD" (by simp [opcodeMap, opcodeRowsF]) rfl

theorem addI (x : Reg) : Statement (.addI x) :=
  row_X 15 (by omega) 0x1E x .addI "FX1E" "ADD" (by simp [opcodeMap, opcodeRowsF]) rfl

theorem ldF (x : Reg) : Statement (.ldF x) :=
  row_X 15 (by omega) 0x29 x .ldF "FX29" "LD" (by simp [opcodeMap, opcodeRowsF]) rfl

theorem ldB (x : Reg) : Statement (.ldB x) :=
  row_X 15 (by omega) 0x33 x .ldB "FX33" "LD" (by simp [opcodeMap, opcodeRowsF]) rfl

theorem stRegs (x : Reg) : Statement (.stRegs x) :=
  row_X 15 (by omega) 0x55 x .stRegs "FX55" "LD" (by simp [opcodeMap, opcodeRowsF]) rfl

theorem ldRegs (x : Reg) : Statement (.ldRegs x) :=
  row_X 15 (by omega) 0x65 x .ldRegs "FX65" "LD" (by simp [opcodeMap, opcodeRowsF]) rfl

end EncodedInItsRow

end Sys2Proof.Laws
end

