-- ==== Sys2Proof/Laws/Timer.lean ====
section
/-! SUPPORT. The timer stage (60_exceptions.md R220, R221): how often its loop goes round, and what it leaves. -/

namespace Sys2Proof.Machine

/-- A count-down step takes 1, with floor 0 (R30). -/
theorem countDown_toNat (t : Byte) : (countDown t).toNat = t.toNat - 1 := by
  unfold countDown
  split
  · next h => subst h; rfl
  · next h =>
    have hpos : 0 < t.toNat := by
      rcases Nat.eq_zero_or_pos t.toNat with h0 | h0
      · exact absurd (BitVec.eq_of_toNat_eq h0) h
      · exact h0
    have := t.isLt
    rw [BitVec.toNat_sub_of_le]
    · rfl
    · exact hpos

/-- The number of rounds on this hardware, where 60 ticks are a second. -/
theorem wholeTicks_hardware (t : Seconds) : wholeTicks hardware t = t.val.num.toNat * 60 / t.val.den := by
  have hd : hardware.tickPeriod.den = 60 := by rw [hardware_tickPeriod]; norm_num
  have hn : hardware.tickPeriod.num = 1 := by rw [hardware_tickPeriod]; norm_num
  rw [wholeTicks, hd, hn]
  simp

/-- The number of rounds, as a rational bound: `n` ticks fit into the time and `n + 1` do not. -/
theorem wholeTicks_bounds (t : Seconds) :
    (wholeTicks hardware t : ℚ) ≤ t.val * 60 ∧ t.val * 60 < wholeTicks hardware t + 1 := by
  obtain ⟨q, hq⟩ := t
  have hnum : (0 : Int) ≤ q.num := Rat.num_nonneg.mpr hq
  have hden : (0 : ℚ) < q.den := by exact_mod_cast q.den_pos
  have hval : q = (q.num.toNat : ℚ) / q.den := by
    have h1 : ((q.num.toNat : Int) : ℚ) = q.num := by rw [Int.toNat_of_nonneg hnum]
    have h2 : (q.num.toNat : ℚ) = q.num := by rw [← h1]; norm_cast
    rw [h2, Rat.num_div_den]
  have hmul : q * 60 = (q.num.toNat * 60 : ℕ) / q.den := by
    rw [Nat.cast_mul, mul_div_right_comm, ← hval]; norm_num
  rw [wholeTicks_hardware]
  simp only [hmul]
  constructor
  · rw [le_div_iff₀ hden]
    exact_mod_cast Nat.div_mul_le_self _ _
  · rw [div_lt_iff₀ hden]
    exact_mod_cast (by
      have h := Nat.div_add_mod (q.num.toNat * 60) q.den
      have h' := Nat.mod_lt (q.num.toNat * 60) q.den_pos
      nlinarith : q.num.toNat * 60 < (q.num.toNat * 60 / q.den + 1) * q.den)

/-- What `n` rounds of the loop leave, when `n` ticks fit into the accumulator and `n + 1` do not: each timer `n` lower
with floor 0, and the rest of the time. -/
theorem tickLoop_spec : ∀ (n : Nat) (t : Timers), (n : ℚ) ≤ t.acc.val * 60 → t.acc.val * 60 < n + 1 →
    (tickLoop hardware n t).dt.toNat = t.dt.toNat - n ∧ (tickLoop hardware n t).st.toNat = t.st.toNat - n ∧
    (tickLoop hardware n t).acc.val = t.acc.val - n / 60 := by
  intro n
  induction n with
  | zero => intro t _ _; simp [tickLoop]
  | succ k ih =>
    intro t h1 h2
    push_cast at h1 h2
    have hk : (0 : ℚ) ≤ k := Nat.cast_nonneg k
    have hle : hardware.tickPeriod ≤ t.acc.val := by rw [hardware_tickPeriod]; linarith
    rw [tickLoop, dif_pos hle]
    obtain ⟨a, b, c⟩ := ih ⟨countDown t.dt, countDown t.st, ⟨t.acc.val - hardware.tickPeriod, sub_nonneg.mpr hle⟩⟩
      (by simp only [hardware_tickPeriod]; linarith) (by simp only [hardware_tickPeriod]; linarith)
    refine ⟨?_, ?_, ?_⟩
    · rw [a, countDown_toNat]; omega
    · rw [b, countDown_toNat]; omega
    · rw [c]; simp only [hardware_tickPeriod]; push_cast; ring

end Sys2Proof.Machine
end

