-- ==== Sys2Proof/Laws/Step.lean ====
section
/-! SUPPORT. What a meaning and a step can do. -/

namespace Sys2Proof.Machine

/-- Every meaning answers a next state. -/
theorem exec_answers (i : Instr) (s : State) : ∃ t, exec i s = .next t := by
  cases i with
  | ldVxK x =>
    simp only [exec, execLdVxK, execLdVxKWith]
    cases s.lowestKeyWith hardware <;> exact ⟨_, rfl⟩
  | _ => exact ⟨_, rfl⟩

/-- On this hardware a word that is an instruction runs it. -/
theorem executeWord_ok {s : State} {i : Instr} (h : decodeWord s.word = .ok i) :
    executeWord hardware exec s = exec i s := by
  rw [executeWord, show decodeWith hardware s.word = .ok i from h]

/-- On this hardware any other word is reported. -/
theorem executeWord_error {s : State} {err : DecodeReject} (h : decodeWord s.word = .error err) :
    executeWord hardware exec s = .next (s.report hardware .decodeError) := by
  rw [executeWord, show decodeWith hardware s.word = .error err from h]

theorem finishCycle_next (e : Seconds) (t : State) :
    finishCycle hardware e (.next t) = .next (if t.fault.isSome then t else timerStage e t) := rfl

/-- What a cycle on a running core does: fetch out of range, a decode error, or an instruction (30_encoding.md R70). -/
theorem runCycle_cases (e : Seconds) (r : Byte) (s : State) (h : s.fault = none) :
    (s.pc.toNat > 0xFFE ∧ runCycle e r s = .next ((s.beginCycle r).latchFault .fetchOutOfRange s.pc 0)) ∨
    (s.pc.toNat ≤ 0xFFE ∧ (∃ err, decodeWord s.nextWord = .error err) ∧
      runCycle e r s = .next (timerStage e ((s.beginCycle r).fetch.report hardware .decodeError))) ∨
    (s.pc.toNat ≤ 0xFFE ∧ ∃ i t, decodeWord s.nextWord = .ok i ∧ exec i (s.beginCycle r).fetch = .next t ∧
      runCycle e r s = .next (if t.fault.isSome then t else timerStage e t)) := by
  have hr : s.fault.isSome = false := by rw [h]; rfl
  by_cases hp : s.pc.toNat > 0xFFE
  · refine .inl ⟨hp, ?_⟩
    rw [runCycle, runCycleWith, hr, if_neg (by simp), hardware_memSize, if_neg (by omega)]
  right
  have hrun : runCycle e r s = finishCycle hardware e (executeWord hardware exec (s.beginCycle r).fetch) := by
    rw [runCycle, runCycleWith, hr, if_neg (by simp), hardware_memSize, if_pos (by omega), keep_hardware]
  have hw : (s.beginCycle r).fetch.word = s.nextWord := rfl
  rw [hrun]
  cases hd : decodeWord s.nextWord with
  | error err =>
    have hf : ((s.beginCycle r).fetch.report hardware .decodeError).fault = none := h
    refine .inl ⟨by omega, ⟨err, rfl⟩, ?_⟩
    rw [executeWord_error (hw.symm ▸ hd), finishCycle_next, hf, if_neg (by simp)]
  | ok i =>
    obtain ⟨t, ht⟩ := exec_answers i (s.beginCycle r).fetch
    exact .inr ⟨by omega, i, t, rfl, ht, by rw [executeWord_ok (hw.symm ▸ hd), ht, finishCycle_next]⟩

/-- A cycle on a halted core does nothing (60_exceptions.md R215). -/
theorem runCycle_halted (e : Seconds) (r : Byte) (s : State) (h : s.fault ≠ none) : runCycle e r s = .next s := by
  rw [runCycle, runCycleWith, if_pos (by cases hf : s.fault <;> simp_all)]

/-- A step performs the next command on the state with it taken from the queue. -/
theorem step_of_command {s : State} {c : Command} (h : s.nextCommand = c) : step s = perform c s.takeCommand := by
  unfold step; rw [h]

/-- A step whose next command is a cycle that can fetch: decode, execute and finish. -/
theorem step_of_runs {s : State} {e : Seconds} {r : Byte} (h : s.Runs e r) :
    step s = finishCycle hardware e (executeWord hardware exec (s.takeCommand.beginCycle r).fetch) := by
  have hf : s.takeCommand.fault.isSome = false := by rw [show s.takeCommand.fault = none from h.running]; rfl
  have hp : s.takeCommand.pc.toNat + 1 < 0x1000 := Nat.lt_succ_of_le (Nat.succ_le_succ h.inRange)
  rw [step_of_command h.command]
  change runCycleWith hardware exec e r s.takeCommand = _
  rw [runCycleWith, hf, if_neg (by simp), hardware_memSize, if_pos hp, keep_hardware]

/-! ### Each command, as one equation -/

theorem perform_reset (s : State) : perform .reset s = .next (resetCommand s) := rfl
theorem perform_load (bytes : List Byte) (s : State) :
    perform (.load bytes) s = .next (loadCommand hardware bytes s) := rfl
theorem perform_cycle (e : Seconds) (r : Byte) (s : State) : perform (.cycle e r) s = runCycle e r s := rfl
theorem perform_setKey (k : Int) (pressed : Bool) (s : State) :
    perform (.setKey k pressed) s = .next (setKeyCommand hardware k pressed s) := rfl
theorem perform_readFb (s : State) : perform .readFb s = .next (readFbCommand hardware s) := rfl
theorem perform_status (s : State) : perform .status s = .next (statusCommand s) := rfl

/-! ### Runs of the core -/

/-- A run of one more step. -/
theorem run_succ {s t : State} (k : Nat) (h : step s = .next t) : core.run (k + 1) s = core.run k t := by
  have h' : core.step s = .next t := h
  simp only [Host.Core.run, h']

/-- A run of one more step, at its end. -/
theorem run_snoc {t u : State} (h : step t = .next u) : ∀ (k : Nat) {s : State}, core.run k s = .next t →
    core.run (k + 1) s = .next u
  | 0, s, hs => by
    have e : s = t := Host.Outcome.next.inj hs
    subst e
    rw [run_succ 0 h]
    rfl
  | k + 1, s, hs => by
    obtain ⟨q, hq⟩ : ∃ q, core.step s = .next q := by
      simp only [Host.Core.run] at hs
      cases hc : core.step s with
      | next q => exact ⟨q, rfl⟩
      | fault r => rw [hc] at hs; cases hs
      | refused r => rw [hc] at hs; cases hs
    rw [run_succ k hq] at hs
    rw [run_succ (k + 1) hq]
    exact run_snoc h k hs

end Sys2Proof.Machine
end

