-- ==== Sys2Proof/Tests/Slice0.lean ====
section
/-! SUPPORT. Tests: the check of well-formedness, every constructor's decoding of a word written out from R84, single
steps whose expected results are those of 95_test_vectors.md (named by its ids), and a witness for the hypotheses of
every obligation. -/

namespace Sys2Proof.Tests

open Sys2Proof.Machine Sys2Proof.Claims

/-! ### Helpers -/

/-- The start state of 95_test_vectors.md: reset, with a word at pc, about to run a cycle with no elapsed time, r = 0. -/
def start (a w : Word) : State :=
  { State.reset with pc := a, mem := memWriteWord [] a.toNat w, pending := [.cycle Seconds.zero 0] }

/-- The same cycle with other inputs. -/
def State.inputs (s : State) (e : Seconds) (r : Byte) : State := { s with pending := [.cycle e r] }

/-- A byte of memory in the start state. -/
def State.poke (s : State) (a : Nat) (b : Byte) : State := { s with mem := memWrite s.mem a b }

/-- One field of the state after one step. -/
def after {α : Type} (s : State) (f : State → α) : Option α :=
  match step s with
  | .next t => some (f t)
  | .fault _ => none
  | .refused _ => none

/-- One tick of time, 1/60 s. -/
def tick : Seconds := ⟨1 / 60, by norm_num⟩

/-- The reset state with one command pending. -/
def commanded (c : Command) : State := { State.reset with pending := [c] }

/-! ### Well-formedness: the one check, and a term it refuses -/

theorem test_drw_of_16_rows_is_ill_formed : (Instr.drw 0 0 16).wellFormed = false := by decide
theorem test_drw_of_15_rows_is_well_formed : (Instr.drw 0 0 15).wellFormed = true := by decide

/-! ### Decoding: a word of every row of R84, written out by hand -/

theorem test_decode_cls : decodeWord 0x00E0 = .ok .cls := by decide
theorem test_decode_cls_ignored_bits : decodeWord 0x01E0 = .ok .cls := by decide
theorem test_decode_ret : decodeWord 0x00EE = .ok .ret := by decide
theorem test_decode_jp : decodeWord 0x1ABC = .ok (.jp 0xABC) := by decide
theorem test_decode_call : decodeWord 0x2304 = .ok (.call 0x304) := by decide
theorem test_decode_seImm : decodeWord 0x3342 = .ok (.seImm 3 0x42) := by decide
theorem test_decode_sneImm : decodeWord 0x4341 = .ok (.sneImm 3 0x41) := by decide
theorem test_decode_seReg : decodeWord 0x5120 = .ok (.seReg 1 2) := by decide
theorem test_decode_seReg_ignored_bits : decodeWord 0x5127 = .ok (.seReg 1 2) := by decide
theorem test_decode_ldImm : decodeWord 0x6A2B = .ok (.ldImm 10 0x2B) := by decide
theorem test_decode_addImm : decodeWord 0x7120 = .ok (.addImm 1 0x20) := by decide
theorem test_decode_ldReg : decodeWord 0x8120 = .ok (.ldReg 1 2) := by decide
theorem test_decode_orReg : decodeWord 0x8121 = .ok (.orReg 1 2) := by decide
theorem test_decode_andReg : decodeWord 0x8122 = .ok (.andReg 1 2) := by decide
theorem test_decode_xorReg : decodeWord 0x8123 = .ok (.xorReg 1 2) := by decide
theorem test_decode_addReg : decodeWord 0x8F14 = .ok (.addReg 15 1) := by decide
theorem test_decode_sub : decodeWord 0x8125 = .ok (.sub 1 2) := by decide
theorem test_decode_shr : decodeWord 0x8126 = .ok (.shr 1 2) := by decide
theorem test_decode_subn : decodeWord 0x8127 = .ok (.subn 1 2) := by decide
theorem test_decode_shl : decodeWord 0x812E = .ok (.shl 1 2) := by decide
theorem test_decode_sneReg : decodeWord 0x912F = .ok (.sneReg 1 2) := by decide
theorem test_decode_ldI : decodeWord 0xA123 = .ok (.ldI 0x123) := by decide
theorem test_decode_jpV0 : decodeWord 0xB300 = .ok (.jpV0 0x300) := by decide
theorem test_decode_rnd : decodeWord 0xC30F = .ok (.rnd 3 0x0F) := by decide
theorem test_decode_drw : decodeWord 0xD125 = .ok (.drw 1 2 5) := by decide
theorem test_decode_skp : decodeWord 0xE49E = .ok (.skp 4) := by decide
theorem test_decode_sknp : decodeWord 0xE4A1 = .ok (.sknp 4) := by decide
theorem test_decode_ldVxDt : decodeWord 0xF107 = .ok (.ldVxDt 1) := by decide
theorem test_decode_ldVxK : decodeWord 0xF30A = .ok (.ldVxK 3) := by decide
theorem test_decode_ldDtVx : decodeWord 0xF015 = .ok (.ldDtVx 0) := by decide
theorem test_decode_ldStVx : decodeWord 0xF218 = .ok (.ldStVx 2) := by decide
theorem test_decode_addI : decodeWord 0xF21E = .ok (.addI 2) := by decide
theorem test_decode_ldF : decodeWord 0xF029 = .ok (.ldF 0) := by decide
theorem test_decode_ldB : decodeWord 0xFE33 = .ok (.ldB 14) := by decide
theorem test_decode_stRegs : decodeWord 0xFF55 = .ok (.stRegs 15) := by decide
theorem test_decode_ldRegs : decodeWord 0xF265 = .ok (.ldRegs 2) := by decide
theorem test_decode_rejects_system : decodeWord 0x00E1 = .error (.systemFamily 0x00E1) := by decide
theorem test_decode_rejects_alu : decodeWord 0x800F = .error (.aluFamily 0x800F) := by decide
theorem test_decode_rejects_key : decodeWord 0xE19F = .error (.keyFamily 0xE19F) := by decide
theorem test_decode_rejects_misc : decodeWord 0xF0FF = .error (.miscFamily 0xF0FF) := by decide
theorem test_decode_bytes_big_endian :
    decodeBytes [0xA1, 0x23, 0xFF] = .ok (.ldI 0x123, [0xFF]) := by decide
theorem test_decode_table_word : decodeTableWord 16 0xD125 = some (.drw 1 2 5) := by decide
theorem test_encode_shl : encode (.shl 10 11) = 0x8ABE := by decide
theorem test_encode_drw : encode (.drw 1 2 15) = 0xD12F := by decide

/-! ### The cycle (S4, DEC-1 to DEC-14) -/

theorem test_S4_first_fetch :
    ((start 0x200 0xFFAA).fetch.word, (start 0x200 0xFFAA).fetch.pc) = (0xFFAA, 0x202) := by decide
theorem test_DEC1_last_word : after (start 0xFFE 0x00E0) (fun t => (t.pc, t.fault)) = some (0x1000, none) := by decide
theorem test_DEC1_off_the_end : after { start 0x200 0 with pc := 0x1000 } (fun t => (t.pc, t.fault)) =
    some (0x1000, some ⟨.fetchOutOfRange, 0x1000, 0⟩) := by decide
theorem test_DEC2_odd_pc : after (start 0x201 0x6042) (fun t => (t.getV 0, t.pc)) = some (0x42, 0x203) := by decide
theorem test_DEC3_decode_error : after (start 0x200 0x0000) (fun t => (t.output, t.pc)) =
    some ([.diag ⟨.decodeError, 0x200, 0x0000, 1⟩], 0x202) := by decide
theorem test_DEC9_timer_runs_after_decode_error :
    after (State.inputs { start 0x200 0xFFFF with dt := 3 } tick 0) (fun t => t.dt) = some 2 := by decide +kernel
theorem test_DEC14_halted_ignores_cycle :
    after (State.inputs { start 0x200 0x6042 with fault := some ⟨.fetchOutOfRange, 0x1000, 0⟩, dt := 5 } tick 0)
      (fun t => (t.dt, t.pc, t.getV 0)) = some (5, 0x200, 0) := by decide +kernel
theorem test_withFetchWord_from_reset :
    after (State.reset.withFetchWord 16 0x6A2B) (fun t => t.getV 10) = some 0x2B := by decide

/-! ### Display (DSP, S8) -/

theorem test_DSP1_cls_keeps_VF :
    after (((start 0x200 0x00E0).setPixel 5 5 true).setV vf 0x33) (fun t => (t.pixel 5 5, t.getV vf)) =
      some (false, 0x33) := by decide
theorem test_DSP6_collision :
    after (State.poke { ((start 0x200 0xD011).setPixel 0 0 true) with index := 0x300 } 0x300 0xC0)
      (fun t => (t.pixel 0 0, t.pixel 1 0, t.getV vf)) = some (false, true, 1) := by decide
theorem test_DSP2_wraps_at_the_right_edge :
    after (State.poke { ((start 0x200 0xD011).setV 0 63) with index := 0x300 } 0x300 0xFF)
      (fun t => (t.pixel 63 0, t.pixel 0 0, t.pixel 6 0, t.pixel 7 0, t.getV vf)) =
      some (true, true, true, false, 0) := by decide
theorem test_DSP10_position_is_read_before_VF_is_cleared :
    after (State.poke { (((start 0x200 0xDF01).setV vf 10).setV 0 2) with index := 0x300 } 0x300 0x80)
      (fun t => (t.pixel 10 2, t.getV vf)) = some (true, 0) := by decide
theorem test_DSP8_fault_before_any_write :
    after { ((start 0x200 0xD012).setV vf 0x33) with index := 0xFFF }
      (fun t => (t.fault, t.getV vf, t.pc)) = some (some ⟨.memOutOfRange, 0x200, 0xD012⟩, 0x33, 0x200) := by decide
theorem test_DSP5_no_rows_no_fault :
    after { ((start 0x200 0xD010).setV vf 1) with index := 0xFFFF } (fun t => (t.fault, t.getV vf)) =
      some (none, 0) := by decide

/-! ### Control (CTL) -/

theorem test_CTL1_underflow : after (start 0x200 0x00EE) (fun t => (t.output, t.pc, t.sp)) =
    some ([.diag ⟨.stackUnderflow, 0x200, 0x00EE, 1⟩], 0x202, 0) := by decide
theorem test_CTL2_ret_pops_the_top :
    after { start 0x200 0x00EE with stack := (State.reset.stack.set 0 0x206).set 1 0x402, sp := 2 }
      (fun t => (t.pc, t.sp, t.stack.get 1)) = some (0x402, 1, 0x402) := by decide
theorem test_CTL3_jp : after (start 0x200 0x1ABC) (fun t => t.pc) = some 0xABC := by decide
theorem test_CTL5_call : after (start 0x204 0x2300) (fun t => (t.stack.get 0, t.sp, t.pc)) =
    some (0x206, 1, 0x300) := by decide
theorem test_CTL7_overflow : after { start 0x200 0x2300 with sp := 16 } (fun t => (t.fault, t.sp, t.pc)) =
    some (some ⟨.stackOverflow, 0x200, 0x2300⟩, 16, 0x200) := by decide
theorem test_CTL8_seImm : after ((start 0x200 0x3342).setV 3 0x42) (fun t => t.pc) = some 0x204 := by decide
theorem test_CTL16_skip_to_the_end : after (start 0xFFC 0x3000) (fun t => t.pc) = some 0x1000 := by decide
theorem test_CTL9_sneImm : after ((start 0x200 0x4342).setV 3 0x42) (fun t => t.pc) = some 0x202 := by decide
theorem test_CTL11_seReg : after ((start 0x200 0x5120).setV 1 1) (fun t => t.pc) = some 0x202 := by decide
theorem test_CTL12_sneReg : after ((start 0x200 0x9120).setV 1 1) (fun t => t.pc) = some 0x204 := by decide
theorem test_CTL13_sneReg_same : after (start 0x200 0x9110) (fun t => t.pc) = some 0x202 := by decide
theorem test_CTL15_jpV0_is_not_masked : after ((start 0x200 0xBFFF).setV 0 0xFF) (fun t => t.pc) =
    some 0x10FE := by decide

/-! ### Register loads and ALU (ALU, VF = 0x77 at the start) -/

/-- The start state of the ALU vectors. -/
def alu (w : Word) (v1 v2 : Byte) : State := (((start 0x200 w).setV vf 0x77).setV 1 v1).setV 2 v2

/-- V1 and VF after the word. -/
def aluResult (s : State) : Option (Byte × Byte) := after s (fun t => (t.getV 1, t.getV vf))

theorem test_ALU1_ldImm : after (alu 0x6A2B 0 0) (fun t => (t.getV 10, t.getV vf)) = some (0x2B, 0x77) := by decide
theorem test_ALU2_addImm_wraps : aluResult (alu 0x7120 0xF0 0) = some (0x10, 0x77) := by decide
theorem test_ALU5_ldReg : aluResult (alu 0x8120 0 0x55) = some (0x55, 0x77) := by decide
theorem test_ALU6_or : aluResult (alu 0x8121 0x0F 0x30) = some (0x3F, 0x77) := by decide
theorem test_ALU7_and : aluResult (alu 0x8122 0x3C 0x0F) = some (0x0C, 0x77) := by decide
theorem test_ALU8_xor : aluResult (alu 0x8123 0xFF 0x0F) = some (0xF0, 0x77) := by decide
theorem test_ALU11_add_carries : aluResult (alu 0x8124 0x80 0x80) = some (0x00, 1) := by decide
theorem test_ALU13_add_into_VF :
    after (((start 0x200 0x8F14).setV vf 0x10).setV 1 0xF5) (fun t => t.getV vf) = some 1 := by decide
theorem test_ALU16_sub_of_equals : aluResult (alu 0x8125 0x03 0x03) = some (0x00, 0) := by decide
theorem test_ALU17_sub_wraps : aluResult (alu 0x8125 0x00 0x01) = some (0xFF, 0) := by decide
theorem test_ALU18_shr_ignores_Y : aluResult (alu 0x8126 0x05 0xFF) = some (0x02, 1) := by decide
theorem test_ALU21_shr_of_VF : after ((start 0x200 0x8F06).setV vf 0x03) (fun t => t.getV vf) = some 1 := by decide
theorem test_ALU22_shr_parameter :
    (match stepWith { hardware with shiftSrcVY := true } (alu 0x8126 0x04 0xFF) with
      | .next t => some (t.getV 1, t.getV vf)
      | _ => none) = some (0x7F, 1) := by decide
theorem test_widths_of_a_smaller_machine :
    (match stepWith { hardware with iWidth := 12, pcWidth := 12, numV := 8 }
        { (alu 0xF11E 2 0) with index := 0xFFF, pc := 0xFFE, mem := [(0xFFE, 0xF1), (0xFFF, 0x1E)] } with
      | .next t => some (t.index, t.pc, t.getV 1, t.getV vf)
      | _ => none) = some (0x001, 0x000, 2, 0) := by decide
theorem test_ALU23_subn : aluResult (alu 0x8127 0x03 0x05) = some (0x02, 1) := by decide
theorem test_ALU24_subn_of_equals : aluResult (alu 0x8127 0x05 0x05) = some (0x00, 0) := by decide
theorem test_ALU26_shl : aluResult (alu 0x810E 0x81 0) = some (0x02, 1) := by decide
theorem test_ALU27_shl_into_bit_7 : aluResult (alu 0x810E 0x40 0) = some (0x80, 0) := by decide
theorem test_ALU29_rnd_masks :
    after (State.inputs (start 0x200 0xC30F) Seconds.zero 0xB7) (fun t => t.getV 3) = some 0x07 := by decide

/-! ### Index register and memory (MEM) -/

theorem test_MEM1_ldI : after { start 0x200 0xA123 with index := 0xFFFF } (fun t => t.index) = some 0x0123 := by decide
theorem test_MEM2_addI_past_0xFFF :
    after { ((start 0x200 0xF21E).setV 2 2).setV vf 0x77 with index := 0x0FFF } (fun t => (t.index, t.getV vf)) =
      some (0x1001, 0x77) := by decide
theorem test_MEM3_addI_wraps :
    after { (start 0x200 0xF21E).setV 2 1 with index := 0xFFFF } (fun t => t.index) = some 0x0000 := by decide
theorem test_MEM4_glyph_of_digit : after ((start 0x200 0xF029).setV 0 0x0F) (fun t => t.index) =
    some 0x09B := by decide
theorem test_MEM4_glyph_is_not_masked : after ((start 0x200 0xF029).setV 0 0xFF) (fun t => t.index) =
    some 0x54B := by decide
theorem test_MEM7_bcd_at_the_end :
    after { (start 0x200 0xF033).setV 0 123 with index := 0xFFD }
      (fun t => (memRead t.mem 0xFFD, memRead t.mem 0xFFE, memRead t.mem 0xFFF)) = some (1, 2, 3) := by decide
theorem test_MEM8_bcd_past_the_end :
    after { (start 0x200 0xF033).setV 0 123 with index := 0xFFE }
      (fun t => (t.fault, memRead t.mem 0xFFE)) = some (some ⟨.memOutOfRange, 0x200, 0xF033⟩, 0) := by decide
theorem test_MEM9_store_keeps_I :
    after { (((start 0x200 0xF255).setV 0 1).setV 1 2).setV 2 3 with index := 0x400 }
      (fun t => (memRead t.mem 0x400, memRead t.mem 0x402, memRead t.mem 0x403, t.index)) =
      some (1, 3, 0, 0x400) := by decide
theorem test_MEM11_store_past_the_end :
    after { (start 0x200 0xFF55).setV 0 1 with index := 0xFF1 } (fun t => (t.fault.isSome, memRead t.mem 0xFF1)) =
      some (true, 0) := by decide
theorem test_MEM12_load :
    after (State.poke (State.poke { (start 0x200 0xF265).setV 3 0x99 with index := 0x300 } 0x300 2) 0x302 4)
      (fun t => (t.getV 0, t.getV 2, t.getV 3, t.index)) = some (2, 4, 0x99, 0x300) := by decide
theorem test_MEM14_load_past_the_end :
    after { (start 0x200 0xF065).setV 0 7 with index := 0x1000 } (fun t => (t.fault.isSome, t.getV 0)) =
      some (true, 7) := by decide
theorem test_store_of_zero_keeps_the_canonical_form :
    memWrite [(0x300, 5), (0x301, 6)] 0x300 0 = [(0x301, 6)] := by decide

/-! ### Keys and timers (KEY, TMR) -/

/-- The start state with one key pressed. -/
def pressing (s : State) (k : Fin 16) : State := { s with key := s.key.set k.val true k.isLt }

theorem test_KEY1_skp : after (pressing ((start 0x200 0xE49E).setV 4 10) 10) (fun t => t.pc) = some 0x204 := by decide
theorem test_KEY3_skp_out_of_range : after ((start 0x200 0xE49E).setV 4 0x10) (fun t => (t.fault, t.pc)) =
    some (some ⟨.keyOutOfRange, 0x200, 0xE49E⟩, 0x200) := by decide
theorem test_KEY4_sknp : after ((start 0x200 0xE4A1).setV 4 10) (fun t => t.pc) = some 0x204 := by decide
theorem test_KEY6_sknp_out_of_range : after ((start 0x200 0xE4A1).setV 4 0xFF) (fun t => t.fault.map (·.cause)) =
    some (some .keyOutOfRange) := by decide
theorem test_KEY7_wait_lets_the_timer_run :
    after (State.inputs { start 0x200 0xF30A with dt := 5 } tick 0) (fun t => (t.pc, t.getV 3, t.dt)) =
      some (0x200, 0, 4) := by decide +kernel
theorem test_S11_lowest_key : after (pressing (pressing (start 0x200 0xF30A) 9) 7) (fun t => (t.getV 3, t.pc)) =
    some (7, 0x202) := by decide
theorem test_KEY9_read_before_tick :
    after (State.inputs { start 0x200 0xF107 with dt := 5 } tick 0) (fun t => (t.getV 1, t.dt)) =
      some (5, 4) := by decide +kernel
theorem test_KEY10_write_before_tick :
    after (State.inputs ((start 0x200 0xF015).setV 0 60) tick 0) (fun t => t.dt) = some 59 := by decide +kernel
theorem test_KEY12_sound : after ((start 0x200 0xF218).setV 2 5) (fun t => (t.st, t.soundActive)) =
    some (5, true) := by decide +kernel
theorem test_TMR1_two_ticks : (timerStage ⟨1 / 30, by norm_num⟩ { State.reset with dt := 10, st := 3 }).dt = 8 ∧
    (timerStage ⟨1 / 30, by norm_num⟩ { State.reset with dt := 10, st := 3 }).acc.val = 0 := by decide +kernel
theorem test_TMR3_floor : (timerStage ⟨1 / 10, by norm_num⟩ { State.reset with dt := 2 }).dt = 0 := by decide +kernel
theorem test_TMR4_remainder : (timerStage ⟨1 / 50, by norm_num⟩ { State.reset with dt := 10 }).acc.val = 1 / 300 := by
  decide +kernel

/-! ### Commands (CMD, S2, S3) -/

theorem test_S3_font_and_program :
    after (commanded (.load [0x12, 0x00])) (fun t => (memRead t.mem 0x050, memRead t.mem 0x055, memRead t.mem 0x09F,
      memRead t.mem 0x200, t.output)) = some (0xF0, 0x20, 0x80, 0x12, [.loaded .ok]) := by decide +kernel
theorem test_CMD2_too_large :
    after { (commanded (.load (List.replicate 3585 0xAA))).setV 0 5 with mem := [(0x050, 1)] }
      (fun t => (t.output, t.getV 0, memRead t.mem 0x050)) = some ([.loaded .tooLarge], 0, 0) := by decide +kernel
theorem test_CMD5_key_16_changes_nothing : after (commanded (.setKey 16 true)) (fun t => t.key) =
    some State.reset.key := by decide
theorem test_CMD6_key_while_halted :
    after { commanded (.setKey 3 true) with fault := some ⟨.keyOutOfRange, 0x200, 0xE49E⟩ }
      (fun t => (t.keyDown 3, t.fault.isSome)) = some (true, true) := by decide

/-! ### Witnesses: a concrete state and operands that meet all the hypotheses of each obligation, clause by clause at the
boundary of its range -/

/-- The inputs of a start state's cycle, and that it runs. -/
theorem start_runs (a w : Word) (h : a.toNat ≤ 0xFFE) : (start a w).Runs Seconds.zero 0 := ⟨rfl, rfl, h⟩

theorem witness_DecodeOfEncodeIsTheInstruction : (Instr.drw 15 15 15).wellFormed = true := by decide

theorem witness_EncodeOfDecodeIsTheExaminedWord : decodeWord 0x9EFF = .ok (.sneReg 14 15) := by decide

theorem witness_DecodingIsTotalAndUnambiguous : fieldOp 0xDFFF ∉ [0x0, 0x8, 0xE, 0xF] := by decide

theorem witness_StepRunsTheDecodedInstruction : ∃ t, (start 0xFFE 0x1FFF).Runs Seconds.zero 0 ∧
    decodeBytes [memRead (start 0xFFE 0x1FFF).mem 0xFFE, memRead (start 0xFFE 0x1FFF).mem 0xFFF]
      = .ok (.jp 0xFFF, []) ∧
    exec (.jp 0xFFF) { start 0xFFE 0x1FFF with pending := [], rand := 0, cycles := 1, word := 0x1FFF, pc := 0x1000 }
      = .next t :=
  ⟨_, start_runs _ _ (by decide), by decide, rfl⟩

theorem witness_StepRunsTheDecodedInstruction_faulting : ∃ t, (start 0x200 0x2300).Runs Seconds.zero 0 ∧
    exec (.call 0x300)
      { start 0x200 0x2300 with sp := 16, pending := [], rand := 0, cycles := 1, word := 0x2300, pc := 0x202 } = .next t ∧
    t.fault ≠ none :=
  ⟨_, start_runs _ _ (by decide), rfl, by decide⟩

theorem witness_FetchReadsBigEndianOrFaults :
    (start 0xFFE 0).pc.toNat ≤ 0xFFE ∧
    (start 0xFFF 0).nextCommand = .cycle Seconds.zero 0 ∧ (start 0xFFF 0).fault = none ∧
    (start 0xFFF 0).pc.toNat > 0xFFE :=
  ⟨by decide, rfl, rfl, by decide⟩

theorem witness_DecodeErrorReportsAndGoesOn :
    (start 0xFFE 0x800F).Runs Seconds.zero 0 ∧
    decodeWord (start 0xFFE 0x800F).nextWord = .error (.aluFamily 0x800F) :=
  ⟨start_runs _ _ (by decide), by decide⟩

/-- A halted core with one command pending. -/
def haltedWith (c : Command) : State := { commanded c with fault := some ⟨.stackOverflow, 0x200, 0x2200⟩, sp := 16 }

theorem witness_HaltedCoreIgnoresCycles :
    (haltedWith (.cycle tick 7)).Halted ∧ (haltedWith (.cycle tick 7)).nextCommand = .cycle tick 7 ∧
    (haltedWith (.setKey 15 true)).nextCommand = .setKey ((15 : Fin 16).val : Int) true ∧
    (haltedWith .readFb).nextCommand = .readFb ∧ (haltedWith .status).nextCommand = .status :=
  ⟨by simp [State.Halted, haltedWith], rfl, rfl, rfl, rfl⟩

theorem witness_FaultingCycleIsNullified_fetch : ∃ t, step (start 0xFFF 0) = .next t ∧
    t.fault = some ⟨.fetchOutOfRange, 0xFFF, 0⟩ := ⟨_, rfl, by decide⟩

theorem witness_FaultingCycleIsNullified_memory : ∃ t, step { start 0x200 0xFF65 with index := 0xFF1 } = .next t ∧
    t.fault = some ⟨.memOutOfRange, 0x200, 0xFF65⟩ := ⟨_, rfl, by decide⟩

theorem witness_FaultsHappenExactlyOnTheirConditions : ∃ t,
    (start 0xFFE 0x6042).nextCommand = .cycle Seconds.zero 0 ∧ (start 0xFFE 0x6042).fault = none ∧
    step (start 0xFFE 0x6042) = .next t := ⟨_, rfl, rfl, rfl⟩

theorem witness_AtMostOneFaultOrDiagnostic : ∃ t,
    (start 0x200 0x00EE).nextCommand = .cycle Seconds.zero 0 ∧ (start 0x200 0x00EE).fault = none ∧
    step (start 0x200 0x00EE) = .next t ∧ t.output ≠ [] := ⟨_, rfl, rfl, rfl, by decide⟩

theorem witness_PcAfterACycle : ∃ t,
    (start 0xFFE 0x3000).Runs Seconds.zero 0 ∧ step (start 0xFFE 0x3000) = .next t :=
  ⟨_, start_runs _ _ (by decide), rfl⟩

theorem witness_RegistersWrittenAreThoseOfTheTable : ∃ t,
    exec (.shl 15 15) ((start 0x200 0x8FFE).setV vf 0x81) = .next t ∧ t.getV vf = 1 := ⟨_, rfl, by decide⟩

theorem witness_RegistersReadAreThoseOfTheTable : ∃ t t',
    (∀ r ∈ readRegs (.shr 1 2), (State.reset.v.set 2 0xFF).get r = State.reset.getV r) ∧
    exec (.shr 1 2) State.reset = .next t ∧ exec (.shr 1 2) { State.reset with v := State.reset.v.set 2 0xFF } = .next t' :=
  ⟨_, _, by decide, rfl, rfl⟩

theorem witness_EachStoreHasItsOwnWriters : ∃ t, exec (.ldB 0) State.reset = .next t ∧ t.fault = none :=
  ⟨_, rfl, by decide⟩

theorem witness_StepKeepsTheInvariant : ∃ t,
    (commanded (.cycle Seconds.zero 0)).Inv ∧ step (commanded (.cycle Seconds.zero 0)) = .next t :=
  ⟨_, ⟨by decide, by simp [commanded, State.reset, State.resetWith, Seconds.zero], by decide, by decide⟩, rfl⟩

theorem witness_ReachableStatesMeetR42 : ∃ t,
    core.run 2 { State.reset with pending := [.load [0xBF, 0xFF], .setKey 3 true] } = .next t := ⟨_, rfl⟩

theorem witness_DrwXorsTheSpriteAndSetsCollision :
    SpriteInMemory { State.reset with index := 0xFF1 } 15 ∧ SpriteInMemory { State.reset with index := 0xFFFF } 0 ∧
    ¬ SpriteInMemory { State.reset with index := 0xFF2 } 15 := by
  unfold SpriteInMemory
  decide

theorem witness_DrawingTwiceErases : ∃ t u,
    SpriteInMemory (State.poke { State.reset with index := 0xFFF } 0xFFF 0x81) 1 ∧
    exec (.drw 0 1 1) (State.poke { State.reset with index := 0xFFF } 0xFFF 0x81) = .next t ∧
    exec (.drw 0 1 1) t = .next u ∧ t.pixel 7 0 = true ∧ u.getV vf = 1 :=
  ⟨_, _, .inr (by decide), rfl, rfl, by decide, by decide⟩

theorem witness_RetPopsTheCallStack :
    ({ State.reset with sp := 1 } : State).sp.val = (0 : Fin 16).val + 1 ∧
    ({ State.reset with sp := 16 } : State).sp.val = (15 : Fin 16).val + 1 ∧ State.reset.sp = 0 := by decide

theorem witness_CallPushesTheReturnAddress :
    State.reset.sp.val = (0 : Fin 16).val ∧ ({ State.reset with sp := 15 } : State).sp.val = (15 : Fin 16).val ∧
    ({ State.reset with sp := 16 } : State).sp.val = 16 := by decide

theorem witness_CallThenReturnRestores : ∃ t u, ({ State.reset with sp := 15 } : State).sp.val < 16 ∧
    exec (.call 0xFFF) { State.reset with sp := 15 } = .next t ∧ exec .ret t = .next u :=
  ⟨_, _, by decide, rfl, rfl⟩

theorem witness_AddSetsCarry : (0 : Reg) ≠ vf := by decide

theorem witness_SubSetsNotBorrow : (14 : Reg) ≠ vf := by decide

theorem witness_SubnSetsNotBorrow : (14 : Reg) ≠ vf := by decide

theorem witness_ShrShiftsVxRight : (1 : Reg) ≠ vf := by decide

theorem witness_ShlShiftsVxLeft : (1 : Reg) ≠ vf := by decide

theorem witness_BcdStoresTheDigits :
    State.reset.mem.wf ∧ ({ State.reset with index := 0xFFD } : State).index.toNat + 2 ≤ 0xFFF ∧
    ({ State.reset with index := 0xFFE } : State).index.toNat + 2 > 0xFFF := by decide

theorem witness_StoreRegistersWritesV0ToVx :
    State.reset.mem.wf ∧ ({ State.reset with index := 0xFF0 } : State).index.toNat + (15 : Reg).val ≤ 0xFFF ∧
    ({ State.reset with index := 0xFF1 } : State).index.toNat + (15 : Reg).val > 0xFFF := by decide

theorem witness_LoadRegistersReadsV0ToVx :
    ({ State.reset with index := 0xFFF } : State).index.toNat + (0 : Reg).val ≤ 0xFFF ∧
    ({ State.reset with index := 0x1000 } : State).index.toNat + (0 : Reg).val > 0xFFF := by decide

theorem witness_MemoryReadsTheByteLastWritten :
    Memory.wf [(0x000, 1), (0xFFF, 2)] ∧ (0 : Nat) ≠ 0xFFF ∧ (0xFFF : Nat) < 0x1000 := by decide

/-- A store over the word after it, with I at an address in or just before that word. -/
def overwriting (w i : Word) : State := { (start 0x200 w).setV 0 123 with index := i }

theorem witness_StoredCodeIsFetchedNext : ∃ t, (overwriting 0xF055 0x203).Runs Seconds.zero 0 ∧
    (overwriting 0xF055 0x203).mem.wf ∧ step (overwriting 0xF055 0x203) = .next t ∧
    decodeWord (overwriting 0xF055 0x203).nextWord = .ok (.stRegs 0) ∧
    (overwriting 0xF055 0x203).index.toNat + (0 : Reg).val ≤ 0xFFF ∧
    (overwriting 0xF055 0x203).effAddr (0 : Reg).val = t.pc.toNat + (1 : Fin 2).val ∧
    (∀ k : Reg, k ≤ 0 → (overwriting 0xF055 0x203).effAddr k.val ≠ t.pc.toNat + (0 : Fin 2).val) :=
  ⟨_, ⟨rfl, rfl, by decide⟩, by decide, rfl, by decide, by decide, by decide, by decide⟩

theorem witness_StoredCodeIsFetchedNext_bcd : ∃ t, (overwriting 0xF033 0x201).Runs Seconds.zero 0 ∧
    (overwriting 0xF033 0x201).mem.wf ∧ step (overwriting 0xF033 0x201) = .next t ∧
    decodeWord (overwriting 0xF033 0x201).nextWord = .ok (.ldB 0) ∧
    (overwriting 0xF033 0x201).index.toNat + 2 ≤ 0xFFF ∧
    (overwriting 0xF033 0x201).effAddr 1 = t.pc.toNat + (0 : Fin 2).val ∧
    (overwriting 0xF033 0x201).effAddr 2 = t.pc.toNat + (1 : Fin 2).val ∧
    (overwriting 0xF033 0x202).effAddr 0 = t.pc.toNat + (0 : Fin 2).val ∧
    (∀ k < 3, (overwriting 0xF033 0x300).effAddr k ≠ t.pc.toNat + (1 : Fin 2).val) :=
  ⟨_, ⟨rfl, rfl, by decide⟩, by decide, rfl, by decide, by decide, by decide, by decide, by decide, by decide⟩

theorem witness_SkipsOnKeys :
    ((State.reset.setV 4 15).getV 4).toNat = (15 : Fin 16).val ∧ (State.reset.getV 4).toNat = (0 : Fin 16).val ∧
    ((State.reset.setV 4 16).getV 4).toNat > 15 := by decide

theorem witness_KeyWaitStoresTheLowestKey :
    ((pressing State.reset 15).key.get 15 = true ∧ ∀ j : Fin 16, j < 15 → (pressing State.reset 15).key.get j = false) ∧
    ((pressing State.reset 0).key.get 0 = true ∧ ∀ j : Fin 16, j < 0 → (pressing State.reset 0).key.get j = false) ∧
    ∀ k : Fin 16, State.reset.key.get k = false := by decide

theorem witness_CadenceIsIndependentOfTheCycles :
    State.reset.acc.val < 1 / 60 ∧ State.reset.acc.val = 0 ∧
    totalSeconds [⟨1 / 2, by norm_num⟩, Seconds.zero, ⟨1 / 2, by norm_num⟩] = 1 := by
  refine ⟨?_, rfl, ?_⟩ <;> norm_num [State.reset, State.resetWith, Seconds.zero, totalSeconds]

theorem witness_TimerStageRunsAfterExecute : ∃ t u v,
    (start 0x200 0xF107).Runs Seconds.zero 0 ∧ step (start 0x200 0xF107) = .next t ∧
    decodeWord (start 0x200 0xF107).nextWord = .ok (.ldVxDt 1) ∧
    (start 0x200 0xF015).Runs Seconds.zero 0 ∧ step (start 0x200 0xF015) = .next u ∧
    decodeWord (start 0x200 0xF015).nextWord = .ok (.ldDtVx 0) ∧
    (start 0x200 0xFF18).Runs Seconds.zero 0 ∧ step (start 0x200 0xFF18) = .next v ∧
    decodeWord (start 0x200 0xFF18).nextWord = .ok (.ldStVx 15) :=
  ⟨_, _, _, start_runs _ _ (by decide), rfl, by decide, start_runs _ _ (by decide), rfl, by decide,
    start_runs _ _ (by decide), rfl, by decide⟩

theorem witness_ResetGivesTheResetValues : (haltedWith .reset).nextCommand = .reset := rfl

theorem witness_LoadInstallsProgramAndFont :
    (commanded (.load [])).nextCommand = .load [] ∧ ([] : List Byte).length ≤ 3584 ∧
    (commanded (.load (List.replicate 3584 0xAA))).nextCommand = .load (List.replicate 3584 0xAA) ∧
    (List.replicate 3584 (0xAA : Byte)).length ≤ 3584 :=
  ⟨rfl, by decide, rfl, by rw [List.length_replicate]⟩

theorem witness_LoadTooLargeResets :
    (commanded (.load (List.replicate 3585 0xAA))).nextCommand = .load (List.replicate 3585 0xAA) ∧
    (List.replicate 3585 (0xAA : Byte)).length > 3584 ∧
    ({ hardware with loadResetOnFail := false } : Config).loadResetOnFail = false ∧
    (List.replicate 3585 (0xAA : Byte)).length > ({ hardware with loadResetOnFail := false } : Config).maxProgLen :=
  ⟨rfl, by rw [List.length_replicate]; decide, rfl, by rw [List.length_replicate]; decide⟩

theorem witness_SetKeyWritesOneKey :
    (commanded (.setKey 15 true)).nextCommand = .setKey 15 true ∧
    (commanded (.setKey 16 true)).nextCommand = .setKey 16 true ∧
    (commanded (.setKey (-1) false)).nextCommand = .setKey (-1) false := ⟨rfl, rfl, rfl⟩

theorem witness_ReadFramebufferIsRowMajor : (commanded .readFb).nextCommand = .readFb := rfl

theorem witness_StatusGivesLatchAndSound : (haltedWith .status).nextCommand = .status := rfl

theorem witness_OutputDoesNotInfluenceTheState : ∃ t, step (start 0x200 0x00EE) = .next t ∧ t.output ≠ [] :=
  ⟨_, rfl, by decide⟩

theorem witness_IdleLoopChangesOnlyTimers : (start 0xFFE 0x1FFE).Runs Seconds.zero 0 ∧ (start 0xFFE 0x1FFE).Idle :=
  ⟨start_runs _ _ (by decide), 0xFFE, by decide, by decide⟩

theorem witness_WaitingReturnsToTheSamePc :
    (start 0x200 0xF30A).Runs Seconds.zero 0 ∧ (start 0x200 0xF30A).Waiting := by
  refine ⟨start_runs _ _ (by decide), ⟨3, by decide⟩, ?_⟩
  exact lowestKey_none.mp (by decide)

end Sys2Proof.Tests
end

section
/-! Encoding (30_encoding.md): the decoder agrees with the opcode map (R84), fetch is big-endian or faults (R71), and a
decode error is reported and goes on (R80). -/

namespace Sys2Proof

/-! ### What each mask of the opcode map selects, for any match value -/

theorem and_F000_eq_iff (w v : Word) :
    w &&& (0xF000 : Word) = v ↔ fieldOp w = v.toNat / 0x1000 ∧ v.toNat % 0x1000 = 0 := by
  rw [← BitVec.toNat_inj, and_F000]
  omega

theorem and_F00F_eq_iff (w v : Word) :
    w &&& (0xF00F : Word) = v ↔ fieldOp w = v.toNat / 0x1000 ∧ fieldN w = v.toNat % 0x1000 := by
  have := fieldN_lt w
  rw [← BitVec.toNat_inj, and_F00F]
  omega

theorem and_F0FF_eq_iff (w v : Word) :
    w &&& (0xF0FF : Word) = v ↔ fieldOp w = v.toNat / 0x1000 ∧ (fieldNN w).toNat = v.toNat % 0x1000 := by
  have := (fieldNN w).isLt
  rw [← BitVec.toNat_inj, and_F0FF]
  omega

/-! ### The instruction words of the families with sub-opcodes (R76 to R79) -/

theorem decodeSystem_ok_iff (w : Word) (i : Instr) : decodeSystem Machine.hardware w = .ok i ↔
    (fieldNN w).toNat = 0xE0 ∧ i = .cls ∨ (fieldNN w).toNat = 0xEE ∧ i = .ret := by
  rw [decodeSystem_hardware]
  split <;> simp_all [@eq_comm _ _ i]

theorem decodeAlu_ok_iff (w : Word) (i : Instr) : decodeAlu w = .ok i ↔
    fieldN w = 0x0 ∧ i = .ldReg (fieldX w) (fieldY w) ∨ fieldN w = 0x1 ∧ i = .orReg (fieldX w) (fieldY w) ∨
    fieldN w = 0x2 ∧ i = .andReg (fieldX w) (fieldY w) ∨ fieldN w = 0x3 ∧ i = .xorReg (fieldX w) (fieldY w) ∨
    fieldN w = 0x4 ∧ i = .addReg (fieldX w) (fieldY w) ∨ fieldN w = 0x5 ∧ i = .sub (fieldX w) (fieldY w) ∨
    fieldN w = 0x6 ∧ i = .shr (fieldX w) (fieldY w) ∨ fieldN w = 0x7 ∧ i = .subn (fieldX w) (fieldY w) ∨
    fieldN w = 0xE ∧ i = .shl (fieldX w) (fieldY w) := by
  unfold decodeAlu
  split <;> simp_all [@eq_comm _ _ i]

theorem decodeKey_ok_iff (w : Word) (i : Instr) : decodeKey w = .ok i ↔
    (fieldNN w).toNat = 0x9E ∧ i = .skp (fieldX w) ∨ (fieldNN w).toNat = 0xA1 ∧ i = .sknp (fieldX w) := by
  unfold decodeKey
  split <;> simp_all [@eq_comm _ _ i]

theorem decodeMisc_ok_iff (w : Word) (i : Instr) : decodeMisc w = .ok i ↔
    (fieldNN w).toNat = 0x07 ∧ i = .ldVxDt (fieldX w) ∨ (fieldNN w).toNat = 0x0A ∧ i = .ldVxK (fieldX w) ∨
    (fieldNN w).toNat = 0x15 ∧ i = .ldDtVx (fieldX w) ∨ (fieldNN w).toNat = 0x18 ∧ i = .ldStVx (fieldX w) ∨
    (fieldNN w).toNat = 0x1E ∧ i = .addI (fieldX w) ∨ (fieldNN w).toNat = 0x29 ∧ i = .ldF (fieldX w) ∨
    (fieldNN w).toNat = 0x33 ∧ i = .ldB (fieldX w) ∨ (fieldNN w).toNat = 0x55 ∧ i = .stRegs (fieldX w) ∨
    (fieldNN w).toNat = 0x65 ∧ i = .ldRegs (fieldX w) := by
  unfold decodeMisc
  split <;> simp_all [@eq_comm _ _ i]

/-! ### The four parts of the opcode map, each the decoder on a range of operation nibbles -/

/-- Some row of the list selects the word, and the instruction is what that row reads out of it (R84). -/
def ReadBySomeRow (rows : List OpcodeRow) (w : Word) (i : Instr) : Prop :=
  ∃ r ∈ rows, w &&& r.mask = r.value ∧ i = r.build w

theorem readBySomeRow_append (rs qs : List OpcodeRow) (w : Word) (i : Instr) :
    ReadBySomeRow (rs ++ qs) w i ↔ ReadBySomeRow rs w i ∨ ReadBySomeRow qs w i := by
  simp only [ReadBySomeRow, List.mem_append, or_and_right, exists_or]

theorem readBySomeRow_cons (r : OpcodeRow) (rs : List OpcodeRow) (w : Word) (i : Instr) :
    ReadBySomeRow (r :: rs) w i ↔ w &&& r.mask = r.value ∧ i = r.build w ∨ ReadBySomeRow rs w i := by
  simp only [ReadBySomeRow, List.mem_cons, exists_eq_or_imp]

theorem not_readBySomeRow_nil (w : Word) (i : Instr) : ¬ ReadBySomeRow [] w i := by
  simp [ReadBySomeRow]

theorem readBySomeRow_0to7 (w : Word) (i : Instr) :
    ReadBySomeRow opcodeRows0to7 w i ↔ fieldOp w ≤ 7 ∧ decodeWord w = .ok i := by
  rw [decodeWord_eq]
  simp only [opcodeRows0to7, readBySomeRow_cons, not_readBySomeRow_nil, and_F000_eq_iff, and_F0FF_eq_iff]
  have h := fieldOp_lt w
  generalize fieldOp w = op at h ⊢
  interval_cases op <;> simp [decodeSystem_ok_iff, @eq_comm _ _ i]

theorem readBySomeRow_8 (w : Word) (i : Instr) :
    ReadBySomeRow opcodeRows8 w i ↔ fieldOp w = 8 ∧ decodeWord w = .ok i := by
  rw [decodeWord_eq]
  simp only [opcodeRows8, readBySomeRow_cons, not_readBySomeRow_nil, and_F00F_eq_iff]
  by_cases h : fieldOp w = 8
  · simp [h, decodeAlu_ok_iff]
  · simp [h]

theorem readBySomeRow_9toE (w : Word) (i : Instr) :
    ReadBySomeRow opcodeRows9toE w i ↔ (9 ≤ fieldOp w ∧ fieldOp w ≤ 14) ∧ decodeWord w = .ok i := by
  rw [decodeWord_eq]
  simp only [opcodeRows9toE, readBySomeRow_cons, not_readBySomeRow_nil, and_F000_eq_iff, and_F0FF_eq_iff]
  have h := fieldOp_lt w
  generalize fieldOp w = op at h ⊢
  interval_cases op <;> simp [decodeKey_ok_iff, @eq_comm _ _ i]

theorem readBySomeRow_F (w : Word) (i : Instr) :
    ReadBySomeRow opcodeRowsF w i ↔ fieldOp w = 15 ∧ decodeWord w = .ok i := by
  rw [decodeWord_eq]
  simp only [opcodeRowsF, readBySomeRow_cons, not_readBySomeRow_nil, and_F0FF_eq_iff]
  by_cases h : fieldOp w = 15
  · simp [h, decodeMisc_ok_iff]
  · simp [h]

/-- The two-level decoder and the opcode map decode every word alike (R84). -/
theorem decodeWord_ok_iff_readBySomeRow (w : Word) (i : Instr) :
    decodeWord w = .ok i ↔ ReadBySomeRow opcodeMap w i := by
  have hop : fieldOp w ≤ 7 ∨ fieldOp w = 8 ∨ (9 ≤ fieldOp w ∧ fieldOp w ≤ 14) ∨ fieldOp w = 15 := by
    have := fieldOp_lt w
    omega
  simp only [opcodeMap, readBySomeRow_append, readBySomeRow_0to7, readBySomeRow_8, readBySomeRow_9toE,
    readBySomeRow_F]
  tauto

/-- Settles O4: the map's rows split by operation nibble, and each part is the decoder on its range of nibbles. -/
theorem decodingFollowsTheOpcodeMap : Obligations.DecodingFollowsTheOpcodeMap :=
  ⟨rfl, decodeWord_ok_iff_readBySomeRow⟩

end Sys2Proof

namespace Sys2Proof.Machine

/-! ### What the stages of a cycle leave unchanged -/

theorem takeCommand_frame (s : State) : Frame [.pending] s s.takeCommand := by
  intro p hp
  cases p <;> simp_all [SamePart]

theorem beginCycle_frame (s : State) (r : Byte) : Frame [.rand, .cycles] s (s.beginCycle r) := by
  intro p hp
  cases p <;> simp_all [SamePart]

theorem fetch_frame (s : State) : Frame [.pc, .word] s s.fetch := by
  intro p hp
  cases p <;> simp_all [SamePart]

/-- A fault latched at pc itself leaves pc. -/
theorem latchFault_pc_frame (s : State) (c : FaultCause) (w : Word) : Frame [.fault] s (s.latchFault c s.pc w) := by
  intro p hp
  cases p <;> simp_all [SamePart]

theorem report_frame (s : State) (code : DiagCode) : Frame [.output] s (s.report hardware code) := by
  intro p hp
  cases p <;> simp_all [SamePart, State.report]

/-- The state a cycle starts from: the command taken and the cycle's inputs in place. -/
theorem takeCommand_beginCycle_frame (s : State) (r : Byte) :
    Frame [.rand, .pending, .cycles] s (s.takeCommand.beginCycle r) :=
  ((takeCommand_frame s).mono (by decide)).trans ((beginCycle_frame _ r).mono (by decide))

/-! ### Fetch and decode errors -/

/-- The word at pc is big-endian: the byte at pc is its bits 15:8 (30_encoding.md R71). -/
theorem highByte_nextWord (s : State) : highByte s.nextWord = memRead s.mem s.pc.toNat := highByte_wordOfBytes _ _

theorem lowByte_nextWord (s : State) : lowByte s.nextWord = memRead s.mem (s.pc.toNat + 1) := lowByte_wordOfBytes _ _

/-- Fetch in range adds 2 to pc with no wrap (R71). -/
theorem fetch_pc_toNat {s : State} (h : s.pc.toNat ≤ 0xFFE) : s.fetch.pc.toNat = s.pc.toNat + 2 := by
  rw [fetch_pc, BitVec.toNat_add, show (2 : Word).toNat = 2 from rfl, Nat.mod_eq_of_lt (by omega)]

/-- A cycle on a running core whose pc is above 0xFFE latches the fetch fault and does nothing else (R71). -/
theorem step_fetchOutOfRange {s : State} {e : Seconds} {r : Byte} (hc : s.nextCommand = .cycle e r)
    (hf : s.fault = none) (hp : s.pc.toNat > 0xFFE) :
    step s = .next ((s.takeCommand.beginCycle r).latchFault .fetchOutOfRange s.pc 0) := by
  rw [step_of_command hc, perform_cycle]
  obtain ⟨-, h⟩ | ⟨hle, -⟩ | ⟨hle, -⟩ := runCycle_cases e r s.takeCommand hf
  · exact h
  · exact absurd hle (Nat.not_le.mpr hp)
  · exact absurd hle (Nat.not_le.mpr hp)

/-- A step on a decode error reports it and runs the timer stage (R80). -/
theorem step_decodeError {s : State} {e : Seconds} {r : Byte} {err : DecodeReject} (h : s.Runs e r)
    (hd : decodeWord s.nextWord = .error err) :
    step s = .next (timerStage e ((s.takeCommand.beginCycle r).fetch.report hardware .decodeError)) := by
  have hf : ((s.takeCommand.beginCycle r).fetch.report hardware .decodeError).fault = none := h.running
  rw [step_of_runs h, executeWord_error (s := (s.takeCommand.beginCycle r).fetch) hd, finishCycle_next, hf,
    if_neg (by simp)]

/-- Settles O8: the bytes of a fetched word are read back out of it, and the fetch fault is one latch. -/
theorem fetchReadsBigEndianOrFaults : Obligations.FetchReadsBigEndianOrFaults := by
  constructor
  · intro s h
    exact ⟨highByte_nextWord s, lowByte_nextWord s, fetch_pc_toNat h, fetch_frame s⟩
  · intro s e r hc hf hp
    exact ⟨_, step_fetchOutOfRange hc hf hp, rfl,
      ((takeCommand_beginCycle_frame s r).mono (by decide)).trans ((latchFault_pc_frame _ _ 0).mono (by decide))⟩

/-- Settles O9: the cycle's stages change pc, the model's own parts and the output, then the timer stage runs. -/
theorem decodeErrorReportsAndGoesOn : Obligations.DecodeErrorReportsAndGoesOn := by
  intro s e r err h hd
  refine ⟨_, s.cycles + 1, ?_, rfl, ?_, step_decodeError h hd⟩
  · exact (((takeCommand_beginCycle_frame s r).mono (by decide)).trans ((fetch_frame _).mono (by decide))).trans
      ((report_frame _ _).mono (by decide))
  · simp [State.report, State.nextWord]

end Sys2Proof.Machine
end

section
/-! Display (40_display.md): the words of each row of the opcode map (30_encoding.md R84), and `00E0` (R100). -/

namespace Sys2Proof

/-- The rows of the map build the 34 constructors of `Instr` in their order, whatever the word. -/
theorem opcodeMap_ctorIdx (w : Word) : opcodeMap.map (fun r => (r.build w).ctorIdx) = List.range 34 := rfl

/-- Two rows that build one instruction are the same row. -/
theorem opcodeMap_build_inj {r q : OpcodeRow} (w : Word) (hr : r ∈ opcodeMap) (hq : q ∈ opcodeMap)
    (h : r.build w = q.build w) : r = q := by
  have nodup : (opcodeMap.map (fun r => (r.build w).ctorIdx)).Nodup := opcodeMap_ctorIdx w ▸ List.nodup_range
  exact List.inj_on_of_nodup_map nodup hr hq (congrArg Instr.ctorIdx h)

end Sys2Proof

namespace Sys2Proof.Machine

/-- The words of an instruction are those of its row of the map (R84): no other row builds it. -/
theorem encodedBy_of_mem_opcodeMap {r : OpcodeRow} (hr : r ∈ opcodeMap) : EncodedBy r.mask r.value r.build := by
  intro w
  rw [decodeWord_ok_iff_readBySomeRow]
  constructor
  · exact fun hw => ⟨r, hr, hw, rfl⟩
  · rintro ⟨q, hq, hw, hb⟩
    rwa [opcodeMap_build_inj w hr hq hb]

theorem encodedBy_cls : EncodedBy 0xF0FF 0x00E0 (fun _ => .cls) :=
  encodedBy_of_mem_opcodeMap (r := ⟨"00E0", "CLS", 0xF0FF, 0x00E0, fun _ => .cls⟩)
    (by simp [opcodeMap, opcodeRows0to7])

/-! ### Clearing the framebuffer -/

theorem exec_cls (s : State) : exec .cls s = .next { s with fb := clearFramebuffer } := rfl

theorem pixel_of_fb_clear {s : State} (h : s.fb = clearFramebuffer) (px : Fin 64) (py : Fin 32) :
    s.pixel px py = false := by
  simp [State.pixel, h, clearFramebuffer, Vector.get_eq_getElem]

/-- Replacing the framebuffer leaves every other part. -/
theorem setFb_frame (s : State) (fb : Vector (Vector Bool 64) 32) : Frame [.fb] s { s with fb := fb } := by
  intro p hp
  refine SamePart.of_eq ?_
  cases p <;> simp_all

/-- Settles O22: the row `00E0` of the map, then the framebuffer of the one state update `00E0` makes. -/
theorem clsClearsTheFramebuffer : Obligations.ClsClearsTheFramebuffer :=
  ⟨encodedBy_cls, fun s => ⟨_, exec_cls s, pixel_of_fb_clear rfl, setFb_frame s _⟩⟩

end Sys2Proof.Machine
end

section
/-! Control (41_control.md): the jumps (R111, R117), the call (R112) and the register skips (R113 to R116). -/

namespace Sys2Proof.Machine

/-! ### The words of the jumps, the call and the register skips (30_encoding.md R84) -/

/-- `encodedBy_of_mem_opcodeMap` for a row written out as it stands in the map. -/
theorem encodedBy_of_row (pattern mnemonic : String) {mask value : Word} {build : Word → Instr}
    (h : ⟨pattern, mnemonic, mask, value, build⟩ ∈ opcodeMap) : EncodedBy mask value build :=
  encodedBy_of_mem_opcodeMap h

theorem encodedBy_jp : EncodedBy 0xF000 0x1000 (fun w => .jp (fieldNNN w)) :=
  encodedBy_of_row "1NNN" "JP" (by simp [opcodeMap, opcodeRows0to7])

theorem encodedBy_call : EncodedBy 0xF000 0x2000 (fun w => .call (fieldNNN w)) :=
  encodedBy_of_row "2NNN" "CALL" (by simp [opcodeMap, opcodeRows0to7])

theorem encodedBy_seImm : EncodedBy 0xF000 0x3000 (fun w => .seImm (fieldX w) (fieldNN w)) :=
  encodedBy_of_row "3XNN" "SE" (by simp [opcodeMap, opcodeRows0to7])

theorem encodedBy_sneImm : EncodedBy 0xF000 0x4000 (fun w => .sneImm (fieldX w) (fieldNN w)) :=
  encodedBy_of_row "4XNN" "SNE" (by simp [opcodeMap, opcodeRows0to7])

theorem encodedBy_seReg : EncodedBy 0xF000 0x5000 (fun w => .seReg (fieldX w) (fieldY w)) :=
  encodedBy_of_row "5XY0" "SE" (by simp [opcodeMap, opcodeRows0to7])

theorem encodedBy_sneReg : EncodedBy 0xF000 0x9000 (fun w => .sneReg (fieldX w) (fieldY w)) :=
  encodedBy_of_row "9XY0" "SNE" (by simp [opcodeMap, opcodeRows9toE])

theorem encodedBy_jpV0 : EncodedBy 0xF000 0xB000 (fun w => .jpV0 (fieldNNN w)) :=
  encodedBy_of_row "BNNN" "JP" (by simp [opcodeMap, opcodeRows9toE])

/-! ### Jump targets: a 12-bit address, and its sum with a byte, both fit in pc -/

theorem addrOfNNN_toNat (nnn : Addr12) : (addrOfNNN nnn).toNat = nnn.toNat := by
  rw [addrOfNNN, BitVec.toNat_ofNat, Nat.mod_eq_of_lt (nnn.isLt.trans (by decide))]

theorem addrPlusV0_toNat (nnn : Addr12) (s : State) : (addrPlusV0 nnn s).toNat = nnn.toNat + (s.getV 0).toNat := by
  have hn := nnn.isLt
  have hv := (s.getV 0).isLt
  rw [addrPlusV0, BitVec.toNat_ofNat, Nat.mod_eq_of_lt (by omega)]

/-! ### Jumps -/

theorem exec_jp (nnn : Addr12) (s : State) : exec (.jp nnn) s = .next (s.jumpTo (addrOfNNN nnn)) := rfl

theorem exec_jpV0 (nnn : Addr12) (s : State) : exec (.jpV0 nnn) s = .next (s.jumpTo (addrPlusV0 nnn s)) := rfl

theorem jumpTo_frame (s : State) (target : Word) : Frame [.pc] s (s.jumpTo target) := by
  intro p hp
  cases p <;> simp_all [SamePart]

/-- Settles O26: both jumps are one `jumpTo`, to a target that does not wrap. -/
theorem jumpsSetPc : Obligations.JumpsSetPc :=
  ⟨encodedBy_jp, encodedBy_jpV0, fun nnn s =>
    ⟨⟨_, exec_jp nnn s, addrOfNNN_toNat nnn, jumpTo_frame s _⟩,
     ⟨_, exec_jpV0 nnn s, addrPlusV0_toNat nnn s, jumpTo_frame s _⟩⟩⟩

/-! ### The call -/

/-- Writing a slot, sp and pc leaves every other part. -/
theorem setStackSpPc_frame (s : State) (stack : Vector Word 16) (sp : Fin 17) (pc : Word) :
    Frame [.pc, .stack, .sp] s { s with stack := stack, sp := sp, pc := pc } := by
  intro p hp
  refine SamePart.of_eq ?_
  cases p <;> simp_all

/-- A push below the depth: slot sp takes pc and the other slots stay, sp counts it, pc is the target (R112). -/
theorem pushAndJump_of_lt {s : State} {k : Fin 16} (hk : s.sp.val = k.val) (target : Word) :
    (s.pushAndJump hardware target).stack.get k = s.pc ∧
    (∀ j, j ≠ k → (s.pushAndJump hardware target).stack.get j = s.stack.get j) ∧
    (s.pushAndJump hardware target).sp.val = k.val + 1 ∧ (s.pushAndJump hardware target).pc = target ∧
    Frame [.pc, .stack, .sp] s (s.pushAndJump hardware target) := by
  obtain ⟨h, e⟩ | ⟨h, -⟩ := pushAndJump_cases s target
  · rw [e]
    refine ⟨?_, fun j hj => ?_, by simp only [hk], rfl, setStackSpPc_frame s _ _ _⟩
    · simp [Vector.get_eq_getElem, hk]
    · have hne : s.sp.val ≠ j.val := fun hs => hj (Fin.ext (hs.symm.trans hk))
      simp [Vector.get_eq_getElem, Vector.getElem_set_ne _ _ hne]
  · omega

/-- A push at the depth is the stack-overflow fault (R112). -/
theorem pushAndJump_of_full {s : State} (h : s.sp.val = 16) (target : Word) :
    FaultsWith .stackOverflow s (s.pushAndJump hardware target) := by
  obtain ⟨hlt, -⟩ | ⟨-, e⟩ := pushAndJump_cases s target
  · omega
  · exact e ▸ raiseFault_spec s .stackOverflow

/-- Settles O27: the call is one push, below the depth or at it. -/
theorem callPushesTheReturnAddress : Obligations.CallPushesTheReturnAddress := by
  refine ⟨encodedBy_call, fun nnn s k hk => ?_, fun nnn s h => ⟨_, exec_call nnn s, pushAndJump_of_full h _⟩⟩
  obtain ⟨hslot, hother, hsp, hpc, hframe⟩ := pushAndJump_of_lt hk (addrOfNNN nnn)
  exact ⟨_, exec_call nnn s, hslot, hother, hsp, (congrArg _ hpc).trans (addrOfNNN_toNat nnn), hframe⟩

/-! ### Register skips -/

theorem exec_seImm (x : Reg) (nn : Byte) (s : State) :
    exec (.seImm x nn) s = .next (s.skipIf (decide (s.getV x = nn))) := rfl

theorem exec_sneImm (x : Reg) (nn : Byte) (s : State) :
    exec (.sneImm x nn) s = .next (s.skipIf (decide (s.getV x ≠ nn))) := rfl

theorem exec_seReg (x y : Reg) (s : State) :
    exec (.seReg x y) s = .next (s.skipIf (decide (s.getV x = s.getV y))) := rfl

theorem exec_sneReg (x y : Reg) (s : State) :
    exec (.sneReg x y) s = .next (s.skipIf (decide (s.getV x ≠ s.getV y))) := rfl

/-- A skip on equality (R113, R115). -/
theorem skipIf_eq (s : State) (a b : Byte) :
    (s.skipIf (decide (a = b))).pc = (if a = b then s.pc + 2 else s.pc) ∧
    Frame [.pc] s (s.skipIf (decide (a = b))) := by
  simpa only [decide_eq_true_eq] using skipIf_spec s (decide (a = b))

/-- A skip on inequality (R114, R116). -/
theorem skipIf_ne (s : State) (a b : Byte) :
    (s.skipIf (decide (a ≠ b))).pc = (if a = b then s.pc else s.pc + 2) ∧
    Frame [.pc] s (s.skipIf (decide (a ≠ b))) := by
  simpa only [decide_eq_true_eq, ite_not] using skipIf_spec s (decide (a ≠ b))

/-- Settles O29: each of the four is one `skipIf`, on equality or on inequality. -/
theorem skipsOnRegisters : Obligations.SkipsOnRegisters :=
  ⟨encodedBy_seImm, encodedBy_sneImm, encodedBy_seReg, encodedBy_sneReg, fun x y nn s =>
    ⟨⟨_, exec_seImm x nn s, skipIf_eq s _ _⟩, ⟨_, exec_sneImm x nn s, skipIf_ne s _ _⟩,
     ⟨_, exec_seReg x y s, skipIf_eq s _ _⟩, ⟨_, exec_sneReg x y s, skipIf_ne s _ _⟩⟩⟩

end Sys2Proof.Machine
end

section
/-! Register loads and the ALU (42_alu.md): what a register write and a flagged ALU operation (R132) leave in the
registers, and the arithmetic of each operation (R130 to R142). -/

namespace Sys2Proof.Machine

/-! ### The words of the register loads, the ALU group and the random byte (30_encoding.md R84) -/

theorem encodedBy_ldImm : EncodedBy 0xF000 0x6000 (fun w => .ldImm (fieldX w) (fieldNN w)) :=
  encodedBy_of_row "6XNN" "LD" (by simp [opcodeMap, opcodeRows0to7])

theorem encodedBy_addImm : EncodedBy 0xF000 0x7000 (fun w => .addImm (fieldX w) (fieldNN w)) :=
  encodedBy_of_row "7XNN" "ADD" (by simp [opcodeMap, opcodeRows0to7])

theorem encodedBy_ldReg : EncodedBy 0xF00F 0x8000 (fun w => .ldReg (fieldX w) (fieldY w)) :=
  encodedBy_of_row "8XY0" "LD" (by simp [opcodeMap, opcodeRows8])

theorem encodedBy_orReg : EncodedBy 0xF00F 0x8001 (fun w => .orReg (fieldX w) (fieldY w)) :=
  encodedBy_of_row "8XY1" "OR" (by simp [opcodeMap, opcodeRows8])

theorem encodedBy_andReg : EncodedBy 0xF00F 0x8002 (fun w => .andReg (fieldX w) (fieldY w)) :=
  encodedBy_of_row "8XY2" "AND" (by simp [opcodeMap, opcodeRows8])

theorem encodedBy_xorReg : EncodedBy 0xF00F 0x8003 (fun w => .xorReg (fieldX w) (fieldY w)) :=
  encodedBy_of_row "8XY3" "XOR" (by simp [opcodeMap, opcodeRows8])

theorem encodedBy_addReg : EncodedBy 0xF00F 0x8004 (fun w => .addReg (fieldX w) (fieldY w)) :=
  encodedBy_of_row "8XY4" "ADD" (by simp [opcodeMap, opcodeRows8])

theorem encodedBy_sub : EncodedBy 0xF00F 0x8005 (fun w => .sub (fieldX w) (fieldY w)) :=
  encodedBy_of_row "8XY5" "SUB" (by simp [opcodeMap, opcodeRows8])

theorem encodedBy_shr : EncodedBy 0xF00F 0x8006 (fun w => .shr (fieldX w) (fieldY w)) :=
  encodedBy_of_row "8XY6" "SHR" (by simp [opcodeMap, opcodeRows8])

theorem encodedBy_subn : EncodedBy 0xF00F 0x8007 (fun w => .subn (fieldX w) (fieldY w)) :=
  encodedBy_of_row "8XY7" "SUBN" (by simp [opcodeMap, opcodeRows8])

theorem encodedBy_shl : EncodedBy 0xF00F 0x800E (fun w => .shl (fieldX w) (fieldY w)) :=
  encodedBy_of_row "8XYE" "SHL" (by simp [opcodeMap, opcodeRows8])

theorem encodedBy_rnd : EncodedBy 0xF000 0xC000 (fun w => .rnd (fieldX w) (fieldNN w)) :=
  encodedBy_of_row "CXNN" "RND" (by simp [opcodeMap, opcodeRows9toE])

/-! ### One register write -/

theorem getV_setV_same (s : State) (x : Reg) (b : Byte) : (s.setV x b).getV x = b := by
  rw [getV_setV, if_pos rfl]

theorem getV_setV_of_ne (s : State) {x r : Reg} (h : r ≠ x) (b : Byte) : (s.setV x b).getV r = s.getV r := by
  rw [getV_setV, if_neg h]

theorem setV_frame (s : State) (x : Reg) (b : Byte) : Frame [.regs] s (s.setV x b) := by
  intro p hp
  refine SamePart.of_eq ?_
  cases p <;> simp_all

/-- A register write leaves every other register and every other part. -/
theorem setV_frames (s : State) (x : Reg) (b : Byte) :
    RegsSameExcept [x] s (s.setV x b) ∧ Frame [.regs] s (s.setV x b) :=
  ⟨fun _ hr => getV_setV_of_ne s (List.ne_of_not_mem_cons hr) b, setV_frame s x b⟩

/-! ### Immediate load and add, copy and logic, and the random byte: each is one register write -/

theorem exec_ldImm (x : Reg) (nn : Byte) (s : State) : exec (.ldImm x nn) s = .next (s.setV x nn) := rfl

theorem exec_addImm (x : Reg) (nn : Byte) (s : State) :
    exec (.addImm x nn) s = .next (s.setV x (BitVec.ofNat 8 ((s.getV x).toNat + nn.toNat))) := rfl

theorem exec_ldReg (x y : Reg) (s : State) : exec (.ldReg x y) s = .next (s.setV x (s.getV y)) := rfl

theorem exec_orReg (x y : Reg) (s : State) : exec (.orReg x y) s = .next (s.setV x (s.getV x ||| s.getV y)) := rfl

theorem exec_andReg (x y : Reg) (s : State) : exec (.andReg x y) s = .next (s.setV x (s.getV x &&& s.getV y)) := rfl

theorem exec_xorReg (x y : Reg) (s : State) : exec (.xorReg x y) s = .next (s.setV x (s.getV x ^^^ s.getV y)) := rfl

theorem exec_rnd (x : Reg) (nn : Byte) (s : State) : exec (.rnd x nn) s = .next (s.setV x (s.rand &&& nn)) := rfl

/-- Settles O30: both instructions write one register, the sum as the byte it leaves modulo 256. -/
theorem immediateLoadAndAdd : Obligations.ImmediateLoadAndAdd :=
  ⟨encodedBy_ldImm, encodedBy_addImm, fun x nn s =>
    ⟨⟨_, exec_ldImm x nn s, getV_setV_same s x nn, setV_frames s x nn⟩,
     ⟨_, exec_addImm x nn s, by rw [getV_setV_same, BitVec.toNat_ofNat], setV_frames s x _⟩⟩⟩

/-- Settles O31: each of the four writes one register, and the library says each bit of the byte written. -/
theorem logicalOperations : Obligations.LogicalOperations :=
  ⟨encodedBy_ldReg, encodedBy_orReg, encodedBy_andReg, encodedBy_xorReg, fun x y s =>
    ⟨⟨_, exec_ldReg x y s, getV_setV_same s x _, setV_frames s x _⟩,
     ⟨_, exec_orReg x y s, fun b _ => by rw [getV_setV_same, BitVec.getLsbD_or], setV_frames s x _⟩,
     ⟨_, exec_andReg x y s, fun b _ => by rw [getV_setV_same, BitVec.getLsbD_and], setV_frames s x _⟩,
     ⟨_, exec_xorReg x y s, fun b _ => by rw [getV_setV_same, BitVec.getLsbD_xor], setV_frames s x _⟩⟩⟩

/-- Settles O37: one register write, of the random input of the state masked by NN. -/
theorem rndMasksTheRandomInput : Obligations.RndMasksTheRandomInput :=
  ⟨encodedBy_rnd, fun x nn s =>
    ⟨_, exec_rnd x nn s, fun b _ => by rw [getV_setV_same, BitVec.getLsbD_and], setV_frames s x _⟩⟩

/-! ### An ALU operation with a flag: VX is written, then VF (R132) -/

theorem flagByte_toNat (c : Bool) : (flagByte c).toNat = if c then 1 else 0 := by
  cases c <;> rfl

/-- VX holds the result when it is not VF, where the flag, written last, stands instead. -/
theorem aluWithFlag_getV {x : Reg} (hx : x ≠ vf) (y : Reg) (f : Byte → Byte → Byte × Bool) (s : State) :
    (aluWithFlag hardware x y f s).getV x = (f (s.getV x) (s.getV y)).1 := by
  rw [aluWithFlag_hardware, getV_setV_of_ne _ hx, getV_setV_same]

theorem aluWithFlag_vf_toNat (x y : Reg) (f : Byte → Byte → Byte × Bool) (s : State) :
    ((aluWithFlag hardware x y f s).getV vf).toNat = if (f (s.getV x) (s.getV y)).2 then 1 else 0 := by
  rw [aluWithFlag_hardware, getV_setV_same, flagByte_toNat]

/-- A flagged operation leaves every register but VX and VF, and every other part. -/
theorem aluWithFlag_frames (x y : Reg) (f : Byte → Byte → Byte × Bool) (s : State) :
    RegsSameExcept [x, vf] s (aluWithFlag hardware x y f s) ∧ Frame [.regs] s (aluWithFlag hardware x y f s) := by
  rw [aluWithFlag_hardware]
  refine ⟨fun r hr => ?_, (setV_frame s x _).trans (setV_frame _ vf _)⟩
  obtain ⟨hx, hvf⟩ : r ≠ x ∧ r ≠ vf := by simpa using hr
  rw [getV_setV_of_ne _ hvf, getV_setV_of_ne _ hx]

/-! ### Sum and differences -/

theorem addWithCarry_fst_toNat (a b : Byte) : (addWithCarry a b).1.toNat = (a.toNat + b.toNat) % 256 :=
  BitVec.toNat_ofNat _ _

theorem addWithCarry_snd (a b : Byte) : (addWithCarry a b).2 = true ↔ a.toNat + b.toNat > 255 :=
  decide_eq_true_iff

/-- The difference of `8XY5` is the byte that, added to b, gives a back modulo 256. -/
theorem subNotBorrow_fst_add (a b : Byte) : ((subNotBorrow a b).1.toNat + b.toNat) % 256 = a.toNat := by
  have ha := a.isLt
  have hb := b.isLt
  rw [subNotBorrow, BitVec.toNat_ofNat]
  omega

theorem subNotBorrow_snd (a b : Byte) : (subNotBorrow a b).2 = true ↔ a.toNat > b.toNat :=
  decide_eq_true_iff

/-- On this hardware `8XY7` is `8XY5` with its operands exchanged: no flag on equal operands (R140). -/
theorem reverseSubNotBorrow_hardware (a b : Byte) : reverseSubNotBorrow hardware a b = subNotBorrow b a :=
  Prod.ext rfl (Bool.or_false _)

/-- Settles O32: a flagged operation whose result is the sum modulo 256 and whose flag is the carry. -/
theorem addSetsCarry : Obligations.AddSetsCarry :=
  ⟨encodedBy_addReg, fun x y s =>
    ⟨_, exec_addReg x y s, fun hx => by rw [aluWithFlag_getV hx, addWithCarry_fst_toNat],
     by simp only [aluWithFlag_vf_toNat, addWithCarry_snd], aluWithFlag_frames x y _ s⟩⟩

/-- Settles O33: a flagged operation whose result is the difference and whose flag is the strict comparison. -/
theorem subSetsNotBorrow : Obligations.SubSetsNotBorrow :=
  ⟨encodedBy_sub, fun x y s =>
    ⟨_, exec_sub x y s, fun hx => by rw [aluWithFlag_getV hx, subNotBorrow_fst_add],
     by simp only [aluWithFlag_vf_toNat, subNotBorrow_snd], aluWithFlag_frames x y _ s⟩⟩

/-- Settles O34: the difference and comparison of `8XY5` with the operands exchanged. -/
theorem subnSetsNotBorrow : Obligations.SubnSetsNotBorrow :=
  ⟨encodedBy_subn, fun x y s =>
    ⟨_, exec_subn x y s,
     fun hx => by rw [aluWithFlag_getV hx, reverseSubNotBorrow_hardware, subNotBorrow_fst_add],
     by simp only [aluWithFlag_vf_toNat, reverseSubNotBorrow_hardware, subNotBorrow_snd],
     aluWithFlag_frames x y _ s⟩⟩

/-! ### Shifts of the source register, whichever the parameter chooses -/

theorem shiftSource_hardware (a b : Byte) : shiftSource hardware a b = a := rfl

theorem shiftRightOut_fst_toNat (c : Config) (a b : Byte) :
    (shiftRightOut c a b).1.toNat = (shiftSource c a b).toNat / 2 := by
  rw [shiftRightOut, BitVec.toNat_ushiftRight, Nat.shiftRight_one]

/-- Bit 0 of the source is its remainder by 2. -/
theorem shiftRightOut_snd (c : Config) (a b : Byte) :
    (shiftRightOut c a b).2 = decide ((shiftSource c a b).toNat % 2 = 1) :=
  Nat.testBit_zero _

theorem shiftLeftOut_fst_toNat (c : Config) (a b : Byte) :
    (shiftLeftOut c a b).1.toNat = (2 * (shiftSource c a b).toNat) % 256 := by
  rw [shiftLeftOut, BitVec.toNat_shiftLeft, Nat.shiftLeft_eq, Nat.mul_comm]

/-- Bit 7 of the source is its most significant bit. -/
theorem shiftLeftOut_snd (c : Config) (a b : Byte) :
    (shiftLeftOut c a b).2 = decide ((shiftSource c a b).toNat ≥ 128) :=
  (BitVec.msb_eq_getLsbD_last _).symm.trans (BitVec.msb_eq_decide _)

/-- Settles O35: the shift of the source register, which is VX on this hardware; its flag 1 or 0 is the remainder. -/
theorem shrShiftsVxRight : Obligations.ShrShiftsVxRight := by
  refine ⟨encodedBy_shr, fun x y s => ⟨_, exec_shr x y s, fun hx => ?_, ?_, aluWithFlag_frames x y _ s⟩,
    fun c a b => ⟨shiftRightOut_fst_toNat c a b, shiftRightOut_snd c a b⟩⟩
  · rw [aluWithFlag_getV hx, shiftRightOut_fst_toNat, shiftSource_hardware]
  · rw [aluWithFlag_vf_toNat, shiftRightOut_snd, shiftSource_hardware]
    simp only [decide_eq_true_eq]
    split <;> omega

/-- Settles O36: the shift of the source register, which is VX on this hardware; its flag 1 or 0 is the quotient by
128. -/
theorem shlShiftsVxLeft : Obligations.ShlShiftsVxLeft := by
  refine ⟨encodedBy_shl, fun x y s => ⟨_, exec_shl x y s, fun hx => ?_, ?_, aluWithFlag_frames x y _ s⟩,
    fun c a b => ⟨shiftLeftOut_fst_toNat c a b, shiftLeftOut_snd c a b⟩⟩
  · rw [aluWithFlag_getV hx, shiftLeftOut_fst_toNat, shiftSource_hardware]
  · have hlt := (s.getV x).isLt
    rw [aluWithFlag_vf_toNat, shiftLeftOut_snd, shiftSource_hardware]
    simp only [decide_eq_true_eq]
    split <;> omega

end Sys2Proof.Machine
end

section
/-! The index register and memory (43_index_memory.md): the three ways to set I (R150 to R152), and the decimal digits
and the bulk moves between memory and registers (R153 to R155) with their range check (20_memory.md R56). -/

namespace Sys2Proof.Machine

/-! ### The words of the instructions that use I (30_encoding.md R84) -/

theorem encodedBy_ldI : EncodedBy 0xF000 0xA000 (fun w => .ldI (fieldNNN w)) :=
  encodedBy_of_row "ANNN" "LD" (by simp [opcodeMap, opcodeRows9toE])

theorem encodedBy_addI : EncodedBy 0xF0FF 0xF01E (fun w => .addI (fieldX w)) :=
  encodedBy_of_row "FX1E" "ADD" (by simp [opcodeMap, opcodeRowsF])

theorem encodedBy_ldF : EncodedBy 0xF0FF 0xF029 (fun w => .ldF (fieldX w)) :=
  encodedBy_of_row "FX29" "LD" (by simp [opcodeMap, opcodeRowsF])

theorem encodedBy_ldB : EncodedBy 0xF0FF 0xF033 (fun w => .ldB (fieldX w)) :=
  encodedBy_of_row "FX33" "LD" (by simp [opcodeMap, opcodeRowsF])

theorem encodedBy_stRegs : EncodedBy 0xF0FF 0xF055 (fun w => .stRegs (fieldX w)) :=
  encodedBy_of_row "FX55" "LD" (by simp [opcodeMap, opcodeRowsF])

theorem encodedBy_ldRegs : EncodedBy 0xF0FF 0xF065 (fun w => .ldRegs (fieldX w)) :=
  encodedBy_of_row "FX65" "LD" (by simp [opcodeMap, opcodeRowsF])

/-! ### Setting I -/

theorem exec_ldI (nnn : Addr12) (s : State) : exec (.ldI nnn) s = .next { s with index := addrOfNNN nnn } := rfl

/-- Replacing I leaves every other part. -/
theorem setIndex_frame (s : State) (index : Word) : Frame [.index] s { s with index := index } := by
  intro p hp
  refine SamePart.of_eq ?_
  cases p <;> simp_all

/-- The glyph address of any byte fits in I (R152). -/
theorem glyph_toNat (a : Byte) : (BitVec.ofNat 16 (0x050 + 5 * a.toNat)).toNat = 0x050 + 5 * a.toNat := by
  have ha := a.isLt
  rw [BitVec.toNat_ofNat, Nat.mod_eq_of_lt (by omega)]

/-- Settles O38: each of the three is one write of I, which wraps for the sum alone. -/
theorem indexRegisterIsSet : Obligations.IndexRegisterIsSet :=
  ⟨encodedBy_ldI, encodedBy_addI, encodedBy_ldF, fun nnn x s =>
    ⟨⟨_, exec_ldI nnn s, addrOfNNN_toNat nnn, setIndex_frame s _⟩,
     ⟨_, exec_addI x s, BitVec.toNat_ofNat _ _, setIndex_frame s _⟩,
     ⟨_, exec_ldF x s, glyph_toNat _, setIndex_frame s _⟩⟩⟩

/-! ### Effects on memory and on the registers, behind the range check -/

/-- An access whose last address is past 0xFFF faults, whatever its effect would be (R56). -/
theorem checked_faults {s : State} {last : Nat} (h : s.index.toNat + last > 0xFFF) (t : State) :
    FaultsWith .memOutOfRange s (s.checked hardware last t) :=
  checked_outside h t ▸ raiseFault_spec s .memOutOfRange

/-- Replacing memory leaves every other part. -/
theorem setMem_frame (s : State) (mem : Memory) : Frame [.mem] s { s with mem := mem } := by
  intro p hp
  refine SamePart.of_eq ?_
  cases p <;> simp_all

/-- Replacing the general registers leaves every other part. -/
theorem setRegs_frame (s : State) (v : Vector Byte 16) : Frame [.regs] s { s with v := v } := by
  intro p hp
  refine SamePart.of_eq ?_
  cases p <;> simp_all

/-- The byte that consecutive writes inside memory leave at offset `k`. -/
theorem memRead_memWriteList_at {m : Memory} (hm : m.wf) {a : Nat} {vs : List Byte} (ha : a + vs.length ≤ 0x1000)
    {k : Nat} (hk : k < vs.length) : memRead (memWriteList m a vs) (a + k) = vs[k] := by
  rw [memRead_memWriteList vs hm ha, if_pos (Nat.le_add_right a k), Nat.add_sub_cancel_left,
    List.getElem?_eq_getElem hk, Option.getD_some]

/-- Consecutive writes inside memory leave the bytes below and above them. -/
theorem memRead_memWriteList_outside {m : Memory} (hm : m.wf) {a : Nat} {vs : List Byte}
    (ha : a + vs.length ≤ 0x1000) {k : Nat} (hk : k < a ∨ a + vs.length ≤ k) :
    memRead (memWriteList m a vs) k = memRead m k := by
  rw [memRead_memWriteList vs hm ha]
  split
  · rw [List.getElem?_eq_none (by omega), Option.getD_none]
  · rfl

/-! ### The decimal digits (R153) -/

@[simp] theorem decimalDigits_length (a : Byte) : (decimalDigits a).length = 3 := rfl

/-- Each of the three numbers of R153 is below 10. -/
theorem decimalDigits_lt (a : Byte) {d : Byte} (hd : d ∈ decimalDigits a) : d.toNat < 10 := by
  have ha := a.isLt
  simp only [decimalDigits, List.mem_cons, List.not_mem_nil, or_false] at hd
  rcases hd with rfl | rfl | rfl <;> rw [BitVec.toNat_ofNat] <;> omega

/-- The three numbers of R153 spell the byte. -/
theorem decimalDigits_spell (a : Byte) :
    (decimalDigits a)[0].toNat * 100 + (decimalDigits a)[1].toNat * 10 + (decimalDigits a)[2].toNat = a.toNat := by
  have ha := a.isLt
  simp only [decimalDigits, List.getElem_cons_zero, List.getElem_cons_succ, BitVec.toNat_ofNat]
  omega

theorem exec_ldB_inside {x : Reg} {s : State} (h : s.index.toNat + 2 ≤ 0xFFF) :
    exec (.ldB x) s = .next { s with mem := memWriteList s.mem s.index.toNat (decimalDigits (s.getV x)) } := by
  rw [exec_ldB, checked_inside h]
  rfl

/-- Settles O39: three consecutive writes behind the range check, of digits that arithmetic shows to spell VX. -/
theorem bcdStoresTheDigits : Obligations.BcdStoresTheDigits := by
  refine ⟨encodedBy_ldB, fun x s hm h => ?_, fun x s h => ⟨_, exec_ldB x s, checked_faults h _⟩⟩
  have hin : s.index.toNat + (decimalDigits (s.getV x)).length ≤ 0x1000 := by
    rw [decimalDigits_length]
    omega
  have digit (k : Nat) (hk : k < 3) :
      memRead (memWriteList s.mem s.index.toNat (decimalDigits (s.getV x))) (s.effAddr k) =
        (decimalDigits (s.getV x))[k] := memRead_memWriteList_at hm hin hk
  refine ⟨_, exec_ldB_inside h, setMem_frame s _, fun k hk => memRead_memWriteList_outside hm hin hk,
    fun k hk => ?_, ?_⟩
  · rw [digit k hk]
    exact decimalDigits_lt _ (List.getElem_mem _)
  · rw [digit 0 (by decide), digit 1 (by decide), digit 2 (by decide)]
    exact decimalDigits_spell _

/-! ### The bulk moves (R154, R155) -/

theorem exec_stRegs_inside {x : Reg} {s : State} (h : s.index.toNat + x.val ≤ 0xFFF) :
    exec (.stRegs x) s = .next { s with mem := storeRegs s x } := by
  rw [exec_stRegs, checked_inside h]

theorem exec_ldRegs_inside {x : Reg} {s : State} (h : s.index.toNat + x.val ≤ 0xFFF) :
    exec (.ldRegs x) s = .next (loadRegs s x) := by
  rw [exec_ldRegs, checked_inside h]

/-- The bulk store leaves each register up to VX at its own offset from I. -/
theorem memRead_storeRegs_reg {x r : Reg} {s : State} (hm : s.mem.wf) (h : s.index.toNat + x.val ≤ 0xFFF)
    (hr : r ≤ x) : memRead (storeRegs s x) (s.effAddr r.val) = s.getV r := by
  obtain ⟨-, hread⟩ := storeRegs_spec s x hm h
  rw [hread, State.effAddr, if_pos ⟨Nat.le_add_right _ _, Nat.add_le_add_left hr _⟩, Nat.add_sub_cancel_left,
    regOfNat_reg]

/-- The bulk store leaves every byte outside its X + 1. -/
theorem memRead_storeRegs_outside {x : Reg} {s : State} (hm : s.mem.wf) (h : s.index.toNat + x.val ≤ 0xFFF)
    {a : Nat} (ha : a < s.index.toNat ∨ s.index.toNat + (x.val + 1) ≤ a) :
    memRead (storeRegs s x) a = memRead s.mem a := by
  obtain ⟨-, hread⟩ := storeRegs_spec s x hm h
  rw [hread, if_neg (by omega)]

/-- The bulk load changes the general registers alone. -/
theorem loadRegs_frame (s : State) (x : Reg) : Frame [.regs] s (loadRegs s x) := by
  obtain ⟨hrest, -⟩ := loadRegs_spec s x
  rw [hrest]
  exact setRegs_frame s _

/-- Settles O40: one bulk store behind the range check, read back byte by byte. -/
theorem storeRegistersWritesV0ToVx : Obligations.StoreRegistersWritesV0ToVx :=
  ⟨encodedBy_stRegs,
   fun _ s hm h => ⟨_, exec_stRegs_inside h, setMem_frame s _, fun _ ha => memRead_storeRegs_outside hm h ha,
     fun _ hr => memRead_storeRegs_reg hm h hr⟩,
   fun x s h => ⟨_, exec_stRegs x s, checked_faults h _⟩⟩

/-- Settles O41: one bulk load behind the range check; what a register holds after it turns on whether it is above
VX. -/
theorem loadRegistersReadsV0ToVx : Obligations.LoadRegistersReadsV0ToVx := by
  refine ⟨encodedBy_ldRegs, fun x s h => ?_, fun x s h => ⟨_, exec_ldRegs x s, checked_faults h _⟩⟩
  obtain ⟨-, hreg⟩ := loadRegs_spec s x
  exact ⟨_, exec_ldRegs_inside h, fun r hr => (hreg r).trans (if_pos hr),
    fun r hr => (hreg r).trans (if_neg (Fin.not_le.mpr hr)), loadRegs_frame s x⟩

end Sys2Proof.Machine
end

section
/-! Keys and timers (44_keys_timers.md): the two skips on the key VX names (R170, R171). -/

namespace Sys2Proof.Machine

/-! ### The words of the key skips (30_encoding.md R84) -/

theorem encodedBy_skp : EncodedBy 0xF0FF 0xE09E (fun w => .skp (fieldX w)) :=
  encodedBy_of_row "EX9E" "SKP" (by simp [opcodeMap, opcodeRows9toE])

theorem encodedBy_sknp : EncodedBy 0xF0FF 0xE0A1 (fun w => .sknp (fieldX w)) :=
  encodedBy_of_row "EXA1" "SKNP" (by simp [opcodeMap, opcodeRows9toE])

/-! ### Key skips -/

/-- With VX in range, a key skip is one `skipIf` on whether key VX is as the skip wants it. -/
theorem keySkip_of_key {x : Reg} {s : State} {k : Fin 16} (hk : (s.getV x).toNat = k.val) (pressed : Bool) :
    keySkip hardware x pressed s = s.skipIf (s.key.get k == pressed) := by
  obtain ⟨j, hj, e⟩ | ⟨h, -⟩ := keySkip_cases x pressed s
  · rw [e, keyDown_eq, Fin.ext (hj.symm.trans hk)]
  · omega

/-- With VX above 15, a key skip is the key-range fault, whichever way it tests. -/
theorem keySkip_of_gt {x : Reg} {s : State} (h : (s.getV x).toNat > 15) (pressed : Bool) :
    FaultsWith .keyOutOfRange s (keySkip hardware x pressed s) := by
  obtain ⟨k, hk, -⟩ | ⟨-, e⟩ := keySkip_cases x pressed s
  · omega
  · exact e ▸ raiseFault_spec s .keyOutOfRange

/-- The skip when key VX is pressed (R170). -/
theorem keySkip_pressed {x : Reg} {s : State} {k : Fin 16} (hk : (s.getV x).toNat = k.val) :
    (keySkip hardware x true s).pc = (if s.key.get k then s.pc + 2 else s.pc) ∧
    Frame [.pc] s (keySkip hardware x true s) := by
  rw [keySkip_of_key hk, beq_true]
  exact skipIf_spec s _

/-- The skip when key VX is not pressed (R171). -/
theorem keySkip_notPressed {x : Reg} {s : State} {k : Fin 16} (hk : (s.getV x).toNat = k.val) :
    (keySkip hardware x false s).pc = (if s.key.get k then s.pc else s.pc + 2) ∧
    Frame [.pc] s (keySkip hardware x false s) := by
  rw [keySkip_of_key hk, beq_false]
  simpa only [Bool.not_eq_true', ← Bool.not_eq_true, ite_not] using skipIf_spec s (!s.key.get k)

/-- Settles O44: both are one key skip, split on whether VX names a key. -/
theorem skipsOnKeys : Obligations.SkipsOnKeys :=
  ⟨encodedBy_skp, encodedBy_sknp,
   fun x s _ hk => ⟨⟨_, exec_skp x s, keySkip_pressed hk⟩, ⟨_, exec_sknp x s, keySkip_notPressed hk⟩⟩,
   fun x s h => ⟨⟨_, exec_skp x s, keySkip_of_gt h true⟩, ⟨_, exec_sknp x s, keySkip_of_gt h false⟩⟩⟩

end Sys2Proof.Machine
end

section
/-! Exceptions (60_exceptions.md): what an instruction and a cycle do to the fault latch (R210, R211), the halted core
(R215), and the set-key and read-framebuffer commands (R231, R233). -/

namespace Sys2Proof.Machine

open Sys2Proof.Claims

/-! ### The fault condition of an instruction (R211) -/

/-- `FETCH_OUT_OF_RANGE` is the one cause that fetch alone raises (R211). -/
theorem faultCondition_ne_fetchOutOfRange (s : State) (i : Instr) : faultCondition s i ≠ some .fetchOutOfRange := by
  cases i <;> simp [faultCondition]

/-- Starting a cycle and fetching change no part that a fault condition reads. -/
theorem faultCondition_beginCycle_fetch (s : State) (r : Byte) (i : Instr) :
    faultCondition (s.beginCycle r).fetch i = faultCondition s i := by
  cases i <;> rfl

/-- From `s` to `t` the fault of `condition` is latched and nothing else happens, or there is no such fault and the
latch is kept. -/
def LatchesExactly (condition : Option FaultCause) (s t : State) : Prop :=
  (∃ c, condition = some c ∧ FaultsWith c s t) ∨ (condition = none ∧ t.fault = s.fault)

theorem pushAndJump_latches (s : State) (target : Word) :
    LatchesExactly (if s.sp.val = 16 then some .stackOverflow else none) s (s.pushAndJump hardware target) := by
  obtain ⟨h, e⟩ | ⟨h, e⟩ := pushAndJump_cases s target
  · exact .inr ⟨if_neg (Nat.ne_of_lt h), e ▸ rfl⟩
  · exact .inl ⟨_, if_pos h, e ▸ raiseFault_spec s _⟩

theorem popAndJump_fault (s : State) : (s.popAndJump hardware).fault = s.fault := by
  obtain ⟨k, -, e⟩ | ⟨-, e⟩ := popAndJump_cases s
  · rw [e]
  · rw [e]
    rfl

theorem skipIf_fault (s : State) (c : Bool) : (s.skipIf c).fault = s.fault := by
  obtain ⟨-, h⟩ := skipIf_spec s c
  exact h .fault (by decide)

/-- An access behind the range check faults exactly when its last address is past 0xFFF (20_memory.md R56). -/
theorem checked_latches {s effect : State} (last : Nat) (h : effect.fault = s.fault) :
    LatchesExactly (if s.index.toNat + last > 0xFFF then some .memOutOfRange else none) s
      (s.checked hardware last effect) := by
  obtain ⟨hin, e⟩ | ⟨hout, e⟩ := checked_cases s last effect
  · exact .inr ⟨if_neg (Nat.not_lt.mpr hin), (congrArg State.fault e).trans h⟩
  · exact .inl ⟨_, if_pos hout, e ▸ raiseFault_spec s _⟩

theorem keySkip_latches (x : Reg) (pressed : Bool) (s : State) :
    LatchesExactly (if (s.getV x).toNat > 15 then some .keyOutOfRange else none) s (keySkip hardware x pressed s) := by
  obtain ⟨k, hk, e⟩ | ⟨h, e⟩ := keySkip_cases x pressed s
  · exact .inr ⟨if_neg (by omega), e ▸ skipIf_fault s _⟩
  · exact .inl ⟨_, if_pos h, e ▸ raiseFault_spec s _⟩

theorem drawRows_fault (px0 py0 n : Nat) (s : State) : (drawRows hardware px0 py0 n s).fault = s.fault := by
  obtain ⟨h, -⟩ := drawRows_touches px0 py0 n s
  rw [h]

theorem loadRegs_fault (s : State) (x : Reg) : (loadRegs s x).fault = s.fault := loadRegs_frame s x .fault (by decide)

/-- An instruction latches a fault exactly when its condition of R211 holds, and then does nothing else. -/
theorem exec_latches {i : Instr} {s t : State} (h : exec i s = .next t) : LatchesExactly (faultCondition s i) s t := by
  cases i with
  | call nnn =>
    cases h
    exact pushAndJump_latches s _
  | drw x y n =>
    cases (exec_drw x y n s).symm.trans h
    by_cases hn : n = 0
    · exact .inr ⟨if_neg (by omega), by rw [if_pos hn]; exact drawRows_fault _ _ _ _⟩
    · simpa only [faultCondition, if_neg hn, Nat.pos_of_ne_zero hn, true_and] using
        checked_latches (s := s) (n - 1) (drawRows_fault _ _ _ (s.setV vf 0))
  | ldB x =>
    cases h
    exact checked_latches 2 rfl
  | stRegs x =>
    cases h
    exact checked_latches x.val rfl
  | ldRegs x =>
    cases (exec_ldRegs x s).symm.trans h
    exact checked_latches x.val (loadRegs_fault s x)
  | skp x | sknp x =>
    cases h
    exact keySkip_latches x _ s
  | ret =>
    cases h
    exact .inr ⟨rfl, popAndJump_fault s⟩
  | seImm _ _ | sneImm _ _ | seReg _ _ | sneReg _ _ =>
    cases h
    exact .inr ⟨rfl, skipIf_fault s _⟩
  | ldVxK x =>
    obtain ⟨k, -, e⟩ | ⟨-, e⟩ := exec_ldVxK_cases x s
    · cases e.symm.trans h
      exact .inr ⟨rfl, rfl⟩
    · cases e.symm.trans h
      exact .inr ⟨rfl, rfl⟩
  | _ =>
    cases h
    exact .inr ⟨rfl, rfl⟩

/-! ### The fault condition of a cycle (R210, R212) -/

/-- A frame need not name pc when pc is back where it was. -/
theorem Frame.pc_restored {ps : List Part} {s t : State} (h : Frame (.pc :: ps) s t) (hpc : t.pc = s.pc) :
    Frame ps s t := by
  intro p hp
  by_cases hc : p = .pc
  · exact hc ▸ hpc
  · exact h p (by simp [hc, hp])

/-- All that a faulting cycle leaves: the record of the fault, and every architectural part but the latch as it was
(R210). -/
structure CycleFaults (cause : FaultCause) (s t : State) : Prop where
  record : t.fault = some ⟨cause, s.pc, if cause = .fetchOutOfRange then 0 else s.nextWord⟩
  frame : Frame [.fault, .word, .rand, .pending, .cycles] s t

/-- A fault of the executed instruction is a fault of the cycle: fetch's advance of pc is undone (R210 (a)). -/
theorem cycleFaults_of_faultsWith {c : FaultCause} {s t : State} {r : Byte} (hc : c ≠ .fetchOutOfRange)
    (h : FaultsWith c (s.takeCommand.beginCycle r).fetch t) : CycleFaults c s t := by
  obtain ⟨hfault, hpc, hframe⟩ := h
  have back : (s.takeCommand.beginCycle r).fetch.pc - 2 = s.pc := BitVec.add_sub_cancel _ _
  refine ⟨?_, Frame.pc_restored ?_ (hpc.trans back)⟩
  · rw [hfault, back, if_neg hc]
    rfl
  · exact (((takeCommand_beginCycle_frame s r).mono (by decide)).trans ((fetch_frame _).mono (by decide))).trans
      (hframe.mono (by decide))

theorem cycleFaultCondition_of_gt {s : State} (h : s.pc.toNat > 0xFFE) :
    cycleFaultCondition s = some .fetchOutOfRange := if_pos h

theorem cycleFaultCondition_of_error {s : State} {err : DecodeReject} (h : s.pc.toNat ≤ 0xFFE)
    (hd : decodeWord s.nextWord = .error err) : cycleFaultCondition s = none := by
  rw [cycleFaultCondition, if_neg (Nat.not_lt.mpr h), hd]

theorem cycleFaultCondition_of_ok {s : State} {i : Instr} (h : s.pc.toNat ≤ 0xFFE)
    (hd : decodeWord s.nextWord = .ok i) : cycleFaultCondition s = faultCondition s i := by
  rw [cycleFaultCondition, if_neg (Nat.not_lt.mpr h), hd]

/-- A cycle on a running core faults exactly on its condition, with that cause and nothing else done (R210 to R212). -/
theorem step_cycle_latches {s t : State} {e : Seconds} {r : Byte} (hc : s.nextCommand = .cycle e r)
    (hf : s.fault = none) (hs : step s = .next t) :
    (∃ c, cycleFaultCondition s = some c ∧ CycleFaults c s t) ∨ (cycleFaultCondition s = none ∧ t.fault = none) := by
  rw [step_of_command hc, perform_cycle] at hs
  obtain ⟨hp, hrun⟩ | ⟨hp, ⟨err, hd⟩, hrun⟩ | ⟨hp, i, u, hd, hu, hrun⟩ := runCycle_cases e r s.takeCommand hf
  · cases hrun.symm.trans hs
    exact .inl ⟨_, cycleFaultCondition_of_gt hp, rfl,
      ((takeCommand_beginCycle_frame s r).mono (by decide)).trans ((latchFault_pc_frame _ _ 0).mono (by decide))⟩
  · cases hrun.symm.trans hs
    exact .inr ⟨cycleFaultCondition_of_error hp hd, hf⟩
  · have hcond : cycleFaultCondition s = faultCondition (s.takeCommand.beginCycle r).fetch i :=
      cycleFaultCondition_of_ok hp hd
    cases hrun.symm.trans hs
    rw [hcond]
    obtain ⟨c, hi, hfaults⟩ | ⟨hi, hkept⟩ := exec_latches hu
    · have hfault : u.fault.isSome = true := by
        obtain ⟨hrecord, -⟩ := hfaults
        rw [hrecord]
        rfl
      have hne : c ≠ .fetchOutOfRange := fun h => faultCondition_ne_fetchOutOfRange _ i (h ▸ hi)
      rw [if_pos hfault]
      exact .inl ⟨c, hi, cycleFaults_of_faultsWith hne hfaults⟩
    · have hfault : u.fault = none := hkept.trans hf
      rw [hfault, if_neg (by simp)]
      exact .inr ⟨hi, hfault⟩

/-- Settles O11: a cycle whose latch is set at its end is one that faulted, and a halted core ignores the next. -/
theorem faultingCycleIsNullified : Obligations.FaultingCycleIsNullified := by
  intro s t e r f hc hf hs ht
  obtain ⟨c, -, hrecord, hframe⟩ | ⟨-, hnone⟩ := step_cycle_latches hc hf hs
  · obtain rfl : _ = f := Option.some.inj (hrecord.symm.trans ht)
    exact ⟨hframe, rfl, rfl, fun e' r' => runCycle_halted e' r' t (by simp [hrecord])⟩
  · simp [hnone] at ht

/-- Settles O12: the codes are those of the table, and the two outcomes of a cycle are told apart by its condition. -/
theorem faultsHappenExactlyOnTheirConditions : Obligations.FaultsHappenExactlyOnTheirConditions := by
  refine ⟨rfl, rfl, rfl, rfl, fun s t e r hc hf hs => ?_⟩
  obtain ⟨c, hcond, hrecord, -⟩ | ⟨hcond, hnone⟩ := step_cycle_latches hc hf hs
  · rw [hrecord, hcond]
    rfl
  · rw [hnone, hcond]
    rfl

/-! ### Set-key (R231) -/

/-- Replacing the keys leaves every other part. -/
theorem setKeys_frame (s : State) (key : Vector Bool 16) : Frame [.key] s { s with key := key } := by
  intro p hp
  refine SamePart.of_eq ?_
  cases p <;> simp_all

/-- A set-key changes the keys alone. -/
theorem setKeyCommand_frame (k : Int) (pressed : Bool) (s : State) :
    Frame [.key] s (setKeyCommand hardware k pressed s) := by
  obtain ⟨j, -, e⟩ | ⟨-, e⟩ := setKeyCommand_cases k pressed s
  · rw [e]
    exact setKeys_frame s _
  · rw [e]
    exact Frame.refl _ s

/-- Each key after a set-key: the named one has the level, any other is as it was (R231). -/
theorem setKeyCommand_key (k : Int) (pressed : Bool) (s : State) (j : Fin 16) :
    (setKeyCommand hardware k pressed s).key.get j = if k = j.val then pressed else s.key.get j := by
  obtain ⟨i, rfl, e⟩ | ⟨hk, e⟩ := setKeyCommand_cases k pressed s
  · rw [e]
    simp [Vector.get_eq_getElem, Vector.getElem_set]
  · rw [e, if_neg (hk j)]

/-- A step that performs a set-key. -/
theorem step_setKey {s : State} {k : Int} {pressed : Bool} (h : s.nextCommand = .setKey k pressed) :
    step s = .next (setKeyCommand hardware k pressed s.takeCommand) := step_of_command h

theorem setKeyCommand_takeCommand_frame (k : Int) (pressed : Bool) (s : State) :
    Frame [.key, .pending] s (setKeyCommand hardware k pressed s.takeCommand) :=
  ((takeCommand_frame s).mono (by decide)).trans ((setKeyCommand_frame k pressed _).mono (by decide))

/-- Settles O53: the two cases of a set-key, in range and out of it. -/
theorem setKeyWritesOneKey : Obligations.SetKeyWritesOneKey :=
  fun s k pressed h => ⟨_, step_setKey h, setKeyCommand_takeCommand_frame k pressed s, setKeyCommand_key k pressed _⟩

/-! ### Read-framebuffer (R233) -/

/-- The answer of read-framebuffer is the rows of the framebuffer, one after the other. -/
theorem pixels_eq_flatten (s : State) : s.pixels = s.fb.flatten.toList := by
  have h : s.fb.flatten.toList = (s.fb.toArray.map Vector.toArray).flatten.toList := rfl
  rw [pixels_eq, h, Array.toList_flatten, Array.toList_map, List.map_map]
  rfl

theorem pixels_length (s : State) : s.pixels.length = 2048 := by
  rw [pixels_eq_flatten, Vector.length_toList]

/-- Entry `px + 64 * py` of the answer is the pixel at column `px` and row `py` (R233). -/
theorem pixels_getElem? (s : State) (px : Fin 64) (py : Fin 32) :
    s.pixels[px.val + py.val * 64]? = some (s.pixel px py) := by
  have hcol : (px.val + py.val * 64) % 64 = px.val := by omega
  have hrow : (px.val + py.val * 64) / 64 = py.val := by omega
  rw [pixels_eq_flatten, Vector.getElem?_toList, Vector.getElem?_eq_getElem (by omega), Vector.getElem_flatten]
  simp only [hcol, hrow]
  rfl

/-- A step that performs a read-framebuffer. -/
theorem step_readFb {s : State} (h : s.nextCommand = .readFb) :
    step s = .next (s.takeCommand.emit (.framebuffer s.pixels)) := step_of_command h

theorem emit_frame (s : State) (o : Output) : Frame [.output] s (s.emit o) := by
  intro p hp
  cases p <;> simp_all [SamePart]

/-- Settles O54: one answer is emitted, the rows of 64 pixels one after the other. -/
theorem readFramebufferIsRowMajor : Obligations.ReadFramebufferIsRowMajor :=
  fun s h => ⟨_, s.pixels, step_readFb h, rfl,
    ((takeCommand_frame s).mono (by decide)).trans ((emit_frame _ _).mono (by decide)),
    pixels_length s, pixels_getElem? s⟩

/-! ### The halted core (R215) -/

/-- A step of a halted core whose next command is a cycle takes the command and does nothing. -/
theorem step_cycle_halted {s : State} {e : Seconds} {r : Byte} (hs : s.Halted) (h : s.nextCommand = .cycle e r) :
    step s = .next s.takeCommand :=
  (step_of_command h).trans (runCycle_halted e r s.takeCommand hs)

/-- A step that performs a status command. -/
theorem step_status {s : State} (h : s.nextCommand = .status) :
    step s = .next (s.takeCommand.emit (.status s.fault s.soundActive)) := step_of_command h

/-- A set-key with a key's number leaves that key at the level and the others as they were. -/
theorem setKeyCommand_keyDown (k : Fin 16) (pressed : Bool) (s : State) :
    (setKeyCommand hardware k.val pressed s).keyDown k.val = pressed ∧
    ∀ j, j ≠ k.val → (setKeyCommand hardware k.val pressed s).keyDown j = s.keyDown j := by
  constructor
  · rw [keyDown_eq, setKeyCommand_key, if_pos rfl]
  · intro j hj
    by_cases hlt : j < 16
    · have hne : (k.val : Int) ≠ j := by omega
      have key := setKeyCommand_key k.val pressed s ⟨j, hlt⟩
      rwa [if_neg hne, ← keyDown_eq, ← keyDown_eq] at key
    · rw [keyDown_of_ge _ j (Nat.not_lt.mp hlt), keyDown_of_ge _ j (Nat.not_lt.mp hlt)]

/-- Settles O10: a cycle is taken and ignored, and the three other commands do not look at the latch. -/
theorem haltedCoreIgnoresCycles : Obligations.HaltedCoreIgnoresCycles := by
  intro s hs
  refine ⟨fun e r h => ⟨_, step_cycle_halted hs h, takeCommand_frame s⟩, fun k pressed h => ?_,
    fun h => ⟨_, step_readFb h, rfl⟩, fun h => ⟨_, step_status h, rfl⟩⟩
  obtain ⟨hkey, hothers⟩ := setKeyCommand_keyDown k pressed s.takeCommand
  exact ⟨_, step_setKey h, hkey, hothers, (setKeyCommand_takeCommand_frame _ pressed s).mono (by decide)⟩

end Sys2Proof.Machine
end

section
/-! Reset and a load that is too large (70_reset_and_hazards.md): the reset values (R250, R251), a second reset (R253)
and the failed load (R255). -/

namespace Sys2Proof.Machine

/-! ### The reset values (R251) -/

theorem reset_stack_get (k : Fin 16) : State.reset.stack.get k = 0 := by
  simp [Vector.get_eq_getElem]

theorem reset_getV (r : Reg) : State.reset.getV r = 0 := by
  simp [State.getV, Vector.get_eq_getElem]

theorem reset_pixel (px : Fin 64) (py : Fin 32) : State.reset.pixel px py = false :=
  pixel_of_fb_clear reset_fb px py

theorem reset_keyDown (k : Nat) : State.reset.keyDown k = false := by
  by_cases h : k < 16
  · simp [State.keyDown]
  · exact keyDown_of_ge _ k (Nat.not_lt.mp h)

theorem resetValues_reset : ResetValues State.reset :=
  ⟨reset_getV, reset_index, reset_pc, reset_stack_get, reset_sp, reset_dt, reset_st, memRead_nil, reset_pixel,
    reset_keyDown, rfl, reset_fault⟩

/-- The reset values are those of the twelve parts of 10_state.md R20: the model's own five parts are free. -/
theorem ResetValues.of_frame {s t : State} (h : ResetValues s)
    (hf : Frame [.word, .rand, .pending, .output, .cycles] s t) : ResetValues t := by
  obtain ⟨hv, hindex, hpc, hstack, hsp, hdt, hst, hmem, hfb, hkey, hacc, hfault⟩ := h
  exact ⟨fun r => (hf .regs (by decide) r).trans (hv r), (hf .index (by decide)).trans hindex,
    (hf .pc (by decide)).trans hpc, fun k => (hf .stack (by decide) k).trans (hstack k),
    (hf .sp (by decide)).trans hsp, (hf .dt (by decide)).trans hdt, (hf .st (by decide)).trans hst,
    fun a => (hf .mem (by decide) a).trans (hmem a), fun px py => (hf .fb (by decide) px py).trans (hfb px py),
    fun k => (hf .key (by decide) k).trans (hkey k), (congrArg Seconds.val (hf .acc (by decide))).trans hacc,
    (hf .fault (by decide)).trans hfault⟩

/-! ### The reset command (R250, R253) -/

/-- Replacing the host's side of the state leaves every part of the core. -/
theorem setHostSide_frame (s : State) (pending : List Command) (output : List Output) (cycles : Nat) :
    Frame [.pending, .output, .cycles] s { s with pending := pending, output := output, cycles := cycles } := by
  intro p hp
  refine SamePart.of_eq ?_
  cases p <;> simp_all

/-- The reset state with any host's side has the reset values. -/
theorem resetValues_setHostSide (pending : List Command) (output : List Output) (cycles : Nat) :
    ResetValues { State.reset with pending := pending, output := output, cycles := cycles } :=
  resetValues_reset.of_frame ((setHostSide_frame _ pending output cycles).mono (by decide))

theorem resetCommand_resetValues (s : State) : ResetValues (resetCommand s) :=
  resetValues_setHostSide s.pending s.output s.cycles

@[simp] theorem resetCommand_output (s : State) : (resetCommand s).output = s.output := rfl

/-- A reset of a reset core changes nothing (R253). -/
theorem resetCommand_resetCommand (s : State) : resetCommand (resetCommand s) = resetCommand s := rfl

/-- A step that performs a reset. -/
theorem step_reset {s : State} (h : s.nextCommand = .reset) : step s = .next (resetCommand s.takeCommand) :=
  step_of_command h

/-- Settles O50: a reset puts the reset state in place and keeps the host's side alone, which a second reset keeps. -/
theorem resetGivesTheResetValues : Obligations.ResetGivesTheResetValues := by
  refine ⟨resetValues_reset, fun s h => ⟨resetCommand s.takeCommand, step_reset h, ?_, ?_, ?_⟩⟩
  · exact resetCommand_resetValues _
  · rw [resetCommand_output, takeCommand_output]
  · rw [perform_reset, resetCommand_resetCommand]

/-! ### A load that is too large (R255) -/

/-- A step that performs a load. -/
theorem step_load {s : State} {bytes : List Byte} (h : s.nextCommand = .load bytes) :
    step s = .next (loadCommand hardware bytes s.takeCommand) := step_of_command h

/-- On this hardware a load that is too large is a reset, then the answer. -/
theorem loadCommand_hardware_of_tooLarge {bytes : List Byte} (h : bytes.length > 3584) (s : State) :
    loadCommand hardware bytes s =
      { State.reset with pending := s.pending, output := s.output ++ [.loaded .tooLarge], cycles := s.cycles } := by
  obtain ⟨hle, -⟩ | ⟨-, e⟩ := loadCommand_cases bytes s
  · exact absurd hle (Nat.not_le.mpr h)
  · exact e

/-- With `LOAD_RESET_ON_FAIL` false, a load that is too large is the answer alone. -/
theorem loadCommand_of_tooLarge_of_noReset {c : Config} {bytes : List Byte} (hc : c.loadResetOnFail = false)
    (h : bytes.length > c.maxProgLen) (s : State) : loadCommand c bytes s = s.emit (.loaded .tooLarge) := by
  simp [loadCommand, hc, h]

/-- Settles O52: this hardware resets and then answers; without the reset on failure only the answer is left. -/
theorem loadTooLargeResets : Obligations.LoadTooLargeResets := by
  constructor
  · intro s bytes hs h
    refine ⟨_, (step_load hs).trans (congrArg _ (loadCommand_hardware_of_tooLarge h _)), ?_, rfl⟩
    exact resetValues_setHostSide _ _ _
  · intro c s bytes hc h
    rw [loadCommand_of_tooLarge_of_noReset hc h]
    exact ⟨rfl, emit_frame s _⟩

end Sys2Proof.Machine
end

section
/-! Encoding (30_encoding.md): decode inverts encode (R84), encode inverts decode in the examined bits (R76, R81), and
which words are instructions (R75 to R82). -/

namespace Sys2Proof

open Sys2Proof.Claims

/-! ### Decode of encode (R84) -/

open Laws.EncodedInItsRow in
/-- The word of every well-formed instruction lies in the row of the map that builds it. -/
theorem encodedInItsRow : ∀ i : Instr, Statement i
  | .cls => cls
  | .ret => ret
  | .jp nnn => jp nnn
  | .call nnn => call nnn
  | .seImm x nn => seImm x nn
  | .sneImm x nn => sneImm x nn
  | .seReg x y => seReg x y
  | .ldImm x nn => ldImm x nn
  | .addImm x nn => addImm x nn
  | .ldReg x y => ldReg x y
  | .orReg x y => orReg x y
  | .andReg x y => andReg x y
  | .xorReg x y => xorReg x y
  | .addReg x y => addReg x y
  | .sub x y => sub x y
  | .shr x y => shr x y
  | .subn x y => subn x y
  | .shl x y => shl x y
  | .sneReg x y => sneReg x y
  | .ldI nnn => ldI nnn
  | .jpV0 nnn => jpV0 nnn
  | .rnd x nn => rnd x nn
  | .drw x y n => drw x y n
  | .skp x => skp x
  | .sknp x => sknp x
  | .ldVxDt x => ldVxDt x
  | .ldVxK x => ldVxK x
  | .ldDtVx x => ldDtVx x
  | .ldStVx x => ldStVx x
  | .addI x => addI x
  | .ldF x => ldF x
  | .ldB x => ldB x
  | .stRegs x => stRegs x
  | .ldRegs x => ldRegs x

theorem decodeWord_encode {i : Instr} (hi : i.wellFormed = true) : decodeWord (encode i) = .ok i := by
  obtain ⟨r, hr, hsel, hbuild⟩ := encodedInItsRow i hi
  exact (decodeWord_ok_iff_readBySomeRow _ _).mpr ⟨r, hr, hsel, hbuild.symm⟩

/-- A list of two bytes decodes as the word they make, with no byte left over. -/
theorem decodeBytes_pair (hi lo : Byte) :
    decodeBytes [hi, lo] = (decodeWord (wordOfBytes hi lo)).map (fun i => (i, [])) := rfl

/-- Settles O2: the row of the map that holds the word reads the instruction back, and the two bytes make the word. -/
theorem decodeOfEncodeIsTheInstruction : Obligations.DecodeOfEncodeIsTheInstruction := by
  intro i hi
  have hword := decodeWord_encode hi
  refine ⟨hword, ?_⟩
  rw [decodeBytes_pair, wordOfBytes_bytes, hword]
  rfl

/-! ### Encode of decode (R76, R81) -/

/-- The encoder gives back every bit of the word that decoding examines. -/
def EncodesExamined (w : Word) (i : Instr) : Prop := i.wellFormed = true ∧ encode i = w &&& examinedBits i

theorem packNNN_fields (w : Word) : packNNN (fieldOp w) (fieldNNN w) = w := by
  apply BitVec.eq_of_toNat_eq
  rw [toNat_packNNN _ (fieldOp_lt w), fieldOp_eq, fieldNNN_eq]
  omega

theorem packXNN_fields (w : Word) : packXNN (fieldOp w) (fieldX w) (fieldNN w) = w := by
  apply BitVec.eq_of_toNat_eq
  rw [toNat_packXNN _ (fieldOp_lt w), fieldOp_eq, fieldX_eq, fieldNN_eq]
  omega

theorem packXYN_fields (w : Word) : packXYN (fieldOp w) (fieldX w) (fieldY w) (fieldN w) = w := by
  apply BitVec.eq_of_toNat_eq
  rw [toNat_packXYN _ (fieldOp_lt w), fieldOp_eq, fieldX_eq, fieldY_eq, fieldN_eq]
  omega

theorem and_FFF0 (w : Word) : (w &&& (0xFFF0 : Word)).toNat = w.toNat / 0x10 * 0x10 := by
  change (w &&& 0xFFF0#16).toNat = _
  have h : w &&& 0xFFF0#16 = w.extractLsb' 4 12 ++ 0#4 := by
    apply BitVec.eq_of_getLsbD_eq
    intro i hi
    simp only [BitVec.getLsbD_and, BitVec.getLsbD_append, BitVec.getLsbD_extractLsb']
    interval_cases i <;> simp
  have hlt := w.isLt
  rw [h, BitVec.toNat_append, ← Nat.shiftLeft_add_eq_or_of_lt (BitVec.isLt _), Nat.shiftLeft_eq,
    BitVec.extractLsb'_toNat, Nat.shiftRight_eq_div_pow]
  simp only [BitVec.toNat_ofNat]
  omega

/-- The word whose low nibble is written as 0 keeps every other bit (R81). -/
theorem packXYN_zero_fields (w : Word) : packXYN (fieldOp w) (fieldX w) (fieldY w) 0 = w &&& 0xFFF0 := by
  apply BitVec.eq_of_toNat_eq
  rw [toNat_packXYN _ (fieldOp_lt w), and_FFF0, fieldOp_eq, fieldX_eq, fieldY_eq]
  omega

theorem and_FFFF (w : Word) : w &&& (0xFFFF : Word) = w := BitVec.and_allOnes

/-- An instruction that decoding examines whole is encoded as its own word. -/
theorem encodesExamined_of_whole {w : Word} {i : Instr} (hwf : i.wellFormed = true) (hbits : examinedBits i = 0xFFFF)
    (h : encode i = w) : EncodesExamined w i :=
  ⟨hwf, by rw [hbits, and_FFFF, h]⟩

/-- An instruction of format `X` is encoded as the word of its family with its sub-opcode in the low byte. -/
theorem encodesExamined_X {w : Word} {op nn : Nat} {i : Instr} (hop : fieldOp w = op)
    (hnn : (fieldNN w).toNat = nn) (hwf : i.wellFormed = true) (hbits : examinedBits i = 0xFFFF)
    (h : encode i = packXNN op (fieldX w) (BitVec.ofNat 8 nn)) : EncodesExamined w i := by
  refine encodesExamined_of_whole hwf hbits ?_
  rw [h, ← hop, ← hnn, BitVec.ofNat_toNat, BitVec.setWidth_eq, packXNN_fields]

/-- An instruction of family 0x8 is encoded as the word of that family with its sub-opcode in the low nibble. -/
theorem encodesExamined_alu {w : Word} {n : Nat} {i : Instr} (hop : fieldOp w = 8) (hn : fieldN w = n)
    (hwf : i.wellFormed = true) (hbits : examinedBits i = 0xFFFF)
    (h : encode i = packXYN 8 (fieldX w) (fieldY w) n) : EncodesExamined w i := by
  refine encodesExamined_of_whole hwf hbits ?_
  rw [h, ← hop, ← hn, packXYN_fields]

/-- An instruction of family 0x0 is encoded as the word with bits 11:8 cleared (R76). -/
theorem decodeSystem_encodesExamined {w : Word} {i : Instr} (hop : fieldOp w = 0)
    (h : decodeSystem Machine.hardware w = .ok i) : EncodesExamined w i := by
  obtain ⟨hn, rfl⟩ | ⟨hn, rfl⟩ := (decodeSystem_ok_iff w i).mp h
  · exact ⟨rfl, ((and_F0FF_eq_iff w 0x00E0).mpr ⟨hop, hn⟩).symm⟩
  · exact ⟨rfl, ((and_F0FF_eq_iff w 0x00EE).mpr ⟨hop, hn⟩).symm⟩

theorem decodeAlu_encodesExamined {w : Word} {i : Instr} (hop : fieldOp w = 8) (h : decodeAlu w = .ok i) :
    EncodesExamined w i := by
  rcases (decodeAlu_ok_iff w i).mp h with
    ⟨hn, rfl⟩ | ⟨hn, rfl⟩ | ⟨hn, rfl⟩ | ⟨hn, rfl⟩ | ⟨hn, rfl⟩ | ⟨hn, rfl⟩ | ⟨hn, rfl⟩ | ⟨hn, rfl⟩ | ⟨hn, rfl⟩ <;>
  exact encodesExamined_alu hop hn rfl rfl rfl

theorem decodeKey_encodesExamined {w : Word} {i : Instr} (hop : fieldOp w = 14) (h : decodeKey w = .ok i) :
    EncodesExamined w i := by
  rcases (decodeKey_ok_iff w i).mp h with ⟨hn, rfl⟩ | ⟨hn, rfl⟩ <;> exact encodesExamined_X hop hn rfl rfl rfl

theorem decodeMisc_encodesExamined {w : Word} {i : Instr} (hop : fieldOp w = 15) (h : decodeMisc w = .ok i) :
    EncodesExamined w i := by
  rcases (decodeMisc_ok_iff w i).mp h with
    ⟨hn, rfl⟩ | ⟨hn, rfl⟩ | ⟨hn, rfl⟩ | ⟨hn, rfl⟩ | ⟨hn, rfl⟩ | ⟨hn, rfl⟩ | ⟨hn, rfl⟩ | ⟨hn, rfl⟩ | ⟨hn, rfl⟩ <;>
  exact encodesExamined_X hop hn rfl rfl rfl

/-- A family of format `NNN` is encoded as its own word. -/
theorem encodesExamined_NNN {w : Word} {op : Nat} {i : Instr} (hop : fieldOp w = op) (hwf : i.wellFormed = true)
    (hbits : examinedBits i = 0xFFFF) (h : encode i = packNNN op (fieldNNN w)) : EncodesExamined w i :=
  encodesExamined_of_whole hwf hbits (by rw [h, ← hop, packNNN_fields])

/-- A family of format `XNN` is encoded as its own word. -/
theorem encodesExamined_XNN {w : Word} {op : Nat} {i : Instr} (hop : fieldOp w = op) (hwf : i.wellFormed = true)
    (hbits : examinedBits i = 0xFFFF) (h : encode i = packXNN op (fieldX w) (fieldNN w)) : EncodesExamined w i :=
  encodesExamined_of_whole hwf hbits (by rw [h, ← hop, packXNN_fields])

/-- A register skip of family 0x5 or 0x9 is encoded as the word with bits 3:0 cleared (R81). -/
theorem encodesExamined_XY {w : Word} {op : Nat} {i : Instr} (hop : fieldOp w = op) (hwf : i.wellFormed = true)
    (hbits : examinedBits i = 0xFFF0) (h : encode i = packXYN op (fieldX w) (fieldY w) 0) : EncodesExamined w i :=
  ⟨hwf, by rw [h, ← hop, packXYN_zero_fields, hbits]⟩

/-- The row count of a draw is the low nibble of its word. -/
theorem encodesExamined_drw {w : Word} (hop : fieldOp w = 13) :
    EncodesExamined w (.drw (fieldX w) (fieldY w) (fieldN w)) :=
  encodesExamined_of_whole (decide_eq_true (Nat.le_of_lt_succ (fieldN_lt w))) rfl
    (by rw [encode, ← hop, packXYN_fields])

/-- Settles O3: the operation nibble picks the family, and each family's format packs the fields back. -/
theorem encodeOfDecodeIsTheExaminedWord : Obligations.EncodeOfDecodeIsTheExaminedWord := by
  intro w i h
  rw [decodeWord_eq] at h
  split at h
  case h_1 hop => exact decodeSystem_encodesExamined hop h
  case h_9 hop => exact decodeAlu_encodesExamined hop h
  case h_15 hop => exact decodeKey_encodesExamined hop h
  case h_16 =>
    have hlt := fieldOp_lt w
    simp only [imp_false] at *
    exact decodeMisc_encodesExamined (by omega) h
  all_goals obtain rfl := Except.ok.inj h
  case h_14 hop => exact encodesExamined_drw hop
  case h_2 hop | h_3 hop | h_11 hop | h_12 hop => exact encodesExamined_NNN hop rfl rfl rfl
  case h_6 hop | h_10 hop => exact encodesExamined_XY hop rfl rfl rfl
  case h_4 hop | h_5 hop | h_7 hop | h_8 hop | h_13 hop => exact encodesExamined_XNN hop rfl rfl rfl

/-! ### Decode errors (R76 to R79) -/

theorem decodeSystem_error_iff (w : Word) :
    (∃ e, decodeSystem Machine.hardware w = .error e) ↔ fieldNN w ∉ [(0xE0 : Byte), 0xEE] := by
  rw [decodeSystem_hardware]
  simp only [List.mem_cons, List.not_mem_nil, ← BitVec.toNat_inj]
  split <;> simp_all

theorem decodeAlu_error_iff (w : Word) :
    (∃ e, decodeAlu w = .error e) ↔ fieldN w ∈ [0x8, 0x9, 0xA, 0xB, 0xC, 0xD, 0xF] := by
  have h := fieldN_lt w
  unfold decodeAlu
  generalize fieldN w = n at h ⊢
  interval_cases n <;> simp

theorem decodeKey_error_iff (w : Word) :
    (∃ e, decodeKey w = .error e) ↔ fieldNN w ∉ [(0x9E : Byte), 0xA1] := by
  unfold decodeKey
  simp only [List.mem_cons, List.not_mem_nil, ← BitVec.toNat_inj]
  split <;> simp_all

theorem decodeMisc_error_iff (w : Word) : (∃ e, decodeMisc w = .error e) ↔
    fieldNN w ∉ [(0x07 : Byte), 0x0A, 0x15, 0x18, 0x1E, 0x29, 0x33, 0x55, 0x65] := by
  unfold decodeMisc
  simp only [List.mem_cons, List.not_mem_nil, ← BitVec.toNat_inj]
  split <;> simp_all

/-- Settles O6: each nibble has its one family, and twelve of them decode every word. -/
theorem decodeErrorsAreTheUnhandledWords : Obligations.DecodeErrorsAreTheUnhandledWords := by
  intro w
  have hlt := fieldOp_lt w
  rw [decodeWord_eq, ← decodeSystem_error_iff, ← decodeAlu_error_iff, ← decodeKey_error_iff, ← decodeMisc_error_iff]
  generalize fieldOp w = op at hlt ⊢
  interval_cases op <;> simp

/-! ### Every word is one instruction or a decode error (R82) -/

theorem decodeWord_total (w : Word) : (∃ i, decodeWord w = .ok i) ∨ ∃ e, decodeWord w = .error e := by
  cases h : decodeWord w with
  | ok i => exact .inl ⟨i, rfl⟩
  | error e => exact .inr ⟨e, rfl⟩

/-- A word that two rows of the map select is decoded to what each of them builds, so they are one row. -/
theorem opcodeMap_row_unique {r q : OpcodeRow} {w : Word} (hr : r ∈ opcodeMap) (hq : q ∈ opcodeMap)
    (hrw : w &&& r.mask = r.value) (hqw : w &&& q.mask = q.value) : r = q := by
  have hdr : decodeWord w = .ok (r.build w) := (decodeWord_ok_iff_readBySomeRow _ _).mpr ⟨r, hr, hrw, rfl⟩
  have hdq : decodeWord w = .ok (q.build w) := (decodeWord_ok_iff_readBySomeRow _ _).mpr ⟨q, hq, hqw, rfl⟩
  exact opcodeMap_build_inj w hr hq (Except.ok.inj (hdr.symm.trans hdq))

theorem opcodeMap_nodup : opcodeMap.Nodup := by
  have h : (opcodeMap.map (fun r => (r.build 0).ctorIdx)).Nodup := opcodeMap_ctorIdx 0 ▸ List.nodup_range
  exact h.of_map

theorem opcodeMap_disjoint :
    opcodeMap.Pairwise (fun r q => ∀ w, ¬ (w &&& r.mask = r.value ∧ w &&& q.mask = q.value)) :=
  opcodeMap_nodup.pairwise_of_forall_ne fun _ hr _ hq hne _ ⟨hrw, hqw⟩ =>
    hne (opcodeMap_row_unique hr hq hrw hqw)

/-- In a range of whole periods, a periodic property holds as often as in one period, times their number. -/
theorem countP_range_mul {p : Nat → Bool} {n : Nat} (hp : ∀ k, p (k % n) = p k) (m : Nat) :
    (List.range (m * n)).countP p = m * (List.range n).countP p := by
  induction m with
  | zero => simp
  | succ m ih =>
    have period : (fun k => p (m * n + k)) = p := by
      funext k
      rw [← hp, Nat.mul_add_mod_self_right, hp]
    rw [Nat.succ_mul, List.range_add, List.countP_append, List.countP_map, ih, Nat.succ_mul]
    exact congrArg (fun f => m * (List.range n).countP p + (List.range n).countP f) period

/-! ### The count of instruction words in a family -/

/-- Word `k` of the 4096 words of a family. -/
def familyWord (op k : Nat) : Word := BitVec.ofNat 16 (op * 0x1000 + k)

theorem familyWord_toNat {op k : Nat} (hop : op < 16) (hk : k < 0x1000) :
    (familyWord op k).toNat = op * 0x1000 + k := by
  rw [familyWord, BitVec.toNat_ofNat, Nat.mod_eq_of_lt (by omega)]

theorem fieldOp_familyWord {op k : Nat} (hop : op < 16) (hk : k < 0x1000) : fieldOp (familyWord op k) = op := by
  rw [fieldOp_eq, familyWord_toNat hop hk]
  omega

theorem fieldN_familyWord {op k : Nat} (hop : op < 16) (hk : k < 0x1000) : fieldN (familyWord op k) = k % 16 := by
  rw [fieldN_eq, familyWord_toNat hop hk]
  omega

theorem fieldNN_familyWord {op k : Nat} (hop : op < 16) (hk : k < 0x1000) :
    fieldNN (familyWord op k) = BitVec.ofNat 8 k := by
  apply BitVec.eq_of_toNat_eq
  rw [fieldNN_eq, familyWord_toNat hop hk, BitVec.toNat_ofNat]
  omega

theorem toBool_eq_decide {ε α : Type} {r : Except ε α} {p : Prop} [Decidable p]
    (h : (∃ e, r = .error e) ↔ ¬ p) : r.toBool = decide p := by
  cases r <;> simp_all [Except.toBool]

/-- The count of a family whose words are told apart by their low bits, `n` cases that come `m` times. -/
theorem familyCount_eq {op m n : Nat} (hmn : 0x1000 = m * n) {p : Nat → Prop} [DecidablePred p]
    (hp : ∀ k, p (k % n) ↔ p k)
    (h : ∀ k < 0x1000, (∃ e, decodeWord (familyWord op k) = .error e) ↔ ¬ p k) :
    familyCount op = m * (List.range n).countP (fun k => p k) := by
  have accepted : (List.range 0x1000).countP (fun k => (decodeWord (familyWord op k)).toBool) =
      (List.range 0x1000).countP (fun k => p k) :=
    List.countP_congr fun k hk => by rw [toBool_eq_decide (h k (List.mem_range.mp hk))]
  have whole : familyCount op = (List.range 0x1000).countP (fun k => (decodeWord (familyWord op k)).toBool) :=
    (List.countP_eq_length_filter ..).symm
  rw [whole, accepted, hmn, countP_range_mul (fun k => decide_eq_decide.mpr (hp k))]

/-- Each byte of a list without repetitions is one number below 256. -/
theorem countP_bytes {nns : List Byte} (hnns : nns.Nodup) :
    (List.range 256).countP (fun k => BitVec.ofNat 8 k ∈ nns) = nns.length := by
  have hperm : ((List.range 256).filter (fun k => BitVec.ofNat 8 k ∈ nns)).Perm (nns.map BitVec.toNat) := by
    refine (List.perm_ext_iff_of_nodup (List.nodup_range.filter _)
      (hnns.map fun _ _ => BitVec.eq_of_toNat_eq)).mpr fun k => ?_
    simp only [List.mem_filter, List.mem_range, decide_eq_true_eq, List.mem_map]
    constructor
    · rintro ⟨hk, hmem⟩
      exact ⟨_, hmem, (BitVec.toNat_ofNat _ _).trans (Nat.mod_eq_of_lt hk)⟩
    · rintro ⟨b, hb, rfl⟩
      exact ⟨b.isLt, by simpa using hb⟩
  rw [List.countP_eq_length_filter, hperm.length_eq, List.length_map]

/-- The count of a family whose low byte decides, its handled bytes being `nns`. -/
theorem familyCount_of_lowByte {op : Nat} (hop : op < 16) {nns : List Byte} (hnns : nns.Nodup)
    (h : ∀ w, fieldOp w = op → ((∃ e, decodeWord w = .error e) ↔ fieldNN w ∉ nns)) :
    familyCount op = 16 * nns.length := by
  rw [← countP_bytes hnns]
  refine familyCount_eq rfl (fun k => ?_) (fun k hk => ?_)
  · rw [show BitVec.ofNat 8 (k % 256) = BitVec.ofNat 8 k from BitVec.eq_of_toNat_eq (by simp)]
  · rw [h _ (fieldOp_familyWord hop hk), fieldNN_familyWord hop hk]

theorem familyCount_system : familyCount 0x0 = 32 :=
  familyCount_of_lowByte (nns := [0xE0, 0xEE]) (by decide) (by decide)
    fun w hw => by rw [decodeWord_eq, hw]; exact decodeSystem_error_iff w

theorem familyCount_alu : familyCount 0x8 = 2304 := by
  have h : familyCount 0x8 =
      256 * (List.range 16).countP (fun k => k % 16 ∉ [0x8, 0x9, 0xA, 0xB, 0xC, 0xD, 0xF]) := by
    refine familyCount_eq rfl (fun k => by rw [Nat.mod_mod]) fun k hk => ?_
    have hop := fieldOp_familyWord (op := 8) (by decide) hk
    rw [decodeWord_eq, hop, not_not, ← fieldN_familyWord (op := 8) (by decide) hk]
    exact decodeAlu_error_iff _
  rw [h]
  decide

theorem familyCount_key : familyCount 0xE = 32 :=
  familyCount_of_lowByte (nns := [0x9E, 0xA1]) (by decide) (by decide)
    fun w hw => by rw [decodeWord_eq, hw]; exact decodeKey_error_iff w

theorem familyCount_misc : familyCount 0xF = 144 :=
  familyCount_of_lowByte (nns := [0x07, 0x0A, 0x15, 0x18, 0x1E, 0x29, 0x33, 0x55, 0x65]) (by decide) (by decide)
    fun w hw => by rw [decodeWord_eq, hw]; exact decodeMisc_error_iff w

/-- Outside the four families that have unhandled words, every word is an instruction. -/
theorem decodeWord_ok_of_family {w : Word} (h : fieldOp w ∉ [0x0, 0x8, 0xE, 0xF]) : ∃ i, decodeWord w = .ok i := by
  refine (decodeWord_total w).resolve_right fun herr => h ?_
  obtain ⟨hop, -⟩ | ⟨hop, -⟩ | ⟨hop, -⟩ | ⟨hop, -⟩ := (decodeErrorsAreTheUnhandledWords w).mp herr <;> simp [hop]

/-- Settles O5: rows that select one word are one row, and the words of a family are counted by period. -/
theorem decodingIsTotalAndUnambiguous : Obligations.DecodingIsTotalAndUnambiguous :=
  ⟨decodeWord_total, opcodeMap_disjoint, familyCount_system, familyCount_alu, familyCount_key, familyCount_misc,
    fun _ => decodeWord_ok_of_family⟩

/-- Settles O1: each word is decoded by evaluation. -/
theorem wordsWrittenOutDecode : Obligations.WordsWrittenOutDecode := by
  unfold Obligations.WordsWrittenOutDecode
  decide

end Sys2Proof
end

section
/-! What each instruction changes (10_state.md R23 to R36, 20_memory.md R54): the parts of the state, and the general
registers. -/

namespace Sys2Proof.Machine

open Sys2Proof.Claims

/-! ### The parts an instruction changes when it does not fault -/

/-- The parts of the state that an instruction changes when it does not fault. -/
def changedParts : Instr → List Part
  | .cls => [.fb]
  | .ret => [.pc, .sp, .output]
  | .call _ => [.pc, .stack, .sp]
  | .jp _ | .jpV0 _ | .seImm _ _ | .sneImm _ _ | .seReg _ _ | .sneReg _ _ | .skp _ | .sknp _ => [.pc]
  | .ldImm _ _ | .addImm _ _ | .ldReg _ _ | .orReg _ _ | .andReg _ _ | .xorReg _ _ | .addReg _ _ | .sub _ _
  | .shr _ _ | .subn _ _ | .shl _ _ | .rnd _ _ | .ldVxDt _ | .ldRegs _ => [.regs]
  | .ldVxK _ => [.pc, .regs]
  | .drw _ _ _ => [.regs, .fb]
  | .ldI _ | .addI _ | .ldF _ => [.index]
  | .ldB _ | .stRegs _ => [.mem]
  | .ldDtVx _ => [.dt]
  | .ldStVx _ => [.st]

/-- Replacing DT leaves every other part. -/
theorem setDt_frame (s : State) (dt : Byte) : Frame [.dt] s { s with dt := dt } := by
  intro p hp
  refine SamePart.of_eq ?_
  cases p <;> simp_all

/-- Replacing ST leaves every other part. -/
theorem setSt_frame (s : State) (st : Byte) : Frame [.st] s { s with st := st } := by
  intro p hp
  refine SamePart.of_eq ?_
  cases p <;> simp_all

/-- Replacing sp and pc leaves every other part. -/
theorem setSpPc_frame (s : State) (sp : Fin 17) (pc : Word) : Frame [.pc, .sp] s { s with sp := sp, pc := pc } := by
  intro p hp
  refine SamePart.of_eq ?_
  cases p <;> simp_all

/-- Replacing the general registers and the framebuffer leaves every other part. -/
theorem setRegsFb_frame (s : State) (v : Vector Byte 16) (fb : Vector (Vector Bool 64) 32) :
    Frame [.regs, .fb] s { s with v := v, fb := fb } :=
  ((setRegs_frame s v).mono (by decide)).trans ((setFb_frame _ fb).mono (by decide))

theorem drawRows_frame (px0 py0 n : Nat) (s : State) : Frame [.regs, .fb] s (drawRows hardware px0 py0 n s) := by
  obtain ⟨hrest, -⟩ := drawRows_touches px0 py0 n s
  rw [hrest]
  exact setRegsFb_frame s _ _

/-- The pop of an occupied slot (41_control.md R110). -/
theorem popAndJump_of_succ {s : State} {k : Fin 16} (hk : s.sp.val = k.val + 1) :
    s.popAndJump hardware = { s with sp := k.castSucc, pc := s.stack.get k } := by
  obtain ⟨j, hj, e⟩ | ⟨h, -⟩ := popAndJump_cases s
  · obtain rfl : j = k := Fin.ext (by omega)
    exact e
  · omega

/-- The pop of an empty stack is a report. -/
theorem popAndJump_of_empty {s : State} (h : s.sp.val = 0) :
    s.popAndJump hardware = s.report hardware .stackUnderflow := by
  obtain ⟨j, hj, -⟩ | ⟨-, e⟩ := popAndJump_cases s
  · omega
  · exact e

/-- The stack is empty or has a top slot. -/
theorem sp_cases (s : State) : s.sp.val = 0 ∨ ∃ k : Fin 16, s.sp.val = k.val + 1 := by
  obtain ⟨k, hk, -⟩ | ⟨h, -⟩ := popAndJump_cases s
  · exact .inr ⟨k, hk⟩
  · exact .inl h

theorem popAndJump_frame (s : State) : Frame [.pc, .sp, .output] s (s.popAndJump hardware) := by
  obtain ⟨k, -, e⟩ | ⟨-, e⟩ := popAndJump_cases s
  · rw [e]
    exact (setSpPc_frame s _ _).mono (by decide)
  · rw [e]
    exact (report_frame s _).mono (by decide)

theorem exec_ldVxDt (x : Reg) (s : State) : exec (.ldVxDt x) s = .next (s.setV x s.dt) := rfl
theorem exec_ldDtVx (x : Reg) (s : State) : exec (.ldDtVx x) s = .next { s with dt := s.getV x } := rfl
theorem exec_ldStVx (x : Reg) (s : State) : exec (.ldStVx x) s = .next { s with st := s.getV x } := rfl

/-- The draw of a sprite that can be read: VF is cleared, then the rows are drawn from an origin read before (R101). -/
theorem exec_drw_inside {n : Nat} {s : State} (h : SpriteInMemory s n) (x y : Reg) :
    exec (.drw x y n) s =
      .next (drawRows hardware ((s.getV x).toNat % 64) ((s.getV y).toNat % 32) n (s.setV vf 0)) := by
  rw [exec_drw]
  by_cases hn : n = 0
  · rw [if_pos hn]
  · rw [if_neg hn, checked_inside (h.resolve_left hn)]

/-- The draw of any other sprite is the memory-range fault. -/
theorem exec_drw_outside {n : Nat} {s : State} (h : ¬ SpriteInMemory s n) (x y : Reg) :
    exec (.drw x y n) s = .next (s.raiseFault hardware .memOutOfRange) := by
  obtain ⟨hn, hgt⟩ : n ≠ 0 ∧ s.index.toNat + (n - 1) > 0xFFF := by simpa [SpriteInMemory] using h
  rw [exec_drw, if_neg hn, checked_outside hgt]

theorem spriteInMemory_of_noFault {x y : Reg} {n : Nat} {s : State} (h : faultCondition s (.drw x y n) = none) :
    SpriteInMemory s n := by
  simp only [faultCondition, ite_eq_right_iff, reduceCtorEq, imp_false] at h
  unfold SpriteInMemory
  omega

theorem memRange_of_noFault {last : Nat}
    (h : (if last > 0xFFF then some FaultCause.memOutOfRange else none) = none) : last ≤ 0xFFF := by
  simpa using h

theorem keySkip_frame {x : Reg} {pressed : Bool} {s : State}
    (h : (if (s.getV x).toNat > 15 then some FaultCause.keyOutOfRange else none) = none) :
    Frame [.pc] s (keySkip hardware x pressed s) := by
  obtain ⟨k, -, e⟩ | ⟨hgt, -⟩ := keySkip_cases x pressed s
  · rw [e]
    exact (skipIf_spec s _).2
  · simp [hgt] at h

/-- An instruction whose fault condition does not hold changes its own parts alone. -/
theorem exec_frame {i : Instr} {s t : State} (hf : faultCondition s i = none) (h : exec i s = .next t) :
    Frame (changedParts i) s t := by
  cases i with
  | cls => cases h; exact setFb_frame s _
  | ret => cases h; exact popAndJump_frame s
  | jp _ | jpV0 _ => cases h; exact jumpTo_frame s _
  | call nnn =>
    cases h
    obtain ⟨_, e⟩ | ⟨hfull, -⟩ := pushAndJump_cases s (addrOfNNN nnn)
    · exact e ▸ setStackSpPc_frame s _ _ _
    · simp [faultCondition, hfull] at hf
  | seImm _ _ | sneImm _ _ | seReg _ _ | sneReg _ _ => cases h; exact (skipIf_spec s _).2
  | skp _ | sknp _ => cases h; exact keySkip_frame hf
  | ldImm _ _ | addImm _ _ | ldReg _ _ | orReg _ _ | andReg _ _ | xorReg _ _ | rnd _ _ | ldVxDt _ =>
    cases h; exact setV_frame s _ _
  | addReg _ _ | sub _ _ | shr _ _ | subn _ _ | shl _ _ => cases h; exact (aluWithFlag_frames _ _ _ s).2
  | ldVxK x =>
    obtain ⟨_, -, e⟩ | ⟨-, e⟩ := exec_ldVxK_cases x s
    · cases e.symm.trans h; exact (setV_frame s _ _).mono (by simp [changedParts])
    · cases e.symm.trans h; exact (jumpTo_frame s _).mono (by simp [changedParts])
  | drw x y n =>
    cases (exec_drw_inside (spriteInMemory_of_noFault hf) x y).symm.trans h
    exact ((setV_frame s vf 0).mono (by simp [changedParts])).trans (drawRows_frame _ _ n _)
  | ldRegs x =>
    cases (exec_ldRegs_inside (memRange_of_noFault hf)).symm.trans h
    exact loadRegs_frame s x
  | ldI _ | addI _ | ldF _ => cases h; exact setIndex_frame s _
  | ldB x =>
    cases (exec_ldB_inside (memRange_of_noFault hf)).symm.trans h
    exact setMem_frame s _
  | stRegs x =>
    cases (exec_stRegs_inside (memRange_of_noFault hf)).symm.trans h
    exact setMem_frame s _
  | ldDtVx _ => cases h; exact setDt_frame s _
  | ldStVx _ => cases h; exact setSt_frame s _

/-- What an instruction can do: latch the one fault of its condition and nothing else, or change its own parts alone,
the latch not being one of them (60_exceptions.md R210, R211). -/
theorem exec_outcome {i : Instr} {s t : State} (h : exec i s = .next t) :
    (∃ c, faultCondition s i = some c ∧ FaultsWith c s t) ∨
    (faultCondition s i = none ∧ t.fault = s.fault ∧ Frame (changedParts i) s t) := by
  obtain hfaults | ⟨hnone, hkept⟩ := exec_latches h
  · exact .inl hfaults
  · exact .inr ⟨hnone, hkept, exec_frame hnone h⟩

/-- A part other than pc and the latch, if an instruction does not change it when it does not fault, is unchanged. -/
theorem exec_samePart {i : Instr} {s t : State} (h : exec i s = .next t) {p : Part} (hp : p ∉ changedParts i)
    (hpc : p ≠ .pc) (hfault : p ≠ .fault) : SamePart s t p := by
  obtain ⟨c, -, -, -, hframe⟩ | ⟨-, -, hframe⟩ := exec_outcome h
  · exact hframe p (by simp [hpc, hfault])
  · exact hframe p hp

/-- A part other than pc and the latch is unchanged, unless the instruction is one of those that change it. -/
theorem exec_samePart_or {i : Instr} {s t : State} (h : exec i s = .next t) (p : Part) {Writer : Prop}
    (hw : p ∈ changedParts i → Writer) (hpc : p ≠ .pc := by decide) (hfault : p ≠ .fault := by decide) :
    SamePart s t p ∨ Writer := by
  by_cases hp : p ∈ changedParts i
  · exact .inr (hw hp)
  · exact .inl (exec_samePart h hp hpc hfault)

/-- Settles O18: the table of changed parts gives each part to the instructions the statement names, and the last six
parts to none. -/
theorem eachStoreHasItsOwnWriters : Obligations.EachStoreHasItsOwnWriters := by
  intro i s t h
  refine ⟨exec_samePart_or h .mem ?_, exec_samePart_or h .fb ?_, exec_samePart_or h .stack ?_,
    exec_samePart_or h .sp ?_, exec_samePart_or h .index ?_, exec_samePart_or h .dt ?_, exec_samePart_or h .st ?_,
    exec_samePart_or h .output ?_, exec_samePart h (p := .key) ?_ (by decide) (by decide),
    exec_samePart h (p := .acc) ?_ (by decide) (by decide), exec_samePart h (p := .word) ?_ (by decide) (by decide),
    exec_samePart h (p := .rand) ?_ (by decide) (by decide),
    exec_samePart h (p := .pending) ?_ (by decide) (by decide),
    exec_samePart h (p := .cycles) ?_ (by decide) (by decide)⟩
  all_goals cases i <;> simp [changedParts]

/-! ### The general registers an instruction changes (10_state.md R23) -/

theorem mem_regsUpTo {x r : Reg} : r ∈ regsUpTo x ↔ r ≤ x := by simp [regsUpTo]

/-- An instruction changes no general register but those the table of R23 gives it. -/
theorem exec_regsSameExcept {i : Instr} {s t : State} (h : exec i s = .next t) :
    RegsSameExcept (writtenRegs i) s t := by
  by_cases hregs : .regs ∈ changedParts i
  case neg => exact fun r _ => exec_samePart h hregs (by decide) (by decide) r
  obtain ⟨c, -, -, -, hframe⟩ | ⟨hnone, -⟩ := exec_outcome h
  · exact fun r _ => hframe .regs (by decide) r
  cases i with
  | ldImm _ _ | addImm _ _ | ldReg _ _ | orReg _ _ | andReg _ _ | xorReg _ _ | rnd _ _ | ldVxDt _ =>
    cases h
    exact (setV_frames s _ _).1
  | addReg _ _ | sub _ _ | shr _ _ | subn _ _ | shl _ _ =>
    cases h
    exact (aluWithFlag_frames _ _ _ s).1
  | ldVxK x =>
    obtain ⟨_, -, e⟩ | ⟨-, e⟩ := exec_ldVxK_cases x s
    · cases e.symm.trans h
      exact (setV_frames s x _).1
    · cases e.symm.trans h
      exact fun _ _ => rfl
  | drw x y n =>
    cases (exec_drw_inside (spriteInMemory_of_noFault hnone) x y).symm.trans h
    intro r hr
    have hvf : r ≠ vf := List.ne_of_not_mem_cons hr
    obtain ⟨-, hregs⟩ := drawRows_touches ((s.getV x).toNat % 64) ((s.getV y).toNat % 32) n (s.setV vf 0)
    rw [hregs r hvf, getV_setV_of_ne s hvf]
  | ldRegs x =>
    cases (exec_ldRegs_inside (memRange_of_noFault hnone)).symm.trans h
    intro r hr
    obtain ⟨-, hread⟩ := loadRegs_spec s x
    rw [hread, if_neg (fun hle => hr (mem_regsUpTo.mpr hle))]
  | _ => simp [changedParts] at hregs

/-- Settles O16. -/
theorem registersWrittenAreThoseOfTheTable : Obligations.RegistersWrittenAreThoseOfTheTable :=
  fun _ _ _ h => exec_regsSameExcept h

end Sys2Proof.Machine
end

section
/-! What an instruction reads (10_state.md R23, 60_exceptions.md R203): two runs of it from states that differ in
general registers it does not read, or in what was output before, end alike. -/

namespace Sys2Proof.Machine

open Sys2Proof.Claims

/-- Registers that read alike are one register file. -/
theorem v_eq_of_getV {s t : State} (h : ∀ r, t.getV r = s.getV r) : t.v = s.v :=
  Vector.ext fun k hk => h ⟨k, hk⟩

/-! ### The shared operations on a state with other general registers and another output -/

section
variable (s : State) (v : Vector Byte 16) (o : List Output)

theorem skipIf_setRegsOutput (c : Bool) :
    ({ s with v := v, output := o } : State).skipIf c = { s.skipIf c with v := v, output := o } := by
  cases c <;> rfl

theorem pushAndJump_setRegsOutput (target : Word) :
    ({ s with v := v, output := o } : State).pushAndJump hardware target =
      { s.pushAndJump hardware target with v := v, output := o } := by
  by_cases h : s.sp.val < hardware.stackDepth.val
  · simp only [State.pushAndJump, dif_pos h]
  · simp only [State.pushAndJump, dif_neg h]
    rfl

theorem checked_setRegsOutput (last : Nat) (mem : Memory) :
    ({ s with v := v, output := o } : State).checked hardware last { s with v := v, output := o, mem := mem } =
      { s.checked hardware last { s with mem := mem } with v := v, output := o } := by
  by_cases h : s.index.toNat + last ≤ 0xFFF
  · rw [checked_inside h, checked_inside (s := { s with v := v, output := o }) h]
  · rw [checked_outside (Nat.not_le.mp h), checked_outside (s := { s with v := v, output := o }) (Nat.not_le.mp h)]
    rfl

variable {s v}

theorem keySkip_setRegsOutput {x : Reg} (hx : v.get x = s.getV x) (pressed : Bool) :
    keySkip hardware x pressed { s with v := v, output := o } =
      { keySkip hardware x pressed s with v := v, output := o } := by
  have hget : ({ s with v := v, output := o } : State).getV x = s.getV x := hx
  unfold keySkip
  rw [hget]
  split
  · rfl
  · exact skipIf_setRegsOutput s v o _

theorem storeRegs_setRegsOutput {x : Reg} (hx : ∀ r ≤ x, v.get r = s.getV r) :
    storeRegs { s with v := v, output := o } x = storeRegs s x := by
  refine List.foldl_ext _ _ _ fun m k hk => ?_
  have hle : regOfNat k ≤ x := by
    have hlt := List.mem_range.mp hk
    rw [Fin.le_def, regOfNat_val k (by omega)]
    omega
  exact congrArg (memWrite m (s.effAddr k)) (hx _ hle)

end

/-- An instruction that changes no register, and does not report, runs alike under other registers and another output,
which it keeps. -/
theorem exec_setRegsOutput {i : Instr} {s t : State} {v : Vector Byte 16} (o : List Output)
    (hregs : .regs ∉ changedParts i) (hret : i ≠ .ret) (hread : ∀ r ∈ readRegs i, v.get r = s.getV r)
    (h : exec i s = .next t) :
    exec i { s with v := v, output := o } = .next { t with v := v, output := o } := by
  have hget : ∀ r ∈ readRegs i, ({ s with v := v, output := o } : State).getV r = s.getV r := hread
  cases i with
  | ret => exact absurd rfl hret
  | cls | jp _ | ldI _ => cases h; rfl
  | jpV0 nnn => cases h; rw [exec_jpV0, addrPlusV0, hget 0 (by simp [readRegs])]; rfl
  | call nnn => cases h; exact congrArg _ (pushAndJump_setRegsOutput s v o _)
  | seImm x nn =>
    cases h
    rw [exec_seImm, hget x (by simp [readRegs])]
    exact congrArg _ (skipIf_setRegsOutput s v o _)
  | sneImm x nn =>
    cases h
    rw [exec_sneImm, hget x (by simp [readRegs])]
    exact congrArg _ (skipIf_setRegsOutput s v o _)
  | seReg x y =>
    cases h
    rw [exec_seReg, hget x (by simp [readRegs]), hget y (by simp [readRegs])]
    exact congrArg _ (skipIf_setRegsOutput s v o _)
  | sneReg x y =>
    cases h
    rw [exec_sneReg, hget x (by simp [readRegs]), hget y (by simp [readRegs])]
    exact congrArg _ (skipIf_setRegsOutput s v o _)
  | skp x | sknp x => cases h; exact congrArg _ (keySkip_setRegsOutput o (hread x (by simp [readRegs])) _)
  | ldDtVx x => cases h; rw [exec_ldDtVx, hget x (by simp [readRegs])]
  | ldStVx x => cases h; rw [exec_ldStVx, hget x (by simp [readRegs])]
  | addI x => cases h; rw [exec_addI, hget x (by simp [readRegs])]; rfl
  | ldF x => cases h; rw [exec_ldF, hget x (by simp [readRegs])]; rfl
  | ldB x =>
    cases h
    rw [exec_ldB, hget x (by simp [readRegs])]
    exact congrArg _ (checked_setRegsOutput s v o 2 (memWriteList s.mem (s.effAddr 0) (decimalDigits (s.getV x))))
  | stRegs x =>
    cases h
    rw [exec_stRegs, storeRegs_setRegsOutput o (fun r hr => hread r (mem_regsUpTo.mpr hr))]
    exact congrArg _ (checked_setRegsOutput s v o x.val (storeRegs s x))
  | _ => simp [changedParts] at hregs

/-- The two runs of `i`, from `s` to `t` and from `s` with other registers and another output to `t'`, end alike: in
every part but registers and output, and in the registers the instruction may write, unless no register is changed in
either. -/
def RunsAlike (i : Instr) (s : State) (v : Vector Byte 16) (o : List Output) (t t' : State) : Prop :=
  t' = { t with v := t'.v, output := o } ∧
  ((∀ r ∈ writtenRegs i, t'.getV r = t.getV r) ∨ (t.v = s.v ∧ t'.v = v))

section
variable {i : Instr} {s t t' : State} {v : Vector Byte 16} {o : List Output}

theorem runsAlike_setV {x : Reg} (hi : writtenRegs i = [x]) (b : Byte) :
    RunsAlike i s v o (s.setV x b) (({ s with v := v, output := o } : State).setV x b) := by
  refine ⟨rfl, .inl fun r hr => ?_⟩
  rw [hi, List.mem_singleton] at hr
  rw [hr, getV_setV_same, getV_setV_same]

theorem runsAlike_aluWithFlag {x y : Reg} {f : Byte → Byte → Byte × Bool} (hi : writtenRegs i = [x, vf])
    (hf : f (v.get x) (v.get y) = f (s.getV x) (s.getV y)) :
    RunsAlike i s v o (aluWithFlag hardware x y f s)
      (aluWithFlag hardware x y f { s with v := v, output := o }) := by
  have hf' : f (({ s with v := v, output := o } : State).getV x) (({ s with v := v, output := o } : State).getV y) =
      f (s.getV x) (s.getV y) := hf
  rw [aluWithFlag_hardware, aluWithFlag_hardware, hf']
  refine ⟨rfl, .inl fun r hr => ?_⟩
  rw [hi] at hr
  rcases List.mem_pair.mp hr with rfl | rfl <;> simp only [getV_setV, if_true]

theorem runsAlike_ldVxK {x : Reg} (h : exec (.ldVxK x) s = .next t)
    (h' : exec (.ldVxK x) { s with v := v, output := o } = .next t') : RunsAlike (.ldVxK x) s v o t t' := by
  obtain ⟨k, hk, e⟩ | ⟨hk, e⟩ := exec_ldVxK_cases x s
  all_goals
    cases e.symm.trans h
    obtain ⟨k', hk', e'⟩ | ⟨hk', e'⟩ := exec_ldVxK_cases x { s with v := v, output := o }
    all_goals cases e'.symm.trans h'
  · obtain rfl : k = k' := Option.some.inj (hk.symm.trans hk')
    exact runsAlike_setV rfl _
  · cases hk.symm.trans hk'
  · cases hk.symm.trans hk'
  · exact ⟨rfl, .inr ⟨rfl, rfl⟩⟩

theorem runsAlike_raiseFault (c : FaultCause) :
    RunsAlike i s v o (s.raiseFault hardware c)
      (({ s with v := v, output := o } : State).raiseFault hardware c) :=
  ⟨rfl, .inr ⟨rfl, rfl⟩⟩

theorem plot_setOutput (s : State) (px : Fin 64) (py : Fin 32) (o : List Output) :
    plot { s with output := o } px py = { plot s px py with output := o } := by
  have hp : ({ s with output := o } : State).pixel px py = s.pixel px py := rfl
  unfold plot
  rw [hp]
  split <;> rfl

/-- Drawing does not look at the output. -/
theorem drawRows_setOutput (px0 py0 n : Nat) (s : State) (o : List Output) :
    drawRows hardware px0 py0 n { s with output := o } = { drawRows hardware px0 py0 n s with output := o } := by
  refine foldl_keeps_both (fun b c : State => c = { b with output := o }) _ ?_ _ _ _ rfl
  rintro b _ k rfl
  refine foldl_keeps_both (fun b c : State => c = { b with output := o }) _ ?_ _ _ _ rfl
  rintro b _ bit rfl
  split
  · exact plot_setOutput b _ _ o
  · rfl

theorem runsAlike_drw {x y : Reg} {n : Nat} (hx : v.get x = s.getV x) (hy : v.get y = s.getV y)
    (h : exec (.drw x y n) s = .next t) (h' : exec (.drw x y n) { s with v := v, output := o } = .next t') :
    RunsAlike (.drw x y n) s v o t t' := by
  have hx' : ({ s with v := v, output := o } : State).getV x = s.getV x := hx
  have hy' : ({ s with v := v, output := o } : State).getV y = s.getV y := hy
  by_cases hm : SpriteInMemory s n
  · cases (exec_drw_inside hm x y).symm.trans h
    have e := (exec_drw_inside (s := { s with v := v, output := o }) hm x y).symm.trans h'
    rw [hx', hy'] at e
    have hsame : SameButRegs (s.setV vf 0) (({ s with v := v } : State).setV vf 0) :=
      ⟨rfl, by rw [getV_setV_same, getV_setV_same]⟩
    obtain ⟨hrest, hflag⟩ := drawRows_sameButRegs ((s.getV x).toNat % 64) ((s.getV y).toNat % 32) n hsame
    have hout := drawRows_setOutput ((s.getV x).toNat % 64) ((s.getV y).toNat % 32) n
      (({ s with v := v } : State).setV vf 0) o
    cases (congrArg Host.Outcome.next hout).symm.trans e
    refine ⟨?_, .inl fun r hr => ?_⟩
    · conv_lhs => rw [hrest]
    · rw [List.mem_singleton.mp hr]
      exact hflag
  · cases (exec_drw_outside hm x y).symm.trans h
    cases (exec_drw_outside (s := { s with v := v, output := o }) hm x y).symm.trans h'
    exact runsAlike_raiseFault _

theorem runsAlike_ldRegs {x : Reg} (h : exec (.ldRegs x) s = .next t)
    (h' : exec (.ldRegs x) { s with v := v, output := o } = .next t') : RunsAlike (.ldRegs x) s v o t t' := by
  rw [exec_ldRegs] at h h'
  by_cases hm : s.index.toNat + x.val ≤ 0xFFF
  · rw [checked_inside hm] at h
    rw [checked_inside (s := { s with v := v, output := o }) hm] at h'
    cases h
    cases h'
    obtain ⟨hrest, hread⟩ := loadRegs_spec s x
    obtain ⟨hrest', hread'⟩ := loadRegs_spec { s with v := v, output := o } x
    refine ⟨?_, .inl fun r hr => ?_⟩
    · rw [hrest', hrest]
    · have hle := mem_regsUpTo.mp hr
      rw [hread, hread', if_pos hle, if_pos hle]
      rfl
  · rw [checked_outside (Nat.not_le.mp hm)] at h
    rw [checked_outside (s := { s with v := v, output := o }) (Nat.not_le.mp hm)] at h'
    cases h
    cases h'
    exact runsAlike_raiseFault _

/-- Two runs of one instruction, other than the one that reports, from states that agree in the registers it reads and
in every part but registers and output, end alike. -/
theorem exec_runsAlike (hret : i ≠ .ret) (hread : ∀ r ∈ readRegs i, v.get r = s.getV r) (h : exec i s = .next t)
    (h' : exec i { s with v := v, output := o } = .next t') : RunsAlike i s v o t t' := by
  by_cases hregs : .regs ∈ changedParts i
  case neg =>
    cases (exec_setRegsOutput o hregs hret hread h).symm.trans h'
    exact ⟨rfl, .inr ⟨v_eq_of_getV (exec_samePart h hregs (by decide) (by decide)), rfl⟩⟩
  have hget : ∀ r ∈ readRegs i, ({ s with v := v, output := o } : State).getV r = s.getV r := hread
  cases i with
  | ldImm x _ | rnd x _ | ldVxDt x => cases h; cases h'; exact runsAlike_setV rfl _
  | addImm x _ =>
    rw [exec_addImm, hget x (by simp [readRegs])] at h'
    cases h; cases h'; exact runsAlike_setV rfl _
  | ldReg _ y =>
    rw [exec_ldReg, hget y (by simp [readRegs])] at h'
    cases h; cases h'; exact runsAlike_setV rfl _
  | orReg x y =>
    rw [exec_orReg, hget x (by simp [readRegs]), hget y (by simp [readRegs])] at h'
    cases h; cases h'; exact runsAlike_setV rfl _
  | andReg x y =>
    rw [exec_andReg, hget x (by simp [readRegs]), hget y (by simp [readRegs])] at h'
    cases h; cases h'; exact runsAlike_setV rfl _
  | xorReg x y =>
    rw [exec_xorReg, hget x (by simp [readRegs]), hget y (by simp [readRegs])] at h'
    cases h; cases h'; exact runsAlike_setV rfl _
  | addReg x y | sub x y | subn x y =>
    cases h; cases h'
    exact runsAlike_aluWithFlag rfl (by rw [hread x (by simp [readRegs]), hread y (by simp [readRegs])])
  | shr x y =>
    cases h; cases h'
    exact runsAlike_aluWithFlag rfl (congrArg (shiftRightOut hardware · 0) (hread x (by simp [readRegs])))
  | shl x y =>
    cases h; cases h'
    exact runsAlike_aluWithFlag rfl (congrArg (shiftLeftOut hardware · 0) (hread x (by simp [readRegs])))
  | ldVxK x => exact runsAlike_ldVxK h h'
  | drw x y n => exact runsAlike_drw (hread x (by simp [readRegs])) (hread y (by simp [readRegs])) h h'
  | ldRegs x => exact runsAlike_ldRegs h h'
  | _ => simp [changedParts] at hregs

end

/-! ### Other registers alone (10_state.md R23) -/

theorem popAndJump_setRegs (s : State) (v : Vector Byte 16) :
    ({ s with v := v } : State).popAndJump hardware = { s.popAndJump hardware with v := v } := by
  obtain h | ⟨k, hk⟩ := sp_cases s
  · rw [popAndJump_of_empty h, popAndJump_of_empty (s := { s with v := v }) h]
    rfl
  · rw [popAndJump_of_succ hk, popAndJump_of_succ (s := { s with v := v }) hk]

theorem exec_output_of_ne_ret {i : Instr} {s t : State} (hret : i ≠ .ret) (h : exec i s = .next t) :
    t.output = s.output := by
  refine exec_samePart h (p := .output) ?_ (by decide) (by decide)
  cases i <;> simp_all [changedParts]

theorem RegsSameExcept.of_v_eq {s t : State} (h : t.v = s.v) (rs : List Reg) : RegsSameExcept rs s t :=
  fun r _ => getV_congr h r

/-- Settles O17: the one instruction that reports changes no register, and any other runs alike. -/
theorem registersReadAreThoseOfTheTable : Obligations.RegistersReadAreThoseOfTheTable := by
  intro i s t t' v hread h h'
  by_cases hret : i = .ret
  · subst hret
    have hv : t.v = s.v := v_eq_of_getV (exec_samePart h (p := .regs) (by decide) (by decide) (by decide))
    cases (congrArg Host.Outcome.next (popAndJump_setRegs s v)).symm.trans h'
    cases h
    exact ⟨setRegs_frame _ v, .inr ⟨.of_v_eq hv _, .of_v_eq rfl _⟩⟩
  · obtain ⟨hrest, hregs⟩ := exec_runsAlike (o := s.output) hret hread h h'
    refine ⟨?_, hregs.imp_right fun ⟨hv, hv'⟩ => ⟨.of_v_eq hv _, .of_v_eq hv' _⟩⟩
    rw [hrest, ← exec_output_of_ne_ret hret h]
    exact setRegs_frame t _

/-! ### Another output alone (60_exceptions.md R203) -/

/-- What `f` does from `s` does not depend on the output so far, to which it only appends. -/
def AppendsOutput (f : State → Result) (s : State) : Prop :=
  ∀ t, f s = .next t → ∃ added, t.output = s.output ++ added ∧
    ∀ o, f { s with output := o } = .next { t with output := o ++ added }

theorem appendsOutput_of_keeps {f : State → Result} {s : State}
    (h : ∀ t, f s = .next t → t.output = s.output ∧ ∀ o, f { s with output := o } = .next { t with output := o }) :
    AppendsOutput f s := by
  intro t ht
  obtain ⟨hkept, hrun⟩ := h t ht
  exact ⟨[], by rw [hkept, List.append_nil], fun o => by rw [hrun, List.append_nil]⟩

theorem report_appendsOutput (code : DiagCode) (s : State) :
    AppendsOutput (fun s => .next (s.report hardware code)) s := by
  intro t h
  cases h
  exact ⟨_, rfl, fun _ => rfl⟩

theorem exec_ret_appendsOutput (s : State) : AppendsOutput (exec .ret) s := by
  intro t h
  cases h
  obtain h0 | ⟨k, hk⟩ := sp_cases s
  · obtain ⟨added, hout, hrun⟩ := report_appendsOutput .stackUnderflow s _ rfl
    refine ⟨added, popAndJump_of_empty h0 ▸ hout, fun o => ?_⟩
    rw [exec_ret, popAndJump_of_empty h0, popAndJump_of_empty (s := { s with output := o }) h0]
    exact hrun o
  · refine ⟨[], by simp [popAndJump_of_succ hk], fun o => ?_⟩
    rw [exec_ret, popAndJump_of_succ hk, popAndJump_of_succ (s := { s with output := o }) hk, List.append_nil]

theorem exec_appendsOutput (i : Instr) (s : State) : AppendsOutput (exec i) s := by
  by_cases hret : i = .ret
  · exact hret ▸ exec_ret_appendsOutput s
  · refine appendsOutput_of_keeps fun t h => ⟨exec_output_of_ne_ret hret h, fun o => ?_⟩
    obtain ⟨t', h'⟩ := exec_answers i { s with output := o }
    obtain ⟨hrest, hregs⟩ := exec_runsAlike (v := s.v) (o := o) hret (fun _ _ => rfl) h h'
    have hv : t'.v = t.v := by
      obtain hw | ⟨hv, hv'⟩ := hregs
      · refine v_eq_of_getV fun r => ?_
        by_cases hr : r ∈ writtenRegs i
        · exact hw r hr
        · exact (exec_regsSameExcept h' r hr).trans (exec_regsSameExcept h r hr).symm
      · exact hv'.trans hv.symm
    rw [h', hrest, hv]

theorem executeWord_appendsOutput (s : State) : AppendsOutput (executeWord hardware exec) s := by
  intro t h
  cases hd : decodeWord s.word with
  | ok i =>
    obtain ⟨added, hout, hrun⟩ := exec_appendsOutput i s t ((executeWord_ok hd).symm.trans h)
    exact ⟨added, hout, fun o => (executeWord_ok (s := { s with output := o }) hd).trans (hrun o)⟩
  | error err =>
    obtain ⟨added, hout, hrun⟩ := report_appendsOutput .decodeError s t ((executeWord_error hd).symm.trans h)
    exact ⟨added, hout, fun o => (executeWord_error (s := { s with output := o }) hd).trans (hrun o)⟩

theorem finishCycle_appendsOutput (e : Seconds) {f : State → Result} {s : State} (hf : AppendsOutput f s) :
    AppendsOutput (fun s => finishCycle hardware e (f s)) s := by
  intro t h
  cases hu : f s with
  | next u =>
    obtain ⟨added, hout, hrun⟩ := hf u hu
    simp only [hu, finishCycle_next] at h
    cases h
    refine ⟨added, ?_, fun o => ?_⟩
    · split <;> exact hout
    · simp only [hrun o, finishCycle_next]
      split <;> rfl
  | fault r => cases r
  | refused r => simp [hu, finishCycle] at h

/-- A cycle on a running core whose pc is in range: decode, execute and finish. -/
theorem runCycle_of_le {e : Seconds} {r : Byte} {s : State} (hf : s.fault = none) (hp : s.pc.toNat ≤ 0xFFE) :
    runCycle e r s = finishCycle hardware e (executeWord hardware exec (s.beginCycle r).fetch) := by
  rw [runCycle, runCycleWith, hf, if_neg (by simp), hardware_memSize, if_pos (by omega), keep_hardware]

/-- A cycle on a running core whose pc is out of range is the fetch fault (30_encoding.md R71). -/
theorem runCycle_of_gt {e : Seconds} {r : Byte} {s : State} (hf : s.fault = none) (hp : s.pc.toNat > 0xFFE) :
    runCycle e r s = .next ((s.beginCycle r).latchFault .fetchOutOfRange s.pc 0) := by
  rw [runCycle, runCycleWith, hf, if_neg (by simp), hardware_memSize, if_neg (by omega)]

theorem runCycle_appendsOutput (e : Seconds) (r : Byte) (s : State) : AppendsOutput (runCycle e r) s := by
  by_cases hf : s.fault = none
  case neg =>
    refine appendsOutput_of_keeps fun t h => ?_
    cases (runCycle_halted e r s hf).symm.trans h
    exact ⟨rfl, fun o => runCycle_halted e r { s with output := o } hf⟩
  rcases Nat.lt_or_ge 0xFFE s.pc.toNat with hp | hp
  · refine appendsOutput_of_keeps fun t h => ?_
    cases (runCycle_of_gt hf hp).symm.trans h
    exact ⟨rfl, fun o => runCycle_of_gt (s := { s with output := o }) hf hp⟩
  · intro t h
    obtain ⟨added, hout, hrun⟩ := finishCycle_appendsOutput e (executeWord_appendsOutput (s.beginCycle r).fetch) t
      ((runCycle_of_le hf hp).symm.trans h)
    exact ⟨added, hout, fun o => (runCycle_of_le (s := { s with output := o }) hf hp).trans (hrun o)⟩

/-- On this hardware a load that fits is a reset, the copies, then the answer (70_reset_and_hazards.md R254). -/
theorem loadCommand_hardware_of_fits {bytes : List Byte} (h : bytes.length ≤ 3584) (s : State) :
    loadCommand hardware bytes s =
      { State.reset with
        mem := loadedMemory bytes, pending := s.pending, output := s.output ++ [.loaded .ok], cycles := s.cycles } := by
  obtain ⟨-, e⟩ | ⟨hgt, -⟩ := loadCommand_cases bytes s
  · exact e
  · exact absurd h (Nat.not_le.mpr hgt)

theorem loadCommand_appendsOutput (bytes : List Byte) (s : State) :
    AppendsOutput (fun s => .next (loadCommand hardware bytes s)) s := by
  intro t h
  cases h
  rcases Nat.lt_or_ge 3584 bytes.length with hgt | hle
  · rw [loadCommand_hardware_of_tooLarge hgt]
    exact ⟨_, rfl, fun _ => congrArg _ (loadCommand_hardware_of_tooLarge hgt _)⟩
  · rw [loadCommand_hardware_of_fits hle]
    exact ⟨_, rfl, fun _ => congrArg _ (loadCommand_hardware_of_fits hle _)⟩

/-- Every command only appends to the output, and does not look at it. -/
theorem perform_appendsOutput (c : Command) (s : State) : AppendsOutput (perform c) s := by
  cases c with
  | cycle e r => exact runCycle_appendsOutput e r s
  | load bytes => exact loadCommand_appendsOutput bytes s
  | reset =>
    refine appendsOutput_of_keeps fun t h => ?_
    cases h
    exact ⟨rfl, fun _ => rfl⟩
  | setKey k pressed =>
    refine appendsOutput_of_keeps fun t h => ?_
    cases h
    exact ⟨setKeyCommand_frame k pressed s .output (by decide), fun o => by
      rw [perform_setKey]
      unfold setKeyCommand
      split <;> rfl⟩
  | readFb | status =>
    intro t h
    cases h
    exact ⟨_, rfl, fun _ => rfl⟩

/-- Replacing the output leaves every other part. -/
theorem setOutput_frame (s : State) (o : List Output) : Frame [.output] s { s with output := o } := by
  intro p hp
  refine SamePart.of_eq ?_
  cases p <;> simp_all

/-- Settles O56: a step performs one command, and no command looks at the output. -/
theorem outputDoesNotInfluenceTheState : Obligations.OutputDoesNotInfluenceTheState := by
  intro s t o h
  obtain ⟨added, hout, hrun⟩ := perform_appendsOutput s.nextCommand s.takeCommand t h
  exact ⟨_, added, hrun o, setOutput_frame t _, hout, rfl⟩

end Sys2Proof.Machine
end

section
/-! The cycle as a whole: it always answers (60_exceptions.md R201), reports at most once (R212), and moves pc by the
table of 10_state.md R25. -/

namespace Sys2Proof.Machine

open Sys2Proof.Claims

/-! ### Every step answers -/

theorem runCycle_answers (e : Seconds) (r : Byte) (s : State) : ∃ t, runCycle e r s = .next t := by
  by_cases hf : s.fault = none
  · obtain ⟨_, h⟩ | ⟨_, _, h⟩ | ⟨_, _, _, _, _, h⟩ := runCycle_cases e r s hf <;> exact ⟨_, h⟩
  · exact ⟨s, runCycle_halted e r s hf⟩

theorem perform_answers (c : Command) (s : State) : ∃ t, perform c s = .next t := by
  cases c with
  | cycle e r => exact runCycle_answers e r s
  | _ => exact ⟨_, rfl⟩

/-- Settles O14: a step performs one command, and every command answers. -/
theorem everyStepAnswersNext : Obligations.EveryStepAnswersNext := fun s => perform_answers s.nextCommand s.takeCommand

/-! ### A cycle on a running core, stage by stage -/

/-- What the step of a cycle on a running core does, as one of three outcomes: the fetch fault, the report of a decode
error, or the decoded instruction. -/
theorem step_cycle_cases {s t : State} {e : Seconds} {r : Byte} (hc : s.nextCommand = .cycle e r)
    (hf : s.fault = none) (h : step s = .next t) :
    (s.pc.toNat > 0xFFE ∧ t = (s.takeCommand.beginCycle r).latchFault .fetchOutOfRange s.pc 0) ∨
    (s.pc.toNat ≤ 0xFFE ∧ (∃ err, decodeWord s.nextWord = .error err) ∧
      t = timerStage e ((s.takeCommand.beginCycle r).fetch.report hardware .decodeError)) ∨
    (s.pc.toNat ≤ 0xFFE ∧ ∃ i u, decodeWord s.nextWord = .ok i ∧
      exec i (s.takeCommand.beginCycle r).fetch = .next u ∧ t = if u.fault.isSome then u else timerStage e u) := by
  rw [step_of_command hc, perform_cycle] at h
  obtain ⟨hp, e'⟩ | ⟨hp, hd, e'⟩ | ⟨hp, i, u, hd, hu, e'⟩ := runCycle_cases e r s.takeCommand hf
  · exact .inl ⟨hp, Host.Outcome.next.inj (h.symm.trans e')⟩
  · exact .inr (.inl ⟨hp, hd, Host.Outcome.next.inj (h.symm.trans e')⟩)
  · exact .inr (.inr ⟨hp, i, u, hd, hu, Host.Outcome.next.inj (h.symm.trans e')⟩)

/-- The end of a cycle changes DT, ST and the accumulator alone. -/
theorem timerStage_frame (e : Seconds) (s : State) : Frame [.dt, .st, .acc] s (timerStage e s) := by
  intro p hp
  refine SamePart.of_eq ?_
  cases p <;> simp_all

theorem finish_frame (e : Seconds) (u : State) :
    Frame [.dt, .st, .acc] u (if u.fault.isSome then u else timerStage e u) := by
  split
  · exact Frame.refl _ u
  · exact timerStage_frame e u

/-! ### At most one report (R212) -/

/-- An instruction reports nothing, or it is the return from an empty stack, which reports and does not fault. -/
theorem exec_output_cases {i : Instr} {s t : State} (h : exec i s = .next t) :
    t.output = s.output ∨
    t.output = s.output ++ [.diag ⟨.stackUnderflow, s.pc - 2, s.word, s.cycles⟩] ∧ t.fault = s.fault := by
  by_cases hret : i = .ret
  · subst hret
    cases h
    obtain h0 | ⟨k, hk⟩ := sp_cases s
    · rw [popAndJump_of_empty h0]
      exact .inr ⟨rfl, rfl⟩
    · rw [popAndJump_of_succ hk]
      exact .inl rfl
  · exact .inl (exec_output_of_ne_ret hret h)

/-- The address of the word in execution is pc before the fetch. -/
theorem fetch_pc_sub (s : State) : s.fetch.pc - 2 = s.pc := BitVec.add_sub_cancel _ _

/-- Settles O13: the fetch fault reports nothing, a decode error reports once, and so does the one instruction that
reports. -/
theorem atMostOneFaultOrDiagnostic : Obligations.AtMostOneFaultOrDiagnostic := by
  intro s t e r hc hf h
  obtain ⟨-, rfl⟩ | ⟨-, -, rfl⟩ | ⟨-, i, u, -, hu, rfl⟩ := step_cycle_cases hc hf h
  · exact .inl rfl
  · refine .inr ⟨⟨.decodeError, s.cycles + 1, ?_⟩, hf⟩
    rw [timerStage_output, State.report, emit_output, wordAddr_hardware, fetch_pc_sub]
    rfl
  · have hout := finish_frame e u .output (by decide)
    have hfault := finish_frame e u .fault (by decide)
    obtain hkept | ⟨hrep, hnone⟩ := exec_output_cases hu
    · exact .inl (hout.trans hkept)
    · rw [fetch_pc_sub] at hrep
      exact .inr ⟨⟨_, _, hout.trans hrep⟩, hfault.trans (hnone.trans hf)⟩

/-! ### pc after a cycle (R25) -/

theorem pcAfter_of_plain {i : Instr} (hpc : .pc ∉ changedParts i) (s : State) : pcAfter s i = s.pc.toNat + 2 := by
  cases i <;> simp_all [changedParts, pcAfter]

theorem skipIf_pc_toNat {s : State} {a : Nat} (ha : a ≤ 0xFFE) (hs : s.pc.toNat = a + 2) (c : Bool) :
    (s.skipIf c).pc.toNat = if c then a + 4 else a + 2 := by
  cases c
  · exact hs
  · have h : (s.pc + 2).toNat = (s.pc.toNat + 2) % 65536 := BitVec.toNat_add _ _
    simp only [State.skipIf, if_true, jumpTo_pc]
    omega

theorem keySkip_pc_toNat {s : State} {x : Reg} {a : Nat} (ha : a ≤ 0xFFE) (hs : s.pc.toNat = a + 2)
    (hx : (if (s.getV x).toNat > 15 then some FaultCause.keyOutOfRange else none) = none) (pressed : Bool) :
    (keySkip hardware x pressed s).pc.toNat =
      if s.keyDown (s.getV x).toNat == pressed then a + 4 else a + 2 := by
  obtain ⟨k, hk, e⟩ | ⟨hgt, -⟩ := keySkip_cases x pressed s
  · rw [e, hk, skipIf_pc_toNat ha hs]
  · simp [hgt] at hx

/-- The return leaves pc at the top slot, or goes on when the stack is empty. -/
theorem popAndJump_pc_toNat {s : State} {a : Nat} (hs : s.pc.toNat = a + 2) :
    (s.popAndJump hardware).pc.toNat =
      if h : 0 < s.sp.val then (s.stack.get ⟨s.sp.val - 1, by omega⟩).toNat else a + 2 := by
  obtain h0 | ⟨k, hk⟩ := sp_cases s
  · rw [popAndJump_of_empty h0, dif_neg (by omega)]
    exact hs
  · rw [popAndJump_of_succ hk, dif_pos (by omega)]
    simp only [hk, Nat.add_sub_cancel]

/-- An instruction that runs with no fault on the fetched state leaves the pc of the table. -/
theorem exec_pc {s t : State} {r : Byte} {i : Instr} (hp : s.pc.toNat ≤ 0xFFE)
    (hi : faultCondition s i = none) (h : exec i (s.beginCycle r).fetch = .next t) : t.pc.toNat = pcAfter s i := by
  have hfetch : (s.beginCycle r).fetch.pc.toNat = s.pc.toNat + 2 := fetch_pc_toNat hp
  by_cases hpc : .pc ∈ changedParts i
  case neg =>
    have hsame := exec_frame ((faultCondition_beginCycle_fetch s r i).trans hi) h .pc hpc
    rw [pcAfter_of_plain hpc, ← hfetch]
    exact congrArg BitVec.toNat hsame
  cases i with
  | ret => cases h; exact popAndJump_pc_toNat hfetch
  | jp nnn => cases h; exact addrOfNNN_toNat nnn
  | jpV0 nnn => cases h; exact addrPlusV0_toNat nnn _
  | call nnn =>
    cases h
    obtain ⟨_, e⟩ | ⟨hfull, -⟩ := pushAndJump_cases (s.beginCycle r).fetch (addrOfNNN nnn)
    · exact e ▸ addrOfNNN_toNat nnn
    · simp [faultCondition, show s.sp.val = 16 from hfull] at hi
  | seImm _ _ | sneImm _ _ | seReg _ _ | sneReg _ _ => cases h; exact skipIf_pc_toNat hp hfetch _
  | skp x =>
    cases h
    have hskip := keySkip_pc_toNat hp hfetch hi true
    rwa [beq_true] at hskip
  | sknp x =>
    cases h
    have hskip := keySkip_pc_toNat hp hfetch hi false
    rwa [beq_false] at hskip
  | ldVxK x =>
    obtain ⟨k, hk, e⟩ | ⟨hk, e⟩ := exec_ldVxK_cases x (s.beginCycle r).fetch
    · cases e.symm.trans h
      exact hfetch.trans (if_neg (by rw [show s.lowestKey = some k from hk]; simp)).symm
    · cases e.symm.trans h
      rw [jumpTo_pc, fetch_pc_sub]
      exact (if_pos (show s.lowestKey = none from hk)).symm
  | _ => simp [changedParts] at hpc

/-- Settles O15: a decode error leaves pc after its word, a fault puts it back, and any other instruction moves it by
the table. -/
theorem pcAfterACycle : Obligations.PcAfterACycle := by
  intro s t e r hr h
  obtain ⟨hgt, -⟩ | ⟨hp, ⟨err, hd⟩, rfl⟩ | ⟨hp, i, u, hd, hu, rfl⟩ := step_cycle_cases hr.command hr.running h
  · exact absurd hr.inRange (Nat.not_le.mpr hgt)
  · rw [hd]
    exact fetch_pc_toNat (s := s.takeCommand.beginCycle r) hp
  · have hend := finish_frame e u .pc (by decide)
    rw [hd, show (if u.fault.isSome then u else timerStage e u).pc = u.pc from hend]
    change u.pc.toNat = if (faultCondition s i).isSome then s.pc.toNat else pcAfter s i
    obtain ⟨c, hi, -, hback, -⟩ | ⟨hi, -⟩ := exec_outcome hu
    · rw [if_pos (by rw [show faultCondition s i = some c from hi]; rfl), hback, fetch_pc_sub]
      rfl
    · rw [if_neg (by rw [show faultCondition s i = none from hi]; simp)]
      exact exec_pc (s := s.takeCommand) hp hi hu

end Sys2Proof.Machine
end

section
/-! The timer stage (60_exceptions.md R220 to R223): the whole ticks of a stage, of a sequence of stages, and of the
cycles that move a timer (44_keys_timers.md R173 to R175, 70_reset_and_hazards.md R261). -/

namespace Sys2Proof.Machine

open Sys2Proof.Claims

/-! ### One stage -/

/-- The loop of R220 goes round as often as whole 1/60 s fit (R221 (c)). -/
theorem wholeTicks_eq_ticksIn (t : Seconds) : wholeTicks hardware t = ticksIn t.val := by
  obtain ⟨hle, hlt⟩ := wholeTicks_bounds t
  exact ((Nat.floor_eq_iff (mul_nonneg t.nonneg (by norm_num))).mpr ⟨hle, hlt⟩).symm

/-- What a timer stage leaves: each timer lower by the whole ticks, with floor 0, and the rest of the time (R221). -/
theorem timerStage_spec (e : Seconds) (s : State) :
    (timerStage e s).dt.toNat = s.dt.toNat - ticksIn (s.acc.val + e.val) ∧
    (timerStage e s).st.toNat = s.st.toNat - ticksIn (s.acc.val + e.val) ∧
    (timerStage e s).acc.val = s.acc.val + e.val - ticksIn (s.acc.val + e.val) / 60 := by
  have hsum : wholeTicks hardware (addSeconds s.acc e) = ticksIn (s.acc.val + e.val) := wholeTicks_eq_ticksIn _
  obtain ⟨hle, hlt⟩ := wholeTicks_bounds (addSeconds s.acc e)
  have hloop := tickLoop_spec _ ⟨s.dt, s.st, addSeconds s.acc e⟩ hle hlt
  rw [hsum] at hloop
  rw [timerStage_dt, timerStage_st, timerStage_acc, ticked, hsum]
  exact hloop

theorem timerStage_dt_toNat (e : Seconds) (s : State) :
    (timerStage e s).dt.toNat = s.dt.toNat - ticksIn (s.acc.val + e.val) := by
  obtain ⟨hdt, -⟩ := timerStage_spec e s
  exact hdt

theorem timerStage_st_toNat (e : Seconds) (s : State) :
    (timerStage e s).st.toNat = s.st.toNat - ticksIn (s.acc.val + e.val) := by
  obtain ⟨-, hst, -⟩ := timerStage_spec e s
  exact hst

/-- Less than one tick is left when the whole ticks are taken. -/
theorem sub_ticksIn_lt (t : ℚ) : t - ticksIn t / 60 < 1 / 60 := by
  have h : t * 60 < ticksIn t + 1 := Nat.lt_floor_add_one _
  linarith

theorem timerStage_acc_lt (e : Seconds) (s : State) : (timerStage e s).acc.val < 1 / 60 := by
  obtain ⟨-, -, hacc⟩ := timerStage_spec e s
  rw [hacc]
  exact sub_ticksIn_lt _

/-- Settles O47: the number of rounds of the loop is the floor, and the loop leaves what that many rounds leave. -/
theorem timerStageTakesTheWholeTicks : Obligations.TimerStageTakesTheWholeTicks := by
  rintro e s _ rfl
  obtain ⟨hdt, hst, hacc⟩ := timerStage_spec e s
  exact ⟨hdt, hst, hacc, timerStage_acc_lt e s, timerStage_frame e s⟩

/-! ### A sequence of stages (R221 (d), R223) -/

/-- No tick fits into less than 1/60 s. -/
theorem ticksIn_of_lt {t : ℚ} (h : t < 1 / 60) : ticksIn t = 0 :=
  Nat.floor_eq_zero.mpr (by linarith)

theorem ticksIn_mono {a b : ℚ} (h : a ≤ b) : ticksIn a ≤ ticksIn b :=
  Nat.floor_mono (by linarith)

/-- The ticks that are left after some are taken. -/
theorem ticksIn_sub (t : ℚ) (n : Nat) : ticksIn (t - n / 60) = ticksIn t - n := by
  rw [ticksIn, ticksIn, ← Nat.floor_sub_natCast]
  congr 1
  ring

theorem totalSeconds_nonneg (es : List Seconds) : 0 ≤ totalSeconds es :=
  List.sum_nonneg fun x hx => by
    obtain ⟨e, -, rfl⟩ := List.mem_map.mp hx
    exact e.nonneg

theorem totalSeconds_cons (e : Seconds) (es : List Seconds) : totalSeconds (e :: es) = e.val + totalSeconds es := by
  simp [totalSeconds]

theorem timerStages_cons (e : Seconds) (es : List Seconds) (s : State) :
    timerStages (e :: es) s = timerStages es (timerStage e s) := rfl

/-- What a sequence of stages leaves is what one stage of the whole time leaves. -/
theorem timerStages_spec : ∀ (es : List Seconds) (s : State), s.acc.val < 1 / 60 →
    (timerStages es s).dt.toNat = s.dt.toNat - ticksIn (s.acc.val + totalSeconds es) ∧
    (timerStages es s).st.toNat = s.st.toNat - ticksIn (s.acc.val + totalSeconds es) ∧
    (timerStages es s).acc.val = s.acc.val + totalSeconds es - ticksIn (s.acc.val + totalSeconds es) / 60 := by
  intro es
  induction es with
  | nil =>
    intro s h
    simp [timerStages, totalSeconds, ticksIn_of_lt h]
  | cons e es ih =>
    intro s _
    obtain ⟨hdt, hst, hacc⟩ := timerStage_spec e s
    obtain ⟨ihdt, ihst, ihacc⟩ := ih (timerStage e s) (timerStage_acc_lt e s)
    have htotal : s.acc.val + totalSeconds (e :: es) = s.acc.val + e.val + totalSeconds es := by
      rw [totalSeconds_cons, add_assoc]
    have hfirst : ticksIn (s.acc.val + e.val) ≤ ticksIn (s.acc.val + totalSeconds (e :: es)) :=
      ticksIn_mono (by linarith [totalSeconds_nonneg es])
    have hrest : ticksIn ((timerStage e s).acc.val + totalSeconds es) =
        ticksIn (s.acc.val + totalSeconds (e :: es)) - ticksIn (s.acc.val + e.val) := by
      rw [← ticksIn_sub, hacc, htotal]
      congr 1
      ring
    rw [hrest] at ihdt ihst ihacc
    rw [timerStages_cons]
    refine ⟨by omega, by omega, ?_⟩
    rw [ihacc, hacc, htotal, Nat.cast_sub (htotal ▸ hfirst)]
    ring

/-- Settles O48: the stages take the ticks of the whole time, which are 60 for 1 s. -/
theorem cadenceIsIndependentOfTheCycles : Obligations.CadenceIsIndependentOfTheCycles := by
  refine ⟨timerStages_spec, fun es s h0 h1 => ?_⟩
  obtain ⟨hdt, hst, -⟩ := timerStages_spec es s (by rw [h0]; norm_num)
  have hticks : ticksIn (s.acc.val + totalSeconds es) = 60 := by
    rw [h0, h1, zero_add, ticksIn, one_mul]
    exact Nat.floor_ofNat 60
  rw [hticks] at hdt hst
  exact ⟨hdt, hst⟩

/-! ### The timer moves (44_keys_timers.md) -/

theorem encodedBy_ldVxDt : EncodedBy 0xF0FF 0xF007 (fun w => .ldVxDt (fieldX w)) :=
  encodedBy_of_row "FX07" "LD" (by simp [opcodeMap, opcodeRowsF])

theorem encodedBy_ldDtVx : EncodedBy 0xF0FF 0xF015 (fun w => .ldDtVx (fieldX w)) :=
  encodedBy_of_row "FX15" "LD" (by simp [opcodeMap, opcodeRowsF])

theorem encodedBy_ldStVx : EncodedBy 0xF0FF 0xF018 (fun w => .ldStVx (fieldX w)) :=
  encodedBy_of_row "FX18" "LD" (by simp [opcodeMap, opcodeRowsF])

/-- Settles O46: each of the three writes one register or one timer. -/
theorem timerMoves : Obligations.TimerMoves :=
  ⟨encodedBy_ldVxDt, encodedBy_ldDtVx, encodedBy_ldStVx, fun x s =>
    ⟨⟨_, exec_ldVxDt x s, getV_setV_same s x _, setV_frames s x _⟩, ⟨_, exec_ldDtVx x s, rfl, setDt_frame s _⟩,
     ⟨_, exec_ldStVx x s, rfl, setSt_frame s _⟩⟩⟩

/-- A cycle whose word decodes to an instruction that does not fault ends with the timer stage. -/
theorem step_of_noFault {s u : State} {e : Seconds} {r : Byte} {i : Instr} (hr : s.Runs e r)
    (hd : decodeWord s.nextWord = .ok i) (hi : faultCondition s i = none)
    (hu : exec i (s.takeCommand.beginCycle r).fetch = .next u) : step s = .next (timerStage e u) := by
  have hfault : u.fault = none := by
    obtain ⟨c, hc, -⟩ | ⟨-, hkept⟩ := exec_latches hu
    · cases (show faultCondition s i = some c from hc).symm.trans hi
    · exact hkept.trans hr.running
  rw [step_of_runs hr, executeWord_ok (s := (s.takeCommand.beginCycle r).fetch) hd, hu, finishCycle_next, hfault]
  rfl

/-- Settles O49: the timer stage runs on what the timer move left. -/
theorem timerStageRunsAfterExecute : Obligations.TimerStageRunsAfterExecute := by
  intro s t e r x hr h
  refine ⟨fun hd => ?_, fun hd => ?_, fun hd => ?_⟩
  · cases (step_of_noFault hr hd rfl (exec_ldVxDt x _)).symm.trans h
    exact ⟨by rw [timerStage_getV, getV_setV_same]; rfl, timerStage_dt_toNat e _⟩
  · cases (step_of_noFault hr hd rfl (exec_ldDtVx x _)).symm.trans h
    exact timerStage_dt_toNat e _
  · cases (step_of_noFault hr hd rfl (exec_ldStVx x _)).symm.trans h
    exact timerStage_st_toNat e _

end Sys2Proof.Machine
end

section
/-! The invariant of 10_state.md R42: it holds at reset, every step keeps it, so it holds in every state reached. -/

namespace Sys2Proof.Machine

open Sys2Proof.Claims

/-! ### Canonical memory -/

theorem skipIf_mem (s : State) (c : Bool) : (s.skipIf c).mem = s.mem := by
  cases c <;> rfl

theorem popAndJump_mem (s : State) : (s.popAndJump hardware).mem = s.mem := by
  obtain ⟨k, -, e⟩ | ⟨-, e⟩ := popAndJump_cases s
  · rw [e]
  · rw [e]
    rfl

theorem pushAndJump_mem (s : State) (target : Word) : (s.pushAndJump hardware target).mem = s.mem := by
  obtain ⟨_, e⟩ | ⟨-, e⟩ := pushAndJump_cases s target
  · rw [e]
  · rw [e]
    rfl

theorem keySkip_mem (x : Reg) (pressed : Bool) (s : State) : (keySkip hardware x pressed s).mem = s.mem := by
  obtain ⟨k, -, e⟩ | ⟨-, e⟩ := keySkip_cases x pressed s
  · rw [e, skipIf_mem]
  · rw [e]
    rfl

theorem drawRows_mem (px0 py0 n : Nat) (s : State) : (drawRows hardware px0 py0 n s).mem = s.mem := by
  obtain ⟨h, -⟩ := drawRows_touches px0 py0 n s
  rw [h]

theorem loadRegs_mem (s : State) (x : Reg) : (loadRegs s x).mem = s.mem := by
  obtain ⟨h, -⟩ := loadRegs_spec s x
  rw [h]

/-- A checked effect leaves canonical memory when the effect inside the range does. -/
theorem checked_mem_wf {s effect : State} {last : Nat} (hm : s.mem.wf)
    (h : s.index.toNat + last ≤ 0xFFF → effect.mem.wf) : (s.checked hardware last effect).mem.wf := by
  obtain ⟨hin, e⟩ | ⟨-, e⟩ := checked_cases s last effect
  · rw [e]
    exact h hin
  · rw [e]
    exact hm

/-- Every instruction keeps the canonical form of memory. -/
theorem exec_mem_wf {i : Instr} {s t : State} (hm : s.mem.wf) (h : exec i s = .next t) : t.mem.wf := by
  cases i with
  | ldB x =>
    cases h
    refine checked_mem_wf hm fun hin => memWriteList_wf _ hm ?_
    rw [decimalDigits_length]
    exact Nat.succ_le_succ hin
  | stRegs x =>
    cases h
    refine checked_mem_wf hm fun hin => ?_
    obtain ⟨hwf, -⟩ := storeRegs_spec s x hm hin
    exact hwf
  | ldRegs x =>
    cases (exec_ldRegs x s).symm.trans h
    exact checked_mem_wf hm fun _ => (loadRegs_mem s x).symm ▸ hm
  | drw x y n =>
    by_cases hs : SpriteInMemory s n
    · cases (exec_drw_inside hs x y).symm.trans h
      rwa [drawRows_mem]
    · cases (exec_drw_outside hs x y).symm.trans h
      exact hm
  | ret => cases h; rwa [popAndJump_mem]
  | call nnn => cases h; rwa [pushAndJump_mem]
  | seImm _ _ | sneImm _ _ | seReg _ _ | sneReg _ _ => cases h; rwa [skipIf_mem]
  | skp x | sknp x => cases h; rwa [keySkip_mem]
  | ldVxK x =>
    obtain ⟨k, -, e⟩ | ⟨-, e⟩ := exec_ldVxK_cases x s
    · cases e.symm.trans h
      exact hm
    · cases e.symm.trans h
      exact hm
  | _ => cases h; exact hm

/-! ### The call stack and pc -/

/-- Every slot holds an address that a fetch can leave in pc (41_control.md R110 (b)). -/
def State.SlotsBounded (s : State) : Prop := ∀ k : Fin 16, (s.stack.get k).toNat ≤ 0x1000

theorem exec_slotsBounded {i : Instr} {s t : State} (hs : s.SlotsBounded) (hp : s.pc.toNat ≤ 0x1000)
    (h : exec i s = .next t) : t.SlotsBounded := by
  intro k
  by_cases hstack : .stack ∈ changedParts i
  case neg => exact (exec_samePart h hstack (by decide) (by decide) k).symm ▸ hs k
  cases i with
  | call nnn =>
    cases h
    obtain ⟨hlt, e⟩ | ⟨-, e⟩ := pushAndJump_cases s (addrOfNNN nnn)
    · rw [e]
      have hslot : (s.stack.set s.sp.val s.pc hlt).get k = if s.sp.val = k.val then s.pc else s.stack.get k := by
        simp [Vector.get_eq_getElem, Vector.getElem_set]
      rw [hslot]
      split
      · exact hp
      · exact hs k
    · rw [e]
      exact hs k
  | _ => simp [changedParts] at hstack

/-- The table of pc stays at most 0x10FE: the largest target is 0xFFF + 0xFF of `BNNN` (10_state.md R42 (c)). -/
theorem pcAfter_le {s : State} (hs : s.SlotsBounded) (hp : s.pc.toNat ≤ 0xFFE) (i : Instr) : pcAfter s i ≤ 0x10FE := by
  by_cases hpc : .pc ∈ changedParts i
  case neg =>
    rw [pcAfter_of_plain hpc]
    omega
  cases i with
  | ret =>
    simp only [pcAfter]
    split
    · exact (hs _).trans (by decide)
    · omega
  | jp nnn | call nnn => exact (Nat.le_of_lt nnn.isLt).trans (by decide)
  | jpV0 nnn =>
    have hn := nnn.isLt
    have hv := (s.getV 0).isLt
    simp only [pcAfter]
    omega
  | seImm _ _ | sneImm _ _ | seReg _ _ | sneReg _ _ | skp _ | sknp _ | ldVxK _ =>
    simp only [pcAfter]
    split <;> omega
  | _ => simp [changedParts] at hpc

/-! ### The invariant -/

/-- The reset state with any canonical memory and any host's side meets the invariant. -/
theorem inv_reset_with {mem : Memory} (hm : mem.wf) (pending : List Command) (output : List Output) (cycles : Nat) :
    State.Inv { State.reset with mem := mem, pending := pending, output := output, cycles := cycles } where
  memory := hm
  accumulator := by
    rw [reset_acc, Seconds.zero]
    norm_num
  counter := by rw [reset_pc]; decide
  slots k := (congrArg BitVec.toNat (reset_stack_get k)).trans_le (Nat.zero_le _)

/-- Settles O19. -/
theorem resetMeetsTheInvariant : Obligations.ResetMeetsTheInvariant := inv_reset_with memory_nil_wf _ _ _

/-- A change of other parts keeps the invariant. -/
theorem State.Inv.of_frame {ps : List Part} {s t : State} (h : s.Inv) (hm : t.mem = s.mem) (hf : Frame ps s t)
    (hacc : .acc ∉ ps := by decide) (hpc : .pc ∉ ps := by decide) (hstack : .stack ∉ ps := by decide) : t.Inv := by
  obtain ⟨hmem, haccum, hcounter, hslots⟩ := h
  refine ⟨hm ▸ hmem, ?_, ?_, fun k => ?_⟩
  · rwa [show t.acc = s.acc from hf .acc hacc]
  · rwa [show t.pc = s.pc from hf .pc hpc]
  · rw [show t.stack.get k = s.stack.get k from hf .stack hstack k]
    exact hslots k

theorem setKeyCommand_mem (k : Int) (pressed : Bool) (s : State) :
    (setKeyCommand hardware k pressed s).mem = s.mem := by
  obtain ⟨j, -, e⟩ | ⟨-, e⟩ := setKeyCommand_cases k pressed s <;> rw [e]

/-- A cycle on a running core that can fetch keeps the invariant: pc by the table of R25. -/
theorem inv_of_runs {s t : State} {e : Seconds} {r : Byte} (hs : s.Inv) (hr : s.Runs e r) (h : step s = .next t) :
    t.Inv := by
  obtain ⟨hmem, haccum, -, hslots⟩ := hs
  have hpc : t.pc.toNat ≤ 0x10FE := by
    rw [pcAfterACycle s t e r hr h]
    have hle := hr.inRange
    split
    · split
      · omega
      · exact pcAfter_le hslots hle _
    · exact (Nat.add_le_add_right hle 2).trans (by decide)
  obtain ⟨hgt, -⟩ | ⟨-, -, rfl⟩ | ⟨hp, i, u, -, hu, rfl⟩ := step_cycle_cases hr.command hr.running h
  · exact absurd hr.inRange (Nat.not_le.mpr hgt)
  · exact ⟨hmem, timerStage_acc_lt e _, hpc, hslots⟩
  · have hfetch : (s.takeCommand.beginCycle r).fetch.pc.toNat = s.pc.toNat + 2 := fetch_pc_toNat hp
    have humem : u.mem.wf := exec_mem_wf (s := (s.takeCommand.beginCycle r).fetch) hmem hu
    have huslots : u.SlotsBounded := exec_slotsBounded (s := (s.takeCommand.beginCycle r).fetch) hslots (by omega) hu
    by_cases hf : u.fault.isSome
    · rw [if_pos hf] at hpc ⊢
      have huacc : u.acc = s.acc := by
        refine exec_samePart hu (p := .acc) ?_ (by decide) (by decide)
        cases i <;> simp [changedParts]
      exact ⟨humem, huacc ▸ haccum, hpc, huslots⟩
    · rw [if_neg hf] at hpc ⊢
      exact ⟨humem, timerStage_acc_lt e u, hpc, huslots⟩

/-- Any cycle keeps the invariant: a halted core and a fetch fault change none of its parts. -/
theorem inv_of_cycle {s t : State} {e : Seconds} {r : Byte} (hs : s.Inv) (hc : s.nextCommand = .cycle e r)
    (h : step s = .next t) : t.Inv := by
  by_cases hf : s.fault = none
  case neg =>
    cases (step_cycle_halted hf hc).symm.trans h
    exact hs.of_frame rfl (takeCommand_frame s)
  rcases Nat.lt_or_ge 0xFFE s.pc.toNat with hp | hp
  · cases (step_fetchOutOfRange hc hf hp).symm.trans h
    exact hs.of_frame rfl (((takeCommand_beginCycle_frame s r).mono (qs := [.rand, .pending, .cycles, .fault])
      (by decide)).trans ((latchFault_pc_frame _ _ 0).mono (by decide)))
  · exact inv_of_runs hs ⟨hc, hf, hp⟩ h

/-- Settles O20: a cycle by its stages, a reset and a load by the state they put in place, and the other commands by the
parts they leave. -/
theorem stepKeepsTheInvariant : Obligations.StepKeepsTheInvariant := by
  intro s t hs h
  cases hc : s.nextCommand with
  | cycle e r => exact inv_of_cycle hs hc h
  | reset =>
    cases (step_reset hc).symm.trans h
    exact inv_reset_with memory_nil_wf _ _ _
  | load bytes =>
    cases (step_load hc).symm.trans h
    obtain ⟨hle, e⟩ | ⟨-, e⟩ := loadCommand_cases bytes s.takeCommand
    · obtain ⟨hwf, -⟩ := memRead_loadedMemory bytes hle
      exact e ▸ inv_reset_with hwf _ _ _
    · exact e ▸ inv_reset_with memory_nil_wf _ _ _
  | setKey k pressed =>
    cases (step_setKey hc).symm.trans h
    exact hs.of_frame (setKeyCommand_mem k pressed _) (setKeyCommand_takeCommand_frame k pressed s)
  | readFb =>
    cases (step_readFb hc).symm.trans h
    exact hs.of_frame rfl (((takeCommand_frame s).mono (qs := [.pending, .output]) (by decide)).trans
      ((emit_frame _ _).mono (by decide)))
  | status =>
    cases (step_status hc).symm.trans h
    exact hs.of_frame rfl (((takeCommand_frame s).mono (qs := [.pending, .output]) (by decide)).trans
      ((emit_frame _ _).mono (by decide)))

/-! ### Reachable states (R42) -/

/-- What holds at first and is kept by every step holds after any run. -/
theorem run_keeps {P : State → Prop} (hstep : ∀ s t, P s → step s = .next t → P t) :
    ∀ (k : Nat) {s t : State}, P s → core.run k s = .next t → P t
  | 0, _, _, hs, h => Host.Outcome.next.inj h ▸ hs
  | k + 1, s, t, hs, h => by
    obtain ⟨u, hu⟩ := everyStepAnswersNext s
    rw [run_succ k hu] at h
    exact run_keeps hstep k (hstep s u hs hu) h

/-- Settles O21: the invariant in every reachable state; the bounds of sp and of the accumulator from below are in the
types. -/
theorem reachableStatesMeetR42 : Obligations.ReachableStatesMeetR42 := by
  intro commands k t h
  obtain ⟨-, hacc, hpc, -⟩ := run_keeps stepKeepsTheInvariant k (inv_reset_with memory_nil_wf commands [] 0) h
  exact ⟨Nat.le_of_lt_succ t.sp.isLt, t.acc.nonneg, hacc, hpc, fun hf e r => runCycle_halted e r t hf⟩

end Sys2Proof.Machine
end

section
/-! Drawing (40_display.md R101, R103), the return (41_control.md R110, R112), memory (20_memory.md R55, R63) and the key
wait (44_keys_timers.md R172). -/

namespace Sys2Proof.Machine

open Sys2Proof.Claims

/-! ### Drawing a sprite -/

theorem encodedBy_drw : EncodedBy 0xF000 0xD000 (fun w => .drw (fieldX w) (fieldY w) (fieldN w)) :=
  encodedBy_of_row "DXYN" "DRW" (by simp [opcodeMap, opcodeRows9toE])

/-- `t` is `s` with the hit pixels inverted and VF set to whether a lit pixel was hit, and nothing else changed. -/
structure DrawsSprite (s t : State) (hit : Fin 64 → Fin 32 → Bool) : Prop where
  pix : ∀ px py, t.pixel px py = (s.pixel px py ^^ hit px py)
  flag : t.getV vf = if ∃ px py, hit px py = true ∧ s.pixel px py = true then 1 else 0
  regs : RegsSameExcept [vf] s t
  frame : Frame [.regs, .fb] s t

/-- The sprite bit that falls on a pixel, in the terms of the sprite-draw unit. -/
theorem spriteBit_eq_hitOfRows (s : State) (x y : Reg) (n : Nat) :
    spriteBit s x y n = hitOfRows s.mem s.index.toNat ((s.getV x).toNat % 64) ((s.getV y).toNat % 32) n := rfl

/-- A draw of a sprite in memory inverts the pixels its bits fall on, and VF is the collision (R101 to R103). -/
theorem exec_drw_draws {n : Nat} {s : State} (hn : n ≤ 15) (hm : SpriteInMemory s n) (x y : Reg) :
    ∃ t, exec (.drw x y n) s = .next t ∧ DrawsSprite s t (spriteBit s x y n) := by
  have hx : (s.getV x).toNat % 64 < 64 := Nat.mod_lt _ (by decide)
  have hy : (s.getV y).toNat % 32 < 32 := Nat.mod_lt _ (by decide)
  obtain ⟨-, hregs, hpix, hflag⟩ := drawRows_flips _ _ hx hy (s.setV vf 0) n (by omega)
  rw [getV_setV_same] at hflag
  rw [spriteBit_eq_hitOfRows]
  refine ⟨_, exec_drw_inside hm x y, hpix, hflag, fun r hr => ?_, ?_⟩
  · have hvf : r ≠ vf := List.ne_of_not_mem_cons hr
    rw [hregs r hvf, getV_setV_of_ne s hvf]
  · exact ((setV_frame s vf 0).mono (by decide)).trans (drawRows_frame _ _ n _)

/-- VF after a draw, told by the pixels that went off. -/
theorem DrawsSprite.flag_cases {s t : State} {hit : Fin 64 → Fin 32 → Bool} (h : DrawsSprite s t hit) :
    (t.getV vf = 1 ∧ ∃ px py, s.pixel px py = true ∧ t.pixel px py = false) ∨
    (t.getV vf = 0 ∧ ∀ px py, s.pixel px py = true → t.pixel px py = true) := by
  obtain ⟨hpix, hflag, -, -⟩ := h
  by_cases hex : ∃ px py, hit px py = true ∧ s.pixel px py = true
  · obtain ⟨px, py, hhit, hlit⟩ := id hex
    exact .inl ⟨hflag.trans (if_pos hex), px, py, hlit, by rw [hpix, hhit, hlit]; rfl⟩
  · refine .inr ⟨hflag.trans (if_neg hex), fun px py hlit => ?_⟩
    have hmiss : hit px py = false := by
      by_contra hhit
      exact hex ⟨px, py, by simpa using hhit, hlit⟩
    rw [hpix, hmiss, hlit]
    rfl

/-- Settles O23: inside memory by the sprite's bits, outside it by the fault of the range check. -/
theorem drwXorsTheSpriteAndSetsCollision : Obligations.DrwXorsTheSpriteAndSetsCollision := by
  refine ⟨encodedBy_drw, fun x y n s hn hm => ?_, fun x y n s hm => ?_⟩
  · obtain ⟨t, ht, hdraw⟩ := exec_drw_draws hn hm x y
    exact ⟨t, ht, hdraw.pix, hdraw.flag_cases, hdraw.regs, hdraw.frame⟩
  · exact ⟨_, exec_drw_outside hm x y, raiseFault_spec s _⟩

/-- The sprite's bits are those of its origin and its bytes. -/
theorem spriteBit_congr {s t : State} {x y : Reg} (hx : t.getV x = s.getV x) (hy : t.getV y = s.getV y)
    (hindex : t.index = s.index) (hmem : ∀ a, memRead t.mem a = memRead s.mem a) (n : Nat) :
    spriteBit t x y n = spriteBit s x y n := by
  funext px py
  simp only [spriteBit, hx, hy, hindex, hmem]

/-- A draw with neither coordinate in VF leaves the same sprite for a second draw. -/
theorem DrawsSprite.spriteBit_eq {s t : State} {hit : Fin 64 → Fin 32 → Bool} (h : DrawsSprite s t hit) {x y : Reg}
    (hx : x ≠ vf) (hy : y ≠ vf) (n : Nat) : spriteBit t x y n = spriteBit s x y n :=
  spriteBit_congr (h.regs x (by simpa using hx)) (h.regs y (by simpa using hy)) (h.frame .index (by decide))
    (h.frame .mem (by decide)) n

/-- Settles O24: the second draw hits the pixels the first one hit, so it inverts them back; on an empty framebuffer
those are the lit ones. -/
theorem drawingTwiceErases : Obligations.DrawingTwiceErases := by
  intro x y n s t u hx hy hn hm ht hu
  obtain ⟨_, ht', hdraw⟩ := exec_drw_draws hn hm x y
  cases ht'.symm.trans ht
  have hindex : t.index = s.index := hdraw.frame .index (by decide)
  have hmt : SpriteInMemory t n := by rwa [SpriteInMemory, hindex]
  obtain ⟨_, hu', hdraw2⟩ := exec_drw_draws hn hmt x y
  cases hu'.symm.trans hu
  rw [hdraw.spriteBit_eq hx hy] at hdraw2
  refine ⟨fun px py => ?_, fun hempty => ?_⟩
  · rw [hdraw2.pix, hdraw.pix, Bool.xor_assoc, Bool.xor_self, Bool.xor_false]
  · have hlit : ∀ px py, t.pixel px py = spriteBit s x y n px py := fun px py => by
      rw [hdraw.pix, hempty, Bool.false_xor]
    rw [hdraw2.flag]
    simp only [hlit, and_self]
    split
    · next hbit => exact ⟨fun _ => hbit, fun _ => rfl⟩
    · next hblank => exact ⟨fun hflag => absurd hflag (by decide), fun hbit => absurd hbit hblank⟩

/-! ### The return -/

theorem encodedBy_ret : EncodedBy 0xF0FF 0x00EE (fun _ => .ret) :=
  encodedBy_of_row "00EE" "RET" (by simp [opcodeMap, opcodeRows0to7])

/-- Settles O25: the return is one pop, of an occupied slot or of an empty stack. -/
theorem retPopsTheCallStack : Obligations.RetPopsTheCallStack := by
  refine ⟨encodedBy_ret, fun s k hk => ?_, fun s h0 => ?_⟩
  · refine ⟨_, exec_ret s, ?_⟩
    rw [popAndJump_of_succ hk]
    exact ⟨rfl, rfl, setSpPc_frame s _ _⟩
  · refine ⟨_, s.cycles, exec_ret s, ?_⟩
    rw [popAndJump_of_empty (congrArg Fin.val h0)]
    exact ⟨rfl, report_frame s _⟩

/-- A frame need not name a part that is back as it was. -/
theorem Frame.restored {p : Part} {ps : List Part} {s t : State} (h : Frame (p :: ps) s t) (hp : SamePart s t p) :
    Frame ps s t := by
  intro q hq
  by_cases hqp : q = p
  · exact hqp ▸ hp
  · exact h q (by simp [hqp, hq])

/-- Settles O28: the return pops the slot the call pushed, so pc and sp are back. -/
theorem callThenReturnRestores : Obligations.CallThenReturnRestores := by
  intro nnn s t u hlt ht hu
  obtain ⟨hslot, hother, hsp, -, hframe⟩ := pushAndJump_of_lt (k := ⟨s.sp.val, hlt⟩) rfl (addrOfNNN nnn)
  cases (exec_call nnn s).symm.trans ht
  have hpop : exec .ret (s.pushAndJump hardware (addrOfNNN nnn)) =
      .next { s.pushAndJump hardware (addrOfNNN nnn) with sp := s.sp, pc := s.pc } := by
    rw [exec_ret, popAndJump_of_succ hsp, hslot]
    rfl
  cases hpop.symm.trans hu
  have hboth := hframe.trans ((setSpPc_frame _ s.sp s.pc).mono (by decide))
  exact ⟨rfl, rfl, fun k hk => hother k (fun he => hk (congrArg Fin.val he)),
    ((hboth.restored rfl).mono (qs := [.sp, .stack]) (by decide)).restored rfl⟩

/-! ### Memory -/

/-- Settles O42: the law of writes at the address and at another one, and the canonical form. -/
theorem memoryReadsTheByteLastWritten : Obligations.MemoryReadsTheByteLastWritten :=
  fun m a v hm => ⟨by rw [memRead_memWrite m hm, if_pos rfl], fun b hb => by rw [memRead_memWrite m hm, if_neg hb],
    fun ha => memWrite_wf hm ha v⟩

/-- Each byte of the next word is the byte of memory at its address. -/
theorem nextByte_eq (s : State) (j : Fin 2) : s.nextByte j = memRead s.mem (s.pc.toNat + j.val) := by
  rcases Fin.exists_fin_two.mp ⟨j, rfl⟩ with rfl | rfl
  · exact highByte_nextWord s
  · exact lowByte_nextWord s

/-- After a cycle whose instruction replaces memory, pc is at the next word, which reads from the new memory (R63). -/
theorem step_of_store {s t : State} {e : Seconds} {r : Byte} {i : Instr} {m : Memory} (hr : s.Runs e r)
    (hd : decodeWord s.nextWord = .ok i) (hi : faultCondition s i = none)
    (hu : exec i (s.takeCommand.beginCycle r).fetch = .next { (s.takeCommand.beginCycle r).fetch with mem := m })
    (h : step s = .next t) :
    t.pc.toNat = s.pc.toNat + 2 ∧ ∀ j : Fin 2, t.nextByte j = memRead m (t.pc.toNat + j.val) := by
  cases (step_of_noFault hr hd hi hu).symm.trans h
  exact ⟨fetch_pc_toNat (s := s.takeCommand.beginCycle r) hr.inRange, fun j => nextByte_eq _ j⟩

/-- The bulk store leaves a byte at whose address it stores nothing. -/
theorem memRead_storeRegs_of_ne {x : Reg} {s : State} (hm : s.mem.wf) (h : s.index.toNat + x.val ≤ 0xFFF) {a : Nat}
    (ha : ∀ k : Reg, k ≤ x → s.effAddr k.val ≠ a) : memRead (storeRegs s x) a = memRead s.mem a := by
  refine memRead_storeRegs_outside hm h ?_
  by_contra hin
  have hk : a - s.index.toNat ≤ x.val := by omega
  refine ha ⟨a - s.index.toNat, by omega⟩ hk ?_
  simp only [State.effAddr]
  omega

/-- The decimal digits, one by one (43_index_memory.md R153). -/
theorem decimalDigits_toNat (a : Byte) :
    (decimalDigits a)[0].toNat = a.toNat / 100 ∧ (decimalDigits a)[1].toNat = a.toNat / 10 % 10 ∧
    (decimalDigits a)[2].toNat = a.toNat % 10 := by
  have ha := a.isLt
  simp only [decimalDigits, List.getElem_cons_zero, List.getElem_cons_succ, BitVec.toNat_ofNat]
  omega

/-- Settles O43: the next word reads from the memory the store left, byte by byte. -/
theorem storedCodeIsFetchedNext : Obligations.StoredCodeIsFetchedNext := by
  intro s t e r x hr hm h
  refine ⟨fun hd hin => ?_, fun hd hin => ?_⟩
  · obtain ⟨hpc, hbyte⟩ := step_of_store hr hd (if_neg (Nat.not_lt.mpr hin))
      (exec_stRegs_inside (s := (s.takeCommand.beginCycle r).fetch) hin) h
    refine ⟨hpc, fun j => ⟨fun k hk ha => ?_, fun hne => ?_⟩⟩
    · rw [hbyte, ← ha]
      exact memRead_storeRegs_reg (s := (s.takeCommand.beginCycle r).fetch) hm hin hk
    · rw [hbyte]
      exact memRead_storeRegs_of_ne (s := (s.takeCommand.beginCycle r).fetch) hm hin hne
  · obtain ⟨hpc, hbyte⟩ := step_of_store hr hd (if_neg (Nat.not_lt.mpr hin))
      (exec_ldB_inside (s := (s.takeCommand.beginCycle r).fetch) hin) h
    have hlen : s.index.toNat + (decimalDigits (s.getV x)).length ≤ 0x1000 := by
      rw [decimalDigits_length]
      omega
    have hdigit (j : Fin 2) (k : Nat) (hk : k < 3) (ha : s.effAddr k = t.pc.toNat + j.val) :
        t.nextByte j = (decimalDigits (s.getV x))[k] := by
      rw [hbyte, ← ha]
      exact memRead_memWriteList_at hm hlen hk
    obtain ⟨h0, h1, h2⟩ := decimalDigits_toNat (s.getV x)
    refine ⟨hpc, fun j => ⟨fun ha => ?_, fun ha => ?_, fun ha => ?_, fun hne => ?_⟩⟩
    · rw [hdigit j 0 (by decide) ha, h0]
    · rw [hdigit j 1 (by decide) ha, h1]
    · rw [hdigit j 2 (by decide) ha, h2]
    · rw [hbyte]
      refine memRead_memWriteList_outside hm hlen ?_
      rw [decimalDigits_length]
      by_contra hin
      refine hne (t.pc.toNat + j.val - s.index.toNat) (by omega) ?_
      simp only [State.effAddr]
      omega

/-! ### The key wait -/

theorem encodedBy_ldVxK : EncodedBy 0xF0FF 0xF00A (fun w => .ldVxK (fieldX w)) :=
  encodedBy_of_row "FX0A" "LD" (by simp [opcodeMap, opcodeRowsF])

/-- The lowest pressed key is the one that is pressed with no lower one. -/
theorem lowestKey_eq_some {s : State} {k : Fin 16} (hk : s.key.get k = true)
    (hlow : ∀ j : Fin 16, j < k → s.key.get j = false) : s.lowestKey = some k.val := by
  cases hl : s.lowestKey with
  | none =>
    have hup := lowestKey_none.mp hl k.val
    rw [keyDown_eq, hk] at hup
    cases hup
  | some q =>
    obtain ⟨hq, hdown, hbelow⟩ := lowestKey_some hl
    rcases Nat.lt_trichotomy q k.val with hlt | heq | hgt
    · have hup := hlow ⟨q, hq⟩ hlt
      rw [← keyDown_eq, hdown] at hup
      cases hup
    · rw [heq]
    · have hup := hbelow k.val hgt
      rw [keyDown_eq, hk] at hup
      cases hup

theorem exec_ldVxK_of_some {s : State} {k : Nat} (h : s.lowestKey = some k) (x : Reg) :
    exec (.ldVxK x) s = .next (s.setV x (BitVec.ofNat 8 k)) := by
  obtain ⟨q, hq, e⟩ | ⟨hnone, -⟩ := exec_ldVxK_cases x s
  · rw [e, Option.some.inj (hq.symm.trans h)]
  · cases h.symm.trans hnone

theorem exec_ldVxK_of_none {s : State} (h : s.lowestKey = none) (x : Reg) :
    exec (.ldVxK x) s = .next (s.jumpTo (s.pc - 2)) := by
  obtain ⟨q, hq, -⟩ | ⟨-, e⟩ := exec_ldVxK_cases x s
  · cases h.symm.trans hq
  · exact e

/-- Settles O45: one register write of the lowest pressed key, or a jump back. -/
theorem keyWaitStoresTheLowestKey : Obligations.KeyWaitStoresTheLowestKey := by
  refine ⟨encodedBy_ldVxK, fun x s k hk hlow => ?_, fun x s hup => ?_⟩
  · refine ⟨_, exec_ldVxK_of_some (lowestKey_eq_some hk hlow) x, ?_, setV_frames s x _⟩
    rw [getV_setV_same, BitVec.toNat_ofNat, Nat.mod_eq_of_lt (k.isLt.trans (by decide))]
  · have hnone : s.lowestKey = none := by
      refine lowestKey_none.mpr fun k => ?_
      by_cases hk : k < 16
      · exact (keyDown_eq s ⟨k, hk⟩).trans (hup _)
      · exact keyDown_of_ge s k (Nat.not_lt.mp hk)
    exact ⟨_, exec_ldVxK_of_none hnone x, rfl, jumpTo_frame s _⟩

end Sys2Proof.Machine
end

section
/-! The step (30_encoding.md R70), the successful load and the status (70_reset_and_hazards.md R254, 60_exceptions.md
R230), the run off the end, the idle loop and the wait (70_reset_and_hazards.md R257, R263, R266), and the parameters
(00_scope.md R6). -/

namespace Sys2Proof.Machine

open Sys2Proof.Claims

/-! ### The step of a decoded instruction (R70) -/

/-- Two bytes that decode with nothing left over are a word that decodes. -/
theorem decodeWord_of_decodeBytes {hi lo : Byte} {i : Instr} (h : decodeBytes [hi, lo] = .ok (i, [])) :
    decodeWord (wordOfBytes hi lo) = .ok i := by
  rw [decodeBytes_pair] at h
  cases hd : decodeWord (wordOfBytes hi lo) with
  | ok j =>
    rw [hd] at h
    cases h
    rfl
  | error err =>
    rw [hd] at h
    cases h

/-- Settles O7: the bytes at pc are the fetched word, whose decoding is well formed, and the latch tells whether the
timer stage runs. -/
theorem stepRunsTheDecodedInstruction : Obligations.StepRunsTheDecodedInstruction := by
  intro s e r i t hr hbytes hexec
  have hd : decodeWord s.nextWord = .ok i := decodeWord_of_decodeBytes hbytes
  obtain ⟨hwf, -⟩ := encodeOfDecodeIsTheExaminedWord _ _ hd
  have hu : exec i (s.takeCommand.beginCycle r).fetch = .next t := hexec
  refine ⟨hwf, ?_⟩
  rw [step_of_runs hr, executeWord_ok (s := (s.takeCommand.beginCycle r).fetch) hd, hu, finishCycle_next]
  cases t.fault <;> rfl

/-! ### A load that fits (R254) -/

/-- Replacing memory and the host's side leaves every other part. -/
theorem setMemHostSide_frame (s : State) (mem : Memory) (pending : List Command) (output : List Output)
    (cycles : Nat) : Frame [.mem, .pending, .output, .cycles] s
      { s with mem := mem, pending := pending, output := output, cycles := cycles } :=
  ((setMem_frame s mem).mono (by decide)).trans ((setHostSide_frame _ pending output cycles).mono (by decide))

/-- Settles O51: what the loaded memory reads as, range by range. -/
theorem loadInstallsProgramAndFont : Obligations.LoadInstallsProgramAndFont := by
  intro s bytes hs hlen
  obtain ⟨hwf, hread⟩ := memRead_loadedMemory bytes hlen
  refine ⟨_, (step_load hs).trans (congrArg _ (loadCommand_hardware_of_fits hlen _)), fun k => ?_, fun k hk => ?_,
    fun a ha => ?_, hwf, setMemHostSide_frame _ _ _ _ _, rfl⟩
  · rw [hread, if_pos (by omega), Nat.add_sub_cancel_left, List.getElem?_eq_getElem (by simp), Option.getD_some]
    rfl
  · rw [hread, if_neg (by omega), if_pos (by omega), Nat.add_sub_cancel_left, List.getElem?_eq_getElem hk,
      Option.getD_some]
  · rw [hread, if_neg (by omega)]
    split
    · rw [List.getElem?_eq_none (by omega), Option.getD_none]
    · rfl

/-! ### Status (R230) -/

theorem soundActive_iff (s : State) : s.soundActive = true ↔ s.st.toNat ≠ 0 := by
  rw [State.soundActive, decide_eq_true_iff, ne_eq, ← BitVec.toNat_inj]
  rfl

/-- Settles O55: one answer is emitted, of the latch and of the sound output. -/
theorem statusGivesLatchAndSound : Obligations.StatusGivesLatchAndSound :=
  fun s h => ⟨_, s.soundActive, step_status h, rfl, soundActive_iff s,
    ((takeCommand_frame s).mono (by decide)).trans ((emit_frame _ _).mono (by decide))⟩

/-! ### A reset with no load (R257) -/

/-- The state `k` decode errors after a reset with no load. -/
structure RunsOff (k : Nat) (s : State) : Prop where
  mem : s.mem = []
  pending : s.pending = []
  running : s.fault = none
  counter : s.pc.toNat = 0x200 + 2 * k
  reports : s.output.length = k
  decodeErrors : ∀ o ∈ s.output, ∃ d, o = .diag d ∧ d.code = .decodeError ∧ d.word = 0

theorem runsOff_reset : RunsOff 0 State.reset :=
  ⟨rfl, rfl, rfl, rfl, rfl, by simp⟩

theorem RunsOff.nextCommand {k : Nat} {s : State} (h : RunsOff k s) :
    s.nextCommand = .cycle (Config.freeElapsed s.cycles) (Config.freeRandom s.cycles) := by
  rw [State.nextCommand, h.pending]

theorem RunsOff.nextWord {k : Nat} {s : State} (h : RunsOff k s) : s.nextWord = 0 := by
  rw [State.nextWord, h.mem, memWord, memRead_nil, memRead_nil]
  rfl

/-- Below 0x1000 every cycle is one more decode error of word 0. -/
theorem RunsOff.next {k : Nat} {s : State} (h : RunsOff k s) (hk : k < 1792) :
    ∃ t, step s = .next t ∧ RunsOff (k + 1) t := by
  have hp : s.pc.toNat ≤ 0xFFE := by
    have := h.counter
    omega
  have hd : decodeWord s.nextWord = .error (.systemFamily 0) := by
    rw [h.nextWord]
    decide
  refine ⟨_, step_decodeError ⟨h.nextCommand, h.running, hp⟩ hd, ?_, ?_, ?_, ?_, ?_, ?_⟩
  · exact h.mem
  · exact congrArg List.tail h.pending
  · exact h.running
  · have hfetch := fetch_pc_toNat (s := s.takeCommand.beginCycle (Config.freeRandom s.cycles)) hp
    exact hfetch.trans (congrArg (· + 2) h.counter)
  · rw [timerStage_output, State.report, emit_output, List.length_append]
    exact congrArg (· + 1) h.reports
  · intro o ho
    rw [timerStage_output, State.report, emit_output, List.mem_append, List.mem_singleton] at ho
    obtain ho | rfl := ho
    · exact h.decodeErrors o ho
    · exact ⟨_, rfl, rfl, h.nextWord⟩

theorem run_runsOff : ∀ k ≤ 1792, ∃ t, core.run k State.reset = .next t ∧ RunsOff k t := by
  intro k hk
  induction k with
  | zero => exact ⟨_, rfl, runsOff_reset⟩
  | succ k ih =>
    obtain ⟨s, hs, hoff⟩ := ih (by omega)
    obtain ⟨t, ht, hoff'⟩ := hoff.next (by omega)
    exact ⟨t, run_snoc ht k hs, hoff'⟩

/-- Settles O57: 1792 steps by induction, then the fetch fault at 0x1000. -/
theorem resetWithoutLoadRunsOffTheEnd : Obligations.ResetWithoutLoadRunsOffTheEnd := by
  refine ⟨fun k hk => ?_, ?_⟩
  · obtain ⟨t, ht, -, -, hrunning, hpc, hreports, hdiags⟩ := run_runsOff k hk
    exact ⟨t, ht, hpc, hreports, hrunning, hdiags⟩
  · obtain ⟨s, hs, hoff⟩ := run_runsOff 1792 (by decide)
    have hpc : s.pc = 0x1000 := BitVec.eq_of_toNat_eq hoff.counter
    have hfault := step_fetchOutOfRange hoff.nextCommand hoff.running (by rw [hpc]; decide)
    rw [hpc] at hfault
    exact ⟨_, run_snoc hfault 1792 hs, rfl, rfl⟩

/-! ### The idle loop and the wait (R263, R266) -/

/-- A cycle whose instruction jumps to its own address changes only DT, ST, the accumulator and the model's own
parts. -/
theorem step_of_selfJump {s : State} {e : Seconds} {r : Byte} {i : Instr} {target : Word} (hr : s.Runs e r)
    (hd : decodeWord s.nextWord = .ok i) (hi : faultCondition s i = none)
    (hu : exec i (s.takeCommand.beginCycle r).fetch = .next ((s.takeCommand.beginCycle r).fetch.jumpTo target))
    (htarget : target = s.pc) :
    ∃ t, step s = .next t ∧ Frame [.dt, .st, .acc, .word, .rand, .pending, .cycles] s t := by
  refine ⟨_, step_of_noFault hr hd hi hu, Frame.restored (p := .pc) ?_ htarget⟩
  exact ((((takeCommand_beginCycle_frame s r).mono (by decide)).trans ((fetch_frame _).mono (by decide))).trans
    ((jumpTo_frame _ target).mono (by decide))).trans ((timerStage_frame e _).mono (by decide))

/-- Memory and pc as they were give the same next word. -/
theorem nextWord_of_frame {ps : List Part} {s t : State} (h : Frame ps s t) (hmem : .mem ∉ ps) (hpc : .pc ∉ ps) :
    t.nextWord = s.nextWord := by
  have hread : ∀ a, memRead t.mem a = memRead s.mem a := h .mem hmem
  rw [State.nextWord, State.nextWord, memWord, memWord, show t.pc = s.pc from h .pc hpc, hread, hread]

/-- Settles O58: the jump goes to the pc it was fetched at, where the same word stands. -/
theorem idleLoopChangesOnlyTimers : Obligations.IdleLoopChangesOnlyTimers := by
  rintro s e r hr ⟨nnn, hd, hnnn⟩
  have htarget : addrOfNNN nnn = s.pc := BitVec.eq_of_toNat_eq ((addrOfNNN_toNat nnn).trans hnnn)
  obtain ⟨t, ht, hframe⟩ := step_of_selfJump hr hd rfl (exec_jp nnn _) htarget
  have hpc : t.pc = s.pc := hframe .pc (by decide)
  exact ⟨t, ht, hframe, nnn, by rwa [nextWord_of_frame hframe (by decide) (by decide)], by rwa [hpc]⟩

/-- Settles O59: with no key pressed the wait jumps back to its own word, and still no key is pressed. -/
theorem waitingReturnsToTheSamePc : Obligations.WaitingReturnsToTheSamePc := by
  rintro s e r hr ⟨⟨x, hd⟩, hup⟩
  have hnone : (s.takeCommand.beginCycle r).fetch.lowestKey = none := lowestKey_none.mpr hup
  obtain ⟨t, ht, hframe⟩ := step_of_selfJump hr hd rfl (exec_ldVxK_of_none hnone x) (fetch_pc_sub _)
  refine ⟨t, ht, hframe, ⟨x, ?_⟩, fun k => (hframe .key (by decide) k).trans (hup k)⟩
  rwa [nextWord_of_frame hframe (by decide) (by decide)]

/-! ### The parameters (00_scope.md R6) -/

theorem stepWith_hardware (s : State) : stepWith hardware s = step s := performWith_hardware _ _

/-- At any values of the parameters an instruction leaves the registers within their widths. -/
theorem execWith_keeps (c : Config) (i : Instr) (s : State) : ∃ t : State, execWith c i s = .next (t.keep c) := by
  obtain ⟨t, ht⟩ := effectWith_answers c i s
  exact ⟨t, by rw [execWith, ht, keepResult]⟩

/-- Settles O60: the values by evaluation, the machine at them by the laws of the parameters, and the widths by what
`State.keep` leaves. -/
theorem hardwareIsTheParametersAtTheirDefaults : Obligations.HardwareIsTheParametersAtTheirDefaults := by
  refine ⟨rfl, rfl, rfl, rfl, rfl, rfl, rfl, rfl, rfl, rfl, rfl, rfl, rfl, rfl, rfl, rfl, fun _ => rfl,
    execWith_hardware, stepWith_hardware, rfl, fun c i s => ?_⟩
  obtain ⟨t, ht⟩ := execWith_keeps c i s
  exact ⟨_, ht, lowBits_lt _ _, lowBits_lt _ _, lowBits_lt _ _, lowBits_lt _ _,
    fun r hr => (keep_getV c t r).trans (if_neg (Nat.not_lt.mpr hr))⟩

end Sys2Proof.Machine
end
